-- ==== Sys2Proof/Word.lean ====
section
/-! DEFINITION. The words of the SPI-NOR command sequencer: bytes of frames and registers, 32-bit host words. -/

namespace Sys2Proof

/-- A byte: an 8-bit unsigned value (00_scope.md R13). -/
abbrev Byte := BitVec 8

/-- A host word, a flash offset or a byte length: 32 bits, unsigned, arithmetic modulo 2^32 (00_scope.md R12). -/
abbrev Word := BitVec 32

end Sys2Proof
end

