-- ==== Sys2Proof/Machine/Flags.lean ====
section
/-! DEFINITION. The bit computations on chip-register values: the block has no flags of its own beyond
`S.initialized` and `S.unlocked` (10_state.md R31); these are the fields of SR1, SR2 and CR it reads and writes
(30_encoding.md R66). -/

namespace Sys2Proof.Machine

/-- `1 << k`, the byte with only bit `k` set (00_scope.md R13). -/
def bitMask (k : Fin 8) : Byte := 1#8 <<< k.val

/-- `v[k] = 1` (00_scope.md R13). -/
def bitIsSet (v : Byte) (k : Fin 8) : Bool := v.getLsbD k.val

/-- `v | (1 << k)`, set a bit (30_encoding.md R66). -/
def setBit (v : Byte) (k : Fin 8) : Byte := v ||| bitMask k

/-- `v & ~(1 << k)`, clear a bit (30_encoding.md R66). -/
def clearBit (v : Byte) (k : Fin 8) : Byte := v &&& ~~~ bitMask k

/-- `v & (1 << k)`, keep only a bit (30_encoding.md R66). -/
def keepBit (v : Byte) (k : Fin 8) : Byte := v &&& bitMask k

end Sys2Proof.Machine
end

