-- ==== Sys2Proof/Config.lean ====
section
/-! DEFINITION. The configuration parameters of 00_scope.md R11 as a record of plain data, and the free values the
spec leaves open, as constants without a body. The parameters' default values stand in Machine/Parameters.lean. -/

namespace Sys2Proof

/-- The JEDEC identity: manufacturer, memory type, capacity code (00_scope.md R18, 10_state.md R27). -/
structure Ident where
  manufacturer : Byte
  memoryType : Byte
  capacity : Byte
  deriving DecidableEq, Repr

/-- The configuration parameters of 00_scope.md R11, each a named argument of the model ("A model takes each as a
named configuration argument"). `FAIL_CODE` is not here: it is drawn (60_exceptions.md R168). -/
structure Config where
  /-- `OP_RDID`. -/
  opRdid : Byte
  /-- `OP_RDSR1`. -/
  opRdsr1 : Byte
  /-- `OP_RDSR2`. -/
  opRdsr2 : Byte
  /-- `OP_RDCR`. -/
  opRdcr : Byte
  /-- `OP_WRSR`, shared by the SR1, SR2 and CR writes. -/
  opWrsr : Byte
  /-- `OP_WREN`. -/
  opWren : Byte
  /-- `OP_SE`. -/
  opSe : Byte
  /-- `OP_PP`. -/
  opPp : Byte
  /-- `OP_GBULK`. -/
  opGbulk : Byte
  /-- `OP_READ`, the slow read. -/
  opRead : Byte
  /-- `OP_FAST`. -/
  opFast : Byte
  /-- `OP_FAST4`. -/
  opFast4 : Byte
  /-- `OP_DUAL`. -/
  opDual : Byte
  /-- `OP_DUAL4`. -/
  opDual4 : Byte
  /-- `OP_QUAD`. -/
  opQuad : Byte
  /-- `OP_QUAD4`. -/
  opQuad4 : Byte
  /-- `SR1_WIP_BIT`. -/
  sr1WipBit : Fin 8
  /-- `SR1_QE_BIT`. -/
  sr1QeBit : Fin 8
  /-- `SR2_QE_BIT`. -/
  sr2QeBit : Fin 8
  /-- `SR2_CMP_BIT`. -/
  sr2CmpBit : Fin 8
  /-- `CR_QE_BIT`. -/
  crQeBit : Fin 8
  /-- `DUMMY_BYTE`. -/
  dummyByte : Byte
  /-- `SET_QMX`. -/
  setQmx : List Byte
  /-- `SET_QGD`. -/
  setQgd : List Byte
  /-- `SET_QSP`. -/
  setQsp : List Byte
  /-- `SET_LOCKED`. -/
  setLocked : List Byte
  /-- `SET_GD`. -/
  setGd : List Byte
  /-- `SET_MX`. -/
  setMx : List Byte
  /-- `SET_GBULK`. -/
  setGbulk : List Byte
  /-- `GBULK_ENABLED` (OPEN). -/
  gbulkEnabled : Bool
  /-- `MX_VOLATILE_QE` (OPEN): the identities of which the predicate holds. Identities are finitely many, so every
  predicate is such a list. -/
  mxVolatileQe : List Ident
  /-- `HOST_ADDR_WIDTH` (OPEN). -/
  hostAddrWidth : Nat
  deriving DecidableEq, Repr

/-- Free value: the value of the OPEN parameter `GBULK_ENABLED` after reset (92_eei_decisions.md D14). -/
opaque Config.openGbulkEnabled : Bool

/-- Free value: the OPEN predicate `MX_VOLATILE_QE` after reset (92_eei_decisions.md D15). -/
opaque Config.openMxVolatileQe : List Ident

/-- Free value: the OPEN parameter `HOST_ADDR_WIDTH` after reset (92_eei_decisions.md D4). -/
opaque Config.openHostAddrWidth : Nat

/-- Free value: whether the transport answers success to draw `d` (93_implementation_defined.md U3, U4). -/
opaque Config.freeSuccess : Nat → Bool

/-- Free value: byte `i` of draw `d`, for a response byte (93_implementation_defined.md U2) and for a host byte of a
failed READ chunk (U6). -/
opaque Config.freeByte : Nat → Nat → Byte

/-- Free value: the status word of draw `d`, from which `FAIL_CODE` is taken (93_implementation_defined.md U5). -/
opaque Config.freeStatus : Nat → Word

end Sys2Proof
end

