-- ==== Sys2Proof/Syntax.lean ====
section
/-! DEFINITION. The abstract syntax: the six host commands and the twenty frame kinds of spec/opcode_table.json, and
the two encoded forms they have (30_encoding.md R60, R63). -/

namespace Sys2Proof

/-- The address width of read frames, `THREE` or `FOUR` address bytes (10_state.md R25: "Encoded in the model as an
enumeration, not a number"). -/
inductive AddrWidth where
  | three
  | four
  deriving DecidableEq, Repr

/-- The register selectors 0 = SR1, 1 = SR2, 2 = CR (40_transport_registers.md R74). -/
inductive RegSel where
  | sr1
  | sr2
  | cr
  deriving DecidableEq, Repr

/-- One constructor for each row of spec/opcode_table.json. -/
inductive Instr where
  /-- INIT (44_init_exit.md R145). -/
  | init (stage : Word)
  /-- EXIT (44_init_exit.md R156). -/
  | exit (stage : Word)
  /-- UNLOCK (41_quirk_unlock.md R106). -/
  | unlock
  /-- READ, the host command (43_data_path.md R128). -/
  | read (startSector sectorCount buf : Word)
  /-- ERASE (43_data_path.md R131). -/
  | erase (startSector sectorCount : Word)
  /-- WRITE (43_data_path.md R137). -/
  | write (startSector sectorCount buf : Word)
  /-- RDID (40_transport_registers.md R84). -/
  | rdid
  /-- RDSR1 (40_transport_registers.md R75). -/
  | rdsr1
  /-- RDSR2 (40_transport_registers.md R76). -/
  | rdsr2
  /-- RDCR (40_transport_registers.md R78). -/
  | rdcr
  /-- WREN (40_transport_registers.md R79). -/
  | wren
  /-- WRSR.SR1, single form (40_transport_registers.md R81). -/
  | wrsrSr1 (v : Byte)
  /-- WRSR.SR2, paired form (40_transport_registers.md R82). -/
  | wrsrSr2 (v : Byte)
  /-- WRSR.CR, paired form (40_transport_registers.md R83). -/
  | wrsrCr (v : Byte)
  /-- EN4B (40_transport_registers.md R85). -/
  | en4b
  /-- EX4B (40_transport_registers.md R86). -/
  | ex4b
  /-- GBULK (41_quirk_unlock.md R104). -/
  | gbulk
  /-- SE (43_data_path.md R130): the sector's flash offset. -/
  | se (a : Word)
  /-- PP (43_data_path.md R136): the flash offset and the payload. -/
  | pp (a : Word) (p : List Byte)
  /-- READ.SLOW (42_frame_composer.md R120): the chunk's flash offset and length. -/
  | readSlow (o : Word) (n : Nat)
  /-- FAST (42_frame_composer.md R121). -/
  | fast (o : Word) (n : Nat)
  /-- FAST4 (42_frame_composer.md R122). -/
  | fast4 (o : Word) (n : Nat)
  /-- DUAL (42_frame_composer.md R123). -/
  | dual (o : Word) (n : Nat)
  /-- DUAL4 (42_frame_composer.md R124). -/
  | dual4 (o : Word) (n : Nat)
  /-- QUAD (42_frame_composer.md R125). -/
  | quad (o : Word) (n : Nat)
  /-- QUAD4 (42_frame_composer.md R126). -/
  | quad4 (o : Word) (n : Nat)
  deriving DecidableEq, Repr

/-- A host command as the host writes it: four 32-bit words (30_encoding.md R60). -/
structure Descriptor where
  w0 : Word
  w1 : Word
  w2 : Word
  w3 : Word
  deriving DecidableEq, Repr

/-- One frame to run on its own: its transmitted bytes, its response count, and the register selector that tells the
`OP_WRSR` forms apart (30_encoding.md R63, R64). -/
structure PortRequest where
  tx : List Byte
  rx : Nat
  sel : RegSel
  deriving DecidableEq, Repr

/-- The two encodings of the block (30_encoding.md, opening): a host descriptor or a frame. -/
inductive Code where
  | desc (d : Descriptor)
  | frame (r : PortRequest)
  deriving DecidableEq, Repr

/-- Why a descriptor or a frame spells no instruction. -/
inductive DecodeError where
  /-- `cmd` outside 0x01 to 0x06 (30_encoding.md R62). -/
  | unknownCommand
  /-- A bit of w0[31:8] is set (30_encoding.md R62). -/
  | reservedBits
  /-- No byte at all: a frame has at least its opcode (40_transport_registers.md R70). -/
  | emptyFrame
  /-- An opcode byte outside the map of 30_encoding.md R65. -/
  | unknownOpcode
  /-- Not the tx length of the opcode's format (30_encoding.md R63, R64). -/
  | badLength
  /-- Not the response count of the opcode's format (30_encoding.md R63). -/
  | badCount
  /-- The dummy byte is not `DUMMY_BYTE` (42_frame_composer.md R113). -/
  | badDummy
  deriving DecidableEq, Repr

end Sys2Proof
end

