-- ==== Sys2Proof/Machine/Parameters.lean ====
section
/-! DEFINITION. The constants of 00_scope.md R10 and the default values of the parameters of 00_scope.md R11. -/

namespace Sys2Proof.Machine

/-- `HOST_SECTOR`: bytes of a host sector (00_scope.md R10). -/
def hostSector : Nat := 512

/-- `ERASE_UNIT`: bytes of an erase sector, and the alignment of ERASE (00_scope.md R10). -/
def eraseUnit : Nat := 4096

/-- `PROG_CHUNK`: most payload bytes of one page-program frame (00_scope.md R10). -/
def progChunk : Nat := 128

/-- `READ_CHUNK`: most response bytes of one read frame, 8 MiB (00_scope.md R10). -/
def readChunk : Nat := 8388608

/-- `POLL_BUDGET`: most status reads of one ready-poll (00_scope.md R10). -/
def pollBudget : Nat := 65536

/-- `SIZE_THRESHOLD`: INIT tries 4-byte addressing when `flash_size` is greater (00_scope.md R10). -/
def sizeThreshold : Nat := 16

/-- `CR_4BYTE_BIT`: the CR bit that reflects 4-byte mode (00_scope.md R10). -/
def cr4ByteBit : Fin 8 := 5

/-- `OP_EN4B` (00_scope.md R10). -/
def opEn4b : Byte := 0xB7#8

/-- `OP_EX4B` (00_scope.md R10). -/
def opEx4b : Byte := 0xE9#8

/-- `QUIRK_FAST_ID`: the identity that forces the fast-read opcode (00_scope.md R10). -/
def quirkFastId : Ident := ⟨0xC2#8, 0x20#8, 0x1A#8⟩

/-- `QUIRK_QUAD_ID`: the identity that forces the quad-output-fast opcode (00_scope.md R10). -/
def quirkQuadId : Ident := ⟨0xC2#8, 0x20#8, 0x18#8⟩

/-- `ADDR3_REACH`: bytes a 3-byte address reaches (00_scope.md R10). -/
def addr3Reach : Nat := 16777216

/-- The status of success, 0 (60_exceptions.md R168). -/
def statusOk : Word := 0#32

/-- The failure status of INIT and READ, -1 (60_exceptions.md R168). -/
def statusMinusOne : Word := 0xFFFFFFFF#32

/-- The parameters after reset: the defaults of 00_scope.md R11 (PRESUMED by the spec "from general knowledge, not in
source"; log 4) and, for each OPEN one, its free value (log 5). -/
def defaultConfig : Config where
  opRdid := 0x9F#8
  opRdsr1 := 0x05#8
  opRdsr2 := 0x35#8
  opRdcr := 0x15#8
  opWrsr := 0x01#8
  opWren := 0x06#8
  opSe := 0x20#8
  opPp := 0x02#8
  opGbulk := 0x98#8
  opRead := 0x03#8
  opFast := 0x0B#8
  opFast4 := 0x0C#8
  opDual := 0x3B#8
  opDual4 := 0x3C#8
  opQuad := 0x6B#8
  opQuad4 := 0x6C#8
  sr1WipBit := 0
  sr1QeBit := 6
  sr2QeBit := 1
  sr2CmpBit := 6
  crQeBit := 1
  dummyByte := 0x00#8
  setQmx := [0xC2#8, 0x20#8]
  setQgd := [0xC8#8, 0x1F#8]
  setQsp := [0x01#8, 0xEF#8, 0x0B#8]
  setLocked := [0x1F#8, 0xBF#8, 0x8C#8, 0xC8#8, 0xC2#8]
  setGd := [0xC8#8]
  setMx := [0xC2#8]
  setGbulk := [0xEF#8, 0xC2#8, 0x0B#8, 0x20#8]
  gbulkEnabled := Config.openGbulkEnabled
  mxVolatileQe := Config.openMxVolatileQe
  hostAddrWidth := Config.openHostAddrWidth

/-- The twenty rows of the opcode map as eighteen bytes, since the three WRSR forms share one
(30_encoding.md R65, R69). -/
def opcodeMap (c : Config) : List Byte :=
  [c.opRdid, c.opRdsr1, c.opRdsr2, c.opRdcr, c.opWren, c.opWrsr, opEn4b, opEx4b, c.opGbulk, c.opSe, c.opPp,
   c.opRead, c.opFast, c.opFast4, c.opDual, c.opDual4, c.opQuad, c.opQuad4]

/-- The opcode bytes tell the frame kinds apart: no two of the eighteen are equal. It holds of the defaults
("eighteen distinct opcode bytes under the defaults", 30_encoding.md R69). -/
abbrev opcodesDistinct (c : Config) : Prop := (opcodeMap c).Nodup

end Sys2Proof.Machine
end

