-- ==== Sys2Proof/Machine/State.lean ====
section
/-! DEFINITION. The state of the machine, as plain data: the session record, the two positions, the outputs, host
memory, and the inputs of a run; and its value at reset (10_state.md). -/

namespace Sys2Proof.Machine

/-- The six error kinds (60_exceptions.md R160). -/
inductive ErrorKind where
  | transport
  | timeout
  | alignment
  | identity
  | quirk
  | addressingNegotiation
  deriving DecidableEq, Repr

/-- Where a TransportError arose: a transaction or the adapter's `init()` (60_exceptions.md R160). -/
inductive TransportPoint where
  | xfer
  | init
  deriving DecidableEq, Repr

/-- The two causes of a QuirkError (60_exceptions.md R160). -/
inductive QuirkReason where
  | noQuirk
  | notLatched
  deriving DecidableEq, Repr

/-- An error the block raises, with the information 60_exceptions.md R160 records. AddressingNegotiationError is not
here: it is "never raised, only logged". -/
inductive BlockError where
  | transport (point : TransportPoint)
  | timeout
  | alignment (off len : Word)
  | identity (id : Ident)
  | quirk (reason : QuirkReason)
  deriving DecidableEq, Repr

/-- The info of a diagnostic event (60_exceptions.md R160). -/
inductive DiagInfo where
  | poll
  | range (off len : Word)
  | ident (id : Ident)
  | quirk (reason : QuirkReason)
  | cr (v : Byte)
  | caught (e : BlockError)
  deriving DecidableEq, Repr

/-- A diagnostic event `(kind, info)` (10_state.md R37). -/
structure Diag where
  kind : ErrorKind
  info : DiagInfo
  deriving DecidableEq, Repr

/-- The session record `S` "with exactly these fields" (10_state.md R20). -/
structure Session where
  /-- `S.initialized` (10_state.md R23). -/
  initialized : Bool
  /-- `S.unlocked` (10_state.md R24). -/
  unlocked : Bool
  /-- `S.addrWidth` (10_state.md R25). -/
  addrWidth : AddrWidth
  /-- `S.readOp` (10_state.md R26). -/
  readOp : Byte
  /-- `S.id`: `none` is unwritten (10_state.md R27). -/
  id : Option Ident
  /-- `S.transportUp` (10_state.md R28). -/
  transportUp : Bool
  deriving DecidableEq, Repr

/-- `read_mode` of the boot configuration; `other` is any value outside the three (10_state.md R30). -/
inductive ReadMode where
  | single
  | dual
  | quad
  | other
  deriving DecidableEq, Repr

/-- The boot configuration record (10_state.md R30). -/
structure BootCfg where
  readMode : ReadMode
  flashSize : Nat
  deriving DecidableEq, Repr

/-- One event of the transaction trace (70_reset_and_hazards.md R193): a transaction with its answer (`none` is
FAILURE), the adapter's `init()` with its answer, and `teardown()`. -/
inductive Event where
  | xfer (tx : List Byte) (n : Nat) (rx : Option (List Byte))
  | transportInit (ok : Bool)
  | transportTeardown
  deriving DecidableEq, Repr

/-- One answer the transport will give: success, with response bytes, or FAILURE (00_scope.md R8). -/
inductive Answer where
  | ok (rx : List Byte)
  | fail
  deriving DecidableEq, Repr

/-- A range of host memory the host provides (70_reset_and_hazards.md R183). -/
structure HostRegion where
  base : Nat
  size : Nat
  readable : Bool
  writable : Bool
  deriving DecidableEq, Repr

/-- The result of the last frame that was run on its own: its response bytes, or its error
(40_transport_registers.md R87; transient by 10_state.md R29; log 14). -/
inductive PortResult where
  | none
  | ok (rx : List Byte)
  | error (e : BlockError)
  deriving DecidableEq, Repr

/-- Host memory: a list of (address, byte) cells in the canonical form that `Memory.wf` states (Machine/Ops.lean). -/
abbrev Memory := List Host.Cell

/-- The state of the machine. INVENTORY.md, '## State', names the rule of each field. -/
structure State where
  /-- The configuration parameters (00_scope.md R11). No step changes them. -/
  cfg : Config
  /-- The session record `S` (10_state.md R20). -/
  session : Session
  /-- The host command-stream index (10_state.md R22). -/
  hpc : Nat
  /-- The transaction index inside the running command (10_state.md R22). -/
  useq : Nat
  /-- The diagnostic stream, oldest first (10_state.md R37). -/
  diag : List Diag
  /-- The statuses returned to the host, oldest first (70_reset_and_hazards.md R193). -/
  statuses : List Word
  /-- The transaction trace, oldest first (70_reset_and_hazards.md R193). -/
  trace : List Event
  /-- Input: the boot configuration, or absent (10_state.md R30). -/
  bootCfg : Option BootCfg
  /-- Input: the host commands, in the order the host issues them (10_state.md R22). -/
  program : List Descriptor
  /-- The model's own: one frame to run on its own (log 13). -/
  request : Option PortRequest
  /-- The model's own: the result of the last frame run on its own (log 14). -/
  result : PortResult
  /-- Host memory (20_memory.md R43). The host does not change it between two commands (log 30). -/
  mem : Memory
  /-- Input: the host memory the host provides (70_reset_and_hazards.md R183), the same over a whole run (log 30). -/
  hostMap : List HostRegion
  /-- Input: the transport's coming answers, next first (00_scope.md R8). -/
  script : List Answer
  /-- The model's own: how many answers and other free values have been drawn (log 3). -/
  draws : Nat
  deriving DecidableEq, Repr

/-- What stops the machine. -/
inductive Fault where
  /-- UNLOCK, READ, ERASE or WRITE with `S.initialized` false: the host protocol fault (60_exceptions.md R167),
  raised by those four commands with their mnemonic. Safe: the spec says no claim is satisfied by such a run. -/
  | hostProtocol (command : String)
  /-- `MemRead` or `MemWrite` outside the memory the host provides: "no step in the model: the block is stuck there"
  (70_reset_and_hazards.md R183), raised by READ and WRITE. Safe: "the conservative reading". -/
  | hostMemory
  /-- A rule reads an unwritten `S.id`: it "cannot run" (10_state.md R27), raised by UNLOCK, ERASE and WRITE when the
  unlock engine's body would run. Safe: no reachable state shows it. -/
  | identityUnwritten
  deriving DecidableEq, Repr

/-- What the machine does not take as an instruction. -/
inductive Refusal where
  /-- An instruction without a meaning yet, raised by `exec`'s arm. Safe. -/
  | notModelled (mnemonic : String)
  /-- A host descriptor that spells no command (30_encoding.md R62, 60_exceptions.md R170), raised by the fetch.
  Safe: "errs toward unprovable". -/
  | illegalDescriptor (e : DecodeError)
  /-- A frame the block never emits (30_encoding.md R69), raised by the fetch from `request`. Safe. -/
  | illegalFrame (e : DecodeError)
  deriving DecidableEq, Repr

/-- The session record at reset (10_state.md R38, 70_reset_and_hazards.md R180). -/
def resetSession : Session where
  initialized := false
  unlocked := false
  addrWidth := .three
  readOp := defaultConfig.opRead
  id := none
  transportUp := false

/-- The machine right after reset (10_state.md R38, 70_reset_and_hazards.md R180). DESIGN CHOICE, each in the log:
`useq` 0 (22), `statuses` empty (21), `bootCfg` absent (18), `program` empty (12), `request` and `result` none (13, 14),
one host region of the whole host address space (8), `script` empty (2), `draws` 0 (3). -/
def State.reset : State where
  cfg := defaultConfig
  session := resetSession
  hpc := 0
  useq := 0
  diag := []
  statuses := []
  trace := []
  bootCfg := none
  program := []
  request := none
  result := .none
  mem := []
  hostMap := [⟨0, 2 ^ Config.openHostAddrWidth, true, true⟩]
  script := []
  draws := 0

end Sys2Proof.Machine
end

