-- ==== Sys2Proof/Machine/Operands.lean ====
section
/-! DEFINITION. Operand assembly (30_encoding.md R66), the addressing engine and the read-frame composer
(42_frame_composer.md R110 to R114), the read opcode families (R115 to R119), and how a request is cut into chunks. -/

namespace Sys2Proof.Machine

/-- `off = (startSector * HOST_SECTOR) mod 2^32` (20_memory.md R45). -/
def byteOffset (startSector : Word) : Word := BitVec.ofNat 32 (startSector.toNat * hostSector)

/-- `len = (sectorCount * HOST_SECTOR) mod 2^32` (20_memory.md R45). -/
def byteLength (sectorCount : Word) : Word := BitVec.ofNat 32 (sectorCount.toNat * hostSector)

/-- The host address in w3[HOST_ADDR_WIDTH-1:0] (30_encoding.md R60). -/
def hostAddr (c : Config) (buf : Word) : Nat := buf.toNat % 2 ^ c.hostAddrWidth

/-- `addr3(o) = [o[23:16], o[15:8], o[7:0]]`, dropping `o[31:24]` (00_scope.md R14, 42_frame_composer.md R114). -/
def addr3 (o : Word) : List Byte := [o.extractLsb' 16 8, o.extractLsb' 8 8, o.extractLsb' 0 8]

/-- `addr4(o) = [o[31:24], o[23:16], o[15:8], o[7:0]]` (00_scope.md R14). -/
def addr4 (o : Word) : List Byte :=
  [o.extractLsb' 24 8, o.extractLsb' 16 8, o.extractLsb' 8 8, o.extractLsb' 0 8]

/-- `AddrBytes(o, w)` (42_frame_composer.md R110). -/
def addrBytes (o : Word) : AddrWidth → List Byte
  | .three => addr3 o
  | .four => addr4 o

/-- The dummy byte: present exactly when the opcode is not `OP_READ` (42_frame_composer.md R113). -/
def dummyBytes (c : Config) (op : Byte) : List Byte := if op = c.opRead then [] else [c.dummyByte]

/-- The read frame of opcode `op` at offset `o` and width `w` (42_frame_composer.md R111). -/
def composeRead (c : Config) (op : Byte) (w : AddrWidth) (o : Word) : List Byte :=
  op :: (addrBytes o w ++ dummyBytes c op)

/-- `ReadFrame(o)`: the read-frame composer over `S.readOp` and `S.addrWidth` (42_frame_composer.md R111). -/
def readFrame (s : State) (o : Word) : List Byte := composeRead s.cfg s.session.readOp s.session.addrWidth o

/-- The six recognised read opcodes (42_frame_composer.md R115). -/
def recognisedReadOps (c : Config) : List Byte :=
  [c.opFast, c.opFast4, c.opDual, c.opDual4, c.opQuad, c.opQuad4]

/-- `down(op)`: the 3-byte opcode of the same family (42_frame_composer.md R116). Where two read-opcode parameters hold
the same byte, the first match in the order FAST, DUAL, QUAD wins (DESIGN CHOICE, unsafe: log 4). -/
def down (c : Config) (op : Byte) : Byte :=
  if op = c.opFast4 then c.opFast else if op = c.opDual4 then c.opDual else if op = c.opQuad4 then c.opQuad else op

/-- `up(op)`: the 4-byte opcode of the same family (42_frame_composer.md R117). Where two read-opcode parameters hold
the same byte, the first match in the order FAST, DUAL, QUAD wins (DESIGN CHOICE, unsafe: log 4). -/
def up (c : Config) (op : Byte) : Byte :=
  if op = c.opFast then c.opFast4 else if op = c.opDual then c.opDual4 else if op = c.opQuad then c.opQuad4 else op

/-- `reqOp(bootCfg)`: the requested read opcode; `none` is "unrecognised" (42_frame_composer.md R118). -/
def reqOp (c : Config) : Option BootCfg → Option Byte
  | none => some c.opFast
  | some b =>
    match b.readMode with
    | .single => some c.opFast
    | .dual => some c.opDual
    | .quad => some c.opQuad
    | .other => none

/-- The quad-capable opcodes are exactly `OP_QUAD` and `OP_QUAD4` (42_frame_composer.md R119). -/
def quadCapable (c : Config) (op : Byte) : Bool := op == c.opQuad || op == c.opQuad4

/-- The chunks of a request of `len` bytes in pieces of at most `size`: piece k has position `k * size` and length
`min(size, len - k * size)`, and there are `ceil(len / size)` of them (43_data_path.md R129 for READ, R138 for
`Program`). -/
def chunks (size len : Nat) : List (Nat × Nat) :=
  (List.range ((len + size - 1) / size)).map fun k => (k * size, min size (len - k * size))

/-- The sector offsets of an ERASE: `off + 4096 * i` for i from 0 to `len / 4096 - 1` (43_data_path.md R131). -/
def eraseOffsets (off : Word) (len : Nat) : List Word :=
  (List.range (len / eraseUnit)).map fun i => off + BitVec.ofNat 32 (i * eraseUnit)

end Sys2Proof.Machine
end

