-- ==== Sys2Proof/Machine/Ops.lean ====
section
/-! DEFINITION. The shared operations: host memory, the transport oracle and `Xfer`, raising an error (the block's
trap mechanism, 60_exceptions.md R161, R166), and the end of a host command (R168). -/

namespace Sys2Proof.Machine

/-! ### Host memory -/

/-- What an unlisted address of host memory reads as (DESIGN CHOICE, log 7). -/
def memFill : Byte := 0x00#8

/-- The canonical form: addresses strictly rising, and no cell equal to what an unlisted address reads as. -/
abbrev Memory.wf (m : Memory) : Prop :=
  m.Pairwise (fun x y => x.1 < y.1) ∧ ∀ x ∈ m, x.2 ≠ memFill

/-- Read one byte. -/
def Memory.read : Memory → Nat → Byte
  | [], _ => memFill
  | (x, b) :: m, a => if x = a then b else Memory.read m a

/-- Write one byte, keeping the canonical form. -/
def Memory.write : Memory → Nat → Byte → Memory
  | [], a, b => if b = memFill then [] else [(a, b)]
  | (x, c) :: m, a, b =>
    if a < x then (if b = memFill then (x, c) :: m else (a, b) :: (x, c) :: m)
    else if a = x then (if b = memFill then m else (a, b) :: m)
    else (x, c) :: Memory.write m a b

/-- Write the bytes `bs` from address `a`; byte i goes to `a + i` (00_scope.md R16, `MemWrite`). -/
def Memory.writeBlock : Memory → Nat → List Byte → Memory
  | m, _, [] => m
  | m, a, b :: bs => Memory.write (Memory.writeBlock m (a + 1) bs) a b

/-- Read `n` bytes from address `a` (00_scope.md R16, `MemRead`). -/
def Memory.readBlock (m : Memory) (a n : Nat) : List Byte := (List.range' a n).map m.read

/-- The host provides the byte at `a` for reading: `a` is a host address (30_encoding.md R60) in a readable region. -/
def hostReadable (s : State) (a : Nat) : Bool :=
  decide (a < 2 ^ s.cfg.hostAddrWidth) &&
    s.hostMap.any fun r => r.readable && decide (r.base ≤ a) && decide (a < r.base + r.size)

/-- The host provides the byte at `a` for writing. -/
def hostWritable (s : State) (a : Nat) : Bool :=
  decide (a < 2 ^ s.cfg.hostAddrWidth) &&
    s.hostMap.any fun r => r.writable && decide (r.base ≤ a) && decide (a < r.base + r.size)

/-- `MemRead(addr, n)`; `none` is "no step": the host has not provided the range (70_reset_and_hazards.md R183). -/
def memRead (s : State) (a n : Nat) : Option (List Byte) :=
  if (List.range' a n).all (hostReadable s) then some (s.mem.readBlock a n) else none

/-- `MemWrite(addr, n, v)` with `n` the length of `v`; `none` is "no step" (70_reset_and_hazards.md R183). -/
def memWrite (s : State) (a : Nat) (v : List Byte) : Option State :=
  if (List.range' a v.length).all (hostWritable s) then some { s with mem := s.mem.writeBlock a v } else none

/-! ### Free values -/

/-- The bytes of draw `d` from index `i` on, `k` of them (log 3). -/
def freeBytes (d i k : Nat) : List Byte := (List.range' i k).map (Config.freeByte d)

/-- Host bytes `[a, a + n)`, each of them, "take any value, since the transport may have written part of them"
(43_data_path.md R128; log 20). -/
def scramble (s : State) (a n : Nat) : State :=
  { s with mem := s.mem.writeBlock a (freeBytes s.draws 0 n), draws := s.draws + 1 }

/-- `FAIL_CODE`: "an unspecified nonzero value, a draw of the model" (60_exceptions.md R168; log 6). -/
def failCode (d : Nat) : Word := if Config.freeStatus d = 0#32 then 1#32 else Config.freeStatus d

/-! ### Results of a sequence, and raising an error -/

/-- How a sequence of the block ends: normally with a value, or with a raised error; in either case the state holds
everything done before (60_exceptions.md R162). -/
inductive Res (α : Type) where
  | ok (a : α) (s : State)
  | raised (e : BlockError) (s : State)
  deriving DecidableEq, Repr

/-- The state a sequence leaves. -/
def Res.state {α : Type} : Res α → State
  | .ok _ s => s
  | .raised _ s => s

/-- Go on with `f` after a normal end; a raised error ends the sequence at once (00_scope.md R17). -/
def Res.bind {α β : Type} (r : Res α) (f : α → State → Res β) : Res β :=
  match r with
  | .ok a s => f a s
  | .raised e s => .raised e s

/-- Forget the value. -/
def Res.done {α : Type} (r : Res α) : Res Unit := r.bind fun _ s => .ok () s

/-- The kind of a raised error (60_exceptions.md R160). -/
def BlockError.kind : BlockError → ErrorKind
  | .transport _ => .transport
  | .timeout => .timeout
  | .alignment _ _ => .alignment
  | .identity _ => .identity
  | .quirk _ => .quirk

/-- The numeric codes of the kinds (60_exceptions.md R160). -/
def ErrorKind.code : ErrorKind → Nat
  | .transport => 1
  | .timeout => 2
  | .alignment => 3
  | .identity => 4
  | .quirk => 5
  | .addressingNegotiation => 6

/-- The diagnostic event a raise appends: none for TransportError (60_exceptions.md R161, R171). -/
def BlockError.events : BlockError → List Diag
  | .transport _ => []
  | .timeout => [⟨.timeout, .poll⟩]
  | .alignment off len => [⟨.alignment, .range off len⟩]
  | .identity id => [⟨.identity, .ident id⟩]
  | .quirk r => [⟨.quirk, .quirk r⟩]

/-- `Diag(k, info)`: append an event (60_exceptions.md R171). -/
def addDiag (d : List Diag) (s : State) : State := { s with diag := s.diag ++ d }

/-- `raise E(info)`: TAKING AN EXCEPTION. The running sequence ends at once, and the diagnostic event of the kind is
appended (60_exceptions.md R161). No state is saved, no mode or mask changes (R166). -/
def raise {α : Type} (e : BlockError) (s : State) : Res α := .raised e (addDiag e.events s)

/-! ### The transport oracle -/

/-- An answer of exactly `n` response bytes (40_transport_registers.md R70): the scripted bytes, and a free value for
each byte the script does not give. -/
def fitBytes (d n : Nat) (rx : List Byte) : List Byte := rx.take n ++ freeBytes d rx.length (n - rx.length)

/-- The transport's answer to the next transaction with `n` response bytes; `none` is FAILURE (00_scope.md R8). Past
the end of the script the answer is a free value. -/
def answer (s : State) (n : Nat) : Option (List Byte) :=
  match s.script with
  | .ok rx :: _ => some (fitBytes s.draws n rx)
  | .fail :: _ => none
  | [] => if Config.freeSuccess s.draws then some (fitBytes s.draws n []) else none

/-- The transport's answer to `init()` (40_transport_registers.md R71). -/
def initAnswer (s : State) : Bool :=
  match s.script with
  | .ok _ :: _ => true
  | .fail :: _ => false
  | [] => Config.freeSuccess s.draws

/-- The state after one answer of the transport. -/
def afterAnswer (s : State) : State := { s with script := s.script.tail, draws := s.draws + 1 }

/-- The state after one transaction: the answer is taken, `useq` advances (10_state.md R22), the trace records it. -/
def afterXfer (tx : List Byte) (n : Nat) (s : State) : State :=
  { afterAnswer s with useq := s.useq + 1, trace := s.trace ++ [.xfer tx n (answer s n)] }

/-- `Xfer(tx, n)`: one transaction (40_transport_registers.md R70). FAILURE raises TransportError. -/
def xfer (tx : List Byte) (n : Nat) (s : State) : Res (List Byte) :=
  match answer s n with
  | some rx => .ok rx (afterXfer tx n s)
  | none => raise (.transport .xfer) (afterXfer tx n s)

/-- `TransportInit()` (40_transport_registers.md R71). -/
def transportInit (s : State) : Res Unit :=
  let s' := { afterAnswer s with trace := s.trace ++ [.transportInit (initAnswer s)] }
  if initAnswer s then .ok () { s' with session.transportUp := true } else raise (.transport .init) s'

/-- `TransportTeardown()`: no result, cannot fail (40_transport_registers.md R72). -/
def transportTeardown (s : State) : State :=
  { s with session.transportUp := false, trace := s.trace ++ [.transportTeardown] }

/-! ### Start and end of a command -/

/-- A command starts: `useq` is 0 (10_state.md R22). -/
def beginCommand (s : State) : State := { s with useq := 0 }

/-- `return v`: the host command ends with status `v` and `hpc` advances by exactly 1 (00_scope.md R16, 10_state.md
R22). -/
def returnStatus (v : Word) (s : State) : State := { s with hpc := s.hpc + 1, statuses := s.statuses ++ [v] }

/-- RETURN FROM AN ABORT with `FAIL_CODE`: control returns to the host with the failure status (60_exceptions.md R166,
R168). -/
def returnFailCode (s : State) : State := { returnStatus (failCode s.draws) s with draws := s.draws + 1 }

/-- The end of INIT and READ: 0, or -1 on an error (60_exceptions.md R168). -/
def endMinusOne (r : Res Unit) : State :=
  match r with
  | .ok _ s => returnStatus statusOk s
  | .raised _ s => returnStatus statusMinusOne s

/-- The end of ERASE and WRITE: 0, or `FAIL_CODE` on an error (60_exceptions.md R168). -/
def endFailCode (r : Res Unit) : State :=
  match r with
  | .ok _ s => returnStatus statusOk s
  | .raised _ s => returnFailCode s

/-- The end of a frame run on its own: its bytes or its error (40_transport_registers.md R87; log 14). -/
def endFrame (r : Res (List Byte)) : State :=
  match r with
  | .ok rx s => { s with result := .ok rx }
  | .raised e s => { s with result := .error e }

/-- The end of a frame sequence that has no response bytes. -/
def endWrite (r : Res Unit) : State := endFrame (r.bind fun _ s => .ok [] s)

end Sys2Proof.Machine
end

