-- ==== Sys2Proof/Machine/Accessors.lean ====
section
/-! DEFINITION. The status-register poller and the register accessors (40_transport_registers.md R74 to R86): the
shared sequences, and the meanings of RDID, RDSR1, RDSR2, RDCR, WREN, the WRSR forms, EN4B and EX4B. -/

namespace Sys2Proof.Machine

/-- Byte 0 of a response (40_transport_registers.md R75: `[0]`). -/
def firstByte (rx : List Byte) : Byte := rx.getD 0 0#8

/-- `ReadSR1()` (40_transport_registers.md R75). -/
def readSr1 (s : State) : Res Byte := (xfer [s.cfg.opRdsr1] 1 s).bind fun rx s => .ok (firstByte rx) s

/-- `ReadSR2()` (40_transport_registers.md R76). -/
def readSr2 (s : State) : Res Byte := (xfer [s.cfg.opRdsr2] 1 s).bind fun rx s => .ok (firstByte rx) s

/-- `ReadCR()` (40_transport_registers.md R78). -/
def readCr (s : State) : Res Byte := (xfer [s.cfg.opRdcr] 1 s).bind fun rx s => .ok (firstByte rx) s

/-- `ReadReg(sel)` (40_transport_registers.md R74). -/
def readReg (sel : RegSel) (s : State) : Res Byte :=
  match sel with
  | .sr1 => readSr1 s
  | .sr2 => readSr2 s
  | .cr => readCr s

/-- `ReadId()` (40_transport_registers.md R84). -/
def readId (s : State) : Res Ident :=
  (xfer [s.cfg.opRdid] 3 s).bind fun rx s => .ok ⟨rx.getD 0 0#8, rx.getD 1 0#8, rx.getD 2 0#8⟩ s

/-- The ready-poll with `k` attempts left (40_transport_registers.md R77). -/
def pollFor : Nat → State → Res Unit
  | 0, s => raise .timeout s
  | k + 1, s => (readSr1 s).bind fun v s => if bitIsSet v s.cfg.sr1WipBit then pollFor k s else .ok () s

/-- `Poll()`: at most `POLL_BUDGET` status reads; the budget is per call (40_transport_registers.md R77). -/
def poll (s : State) : Res Unit := pollFor pollBudget s

/-- `WriteEnable()` (40_transport_registers.md R79). -/
def writeEnable (s : State) : Res Unit := (xfer [s.cfg.opWren] 0 s).done

/-- WREN, then a frame without response, then the ready-poll: the shape of every register write, sector erase and page
program (70_reset_and_hazards.md R185). -/
def writeFrame (tx : List Byte) (s : State) : Res Unit :=
  (writeEnable s).bind fun _ s => (xfer tx 0 s).bind fun _ s => poll s

/-- The paired form: SR1 is read just before the WREN and sent back unmasked (40_transport_registers.md R80, R82). -/
def writePaired (v : Byte) (s : State) : Res Unit :=
  (readSr1 s).bind fun s1 s => writeFrame [s.cfg.opWrsr, s1, v] s

/-- `WriteReg(sel, v)` (40_transport_registers.md R80). -/
def writeReg (sel : RegSel) (v : Byte) (s : State) : Res Unit :=
  match sel with
  | .sr1 => writeFrame [s.cfg.opWrsr, v] s
  | .sr2 => writePaired v s
  | .cr => writePaired v s

/-! ### Meanings -/

/-- RDID (40_transport_registers.md R84). -/
def execRdid (s : State) : Host.Outcome State Fault Refusal :=
  .next (endFrame (xfer [s.cfg.opRdid] 3 (beginCommand s)))

/-- RDSR1 (40_transport_registers.md R75). -/
def execRdsr1 (s : State) : Host.Outcome State Fault Refusal :=
  .next (endFrame (xfer [s.cfg.opRdsr1] 1 (beginCommand s)))

/-- RDSR2 (40_transport_registers.md R76). -/
def execRdsr2 (s : State) : Host.Outcome State Fault Refusal :=
  .next (endFrame (xfer [s.cfg.opRdsr2] 1 (beginCommand s)))

/-- RDCR (40_transport_registers.md R78). -/
def execRdcr (s : State) : Host.Outcome State Fault Refusal :=
  .next (endFrame (xfer [s.cfg.opRdcr] 1 (beginCommand s)))

/-- WREN (40_transport_registers.md R79): no ready-poll follows. -/
def execWren (s : State) : Host.Outcome State Fault Refusal :=
  .next (endWrite (writeEnable (beginCommand s)))

/-- WRSR.SR1 (40_transport_registers.md R81). -/
def execWrsrSr1 (v : Byte) (s : State) : Host.Outcome State Fault Refusal :=
  .next (endWrite (writeReg .sr1 v (beginCommand s)))

/-- WRSR.SR2 (40_transport_registers.md R82). -/
def execWrsrSr2 (v : Byte) (s : State) : Host.Outcome State Fault Refusal :=
  .next (endWrite (writeReg .sr2 v (beginCommand s)))

/-- WRSR.CR (40_transport_registers.md R83): "byte-identical to the SR2 form". -/
def execWrsrCr (v : Byte) (s : State) : Host.Outcome State Fault Refusal :=
  .next (endWrite (writeReg .cr v (beginCommand s)))

/-- EN4B (40_transport_registers.md R85): no WREN precedes it, no ready-poll follows. -/
def execEn4b (s : State) : Host.Outcome State Fault Refusal :=
  .next (endFrame (xfer [opEn4b] 0 (beginCommand s)))

/-- EX4B (40_transport_registers.md R86). -/
def execEx4b (s : State) : Host.Outcome State Fault Refusal :=
  .next (endFrame (xfer [opEx4b] 0 (beginCommand s)))

end Sys2Proof.Machine
end

