-- ==== Sys2Proof/Machine/Quirk.lean ====
section
/-! DEFINITION. The vendor-quirk multiplexer and the unlock engine (41_quirk_unlock.md), and the meanings of GBULK and
UNLOCK. -/

namespace Sys2Proof.Machine

/-- `SetQe(sel, k)`: verify-after-write; the write only ever sets the bit (41_quirk_unlock.md R91, 90_conflicts.md
C5). -/
def setQe (sel : RegSel) (k : Fin 8) (s : State) : Res Unit :=
  (readReg sel s).bind fun v s =>
    if bitIsSet v k then .ok () s
    else
      (writeReg sel (setBit v k) s).bind fun _ s =>
        (readReg sel s).bind fun v2 s =>
          if bitIsSet v2 k then .ok () s else raise (.quirk .notLatched) s

/-- `QuirkMacronix()` (41_quirk_unlock.md R92). -/
def quirkMacronix (id : Ident) (s : State) : Res Unit :=
  if id ∈ s.cfg.mxVolatileQe then .ok () s else setQe .sr1 s.cfg.sr1QeBit s

/-- `QuirkGigaDevice()` (41_quirk_unlock.md R93). -/
def quirkGigaDevice (s : State) : Res Unit := setQe .sr2 s.cfg.sr2QeBit s

/-- `QuirkSpansion()` (41_quirk_unlock.md R94). -/
def quirkSpansion (s : State) : Res Unit := setQe .cr s.cfg.crQeBit s

/-- The four strategies, a closed set (41_quirk_unlock.md R90, R97). -/
inductive Strategy where
  | macronix
  | gigaDevice
  | spansion
  | unsupported
  deriving DecidableEq, Repr

/-- The strategy of a manufacturer byte; the first matching set wins (41_quirk_unlock.md R90). -/
def strategyOf (c : Config) (m : Byte) : Strategy :=
  if m ∈ c.setQmx then .macronix
  else if m ∈ c.setQgd then .gigaDevice
  else if m ∈ c.setQsp then .spansion
  else .unsupported

/-- `QuadEnable()`, the multiplexer (41_quirk_unlock.md R90, R95), over the identity `S.id`. -/
def quadEnable (id : Ident) (s : State) : Res Unit :=
  match strategyOf s.cfg id.manufacturer with
  | .macronix => quirkMacronix id s
  | .gigaDevice => quirkGigaDevice s
  | .spansion => quirkSpansion s
  | .unsupported => raise (.quirk .noQuirk) s

/-- The GigaDevice step: clear CMP "if set" (41_quirk_unlock.md R102). -/
def clearCmp (s : State) : Res Unit :=
  (readSr2 s).bind fun s2 s =>
    if bitIsSet s2 s.cfg.sr2CmpBit then writeReg .sr2 (clearBit s2 s.cfg.sr2CmpBit) s else .ok () s

/-- The SR1 write: Macronix keeps only its QE bit, the others write 0x00 (41_quirk_unlock.md R102). -/
def clearSr1 (m : Byte) (s : State) : Res Unit :=
  if m ∈ s.cfg.setMx then (readSr1 s).bind fun s1 s => writeReg .sr1 (keepBit s1 s.cfg.sr1QeBit) s
  else writeReg .sr1 0x00#8 s

/-- The status-register path (41_quirk_unlock.md R102, R103). -/
def statusPath (m : Byte) (s : State) : Res Unit :=
  if m ∈ s.cfg.setLocked then
    (if m ∈ s.cfg.setGd then clearCmp s else .ok () s).bind fun _ s => clearSr1 m s
  else .ok () s

/-- The global block unlock: WREN then the frame, no ready-poll (41_quirk_unlock.md R104). -/
def globalUnlock (s : State) : Res Unit :=
  (writeEnable s).bind fun _ s => (xfer [s.cfg.opGbulk] 0 s).done

/-- The extended path, independent of the ships-locked set (41_quirk_unlock.md R104, 90_conflicts.md C8). -/
def extendedPath (m : Byte) (s : State) : Res Unit :=
  if m ∈ s.cfg.setGbulk then (if s.cfg.gbulkEnabled then globalUnlock s else .ok () s) else .ok () s

/-- The body of the unlock engine (41_quirk_unlock.md R100, inside its `try`). -/
def unlockBody (m : Byte) (s : State) : Res Unit :=
  (statusPath m s).bind fun _ s => extendedPath m s

/-- One run of the body: the flag is set on entry (41_quirk_unlock.md R101) and every error is caught (R105). -/
def unlockRun (m : Byte) (s : State) : State := (unlockBody m { s with session.unlocked := true }).state

/-- `UnlockEngine()` (41_quirk_unlock.md R100); `none` is the read of an unwritten `S.id`, which cannot run
(10_state.md R27). -/
def unlockEngine (s : State) : Option State :=
  if s.session.unlocked then some s else s.session.id.map fun id => unlockRun id.manufacturer s

/-! ### Meanings -/

/-- GBULK (41_quirk_unlock.md R104). -/
def execGbulk (s : State) : Host.Outcome State Fault Refusal :=
  .next (endWrite (globalUnlock (beginCommand s)))

/-- UNLOCK (41_quirk_unlock.md R106): the status is always 0. -/
def execUnlock (s : State) : Host.Outcome State Fault Refusal :=
  if s.session.initialized then
    match unlockEngine (beginCommand s) with
    | some t => .next (returnStatus statusOk t)
    | none => .fault .identityUnwritten
  else .fault (.hostProtocol "UNLOCK")

end Sys2Proof.Machine
end

