-- ==== Sys2Proof/Machine/DataPath.lean ====
section
/-! DEFINITION. The data path (43_data_path.md): READ, ERASE and WRITE, sector erase and page program. A sequence that
reads or writes host memory answers `none` where the model has no step (70_reset_and_hazards.md R183). -/

namespace Sys2Proof.Machine

/-- The chunks of READ, each a read frame whose bytes go straight to host memory (43_data_path.md R128). A FAILURE
leaves the bytes of its chunk free (R128). -/
def readChunks (off : Word) (buf : Nat) : List (Nat × Nat) → State → Option (Res Unit)
  | [], s => some (.ok () s)
  | (pos, n) :: cs, s =>
    match xfer (readFrame s (off + BitVec.ofNat 32 pos)) n s with
    | .raised e s' => some (.raised e (scramble s' (buf + pos) n))
    | .ok rx s' => (memWrite s' (buf + pos) rx).bind fun s'' => readChunks off buf cs s''

/-- Sector erase at flash offset `a`: WREN, SE with three address bytes, ready-poll (43_data_path.md R130, R131). -/
def eraseSector (a : Word) (s : State) : Res Unit := writeFrame (s.cfg.opSe :: addr3 a) s

/-- The erase loop (43_data_path.md R131, R132). -/
def eraseSectors : List Word → State → Res Unit
  | [], s => .ok () s
  | a :: as, s => (eraseSector a s).bind fun _ s => eraseSectors as s

/-- The PP frame at flash offset `a` (43_data_path.md R136). -/
def programFrame (c : Config) (a : Word) (p : List Byte) : List Byte := c.opPp :: (addr3 a ++ p)

/-- The chunks of `Program`: WREN, PP with the host bytes read as its frame is built, ready-poll
(43_data_path.md R138). -/
def programChunks (off : Word) (buf : Nat) : List (Nat × Nat) → State → Option (Res Unit)
  | [], s => some (.ok () s)
  | (pos, n) :: cs, s =>
    match writeEnable s with
    | .raised e s' => some (.raised e s')
    | .ok _ s' =>
      (memRead s' (buf + pos) n).bind fun p =>
        match (xfer (programFrame s'.cfg (off + BitVec.ofNat 32 pos) p) 0 s').bind fun _ s => poll s with
        | .raised e s'' => some (.raised e s'')
        | .ok _ s'' => programChunks off buf cs s''

/-- `Program(off, len, buf)`: any offset and any length (43_data_path.md R138, 90_conflicts.md C11). -/
def program (off : Word) (len buf : Nat) (s : State) : Option (Res Unit) :=
  programChunks off buf (chunks progChunk len) s

/-- ERASE requires `off` and `len` to be multiples of 4096 (20_memory.md R50). -/
def eraseAligned (off len : Word) : Bool :=
  decide (off.toNat % eraseUnit = 0) && decide (len.toNat % eraseUnit = 0)

/-! ### Meanings -/

/-- SE (43_data_path.md R130). -/
def execSe (a : Word) (s : State) : Host.Outcome State Fault Refusal :=
  .next (endFrame (xfer (s.cfg.opSe :: addr3 a) 0 (beginCommand s)))

/-- PP (43_data_path.md R136). -/
def execPp (a : Word) (p : List Byte) (s : State) : Host.Outcome State Fault Refusal :=
  .next (endFrame (xfer (programFrame s.cfg a p) 0 (beginCommand s)))

/-- READ, the host command (43_data_path.md R128). -/
def execRead (startSector sectorCount buf : Word) (s : State) : Host.Outcome State Fault Refusal :=
  if s.session.initialized then
    match readChunks (byteOffset startSector) (hostAddr s.cfg buf)
        (chunks readChunk (byteLength sectorCount).toNat) (beginCommand s) with
    | some r => .next (endMinusOne r)
    | none => .fault .hostMemory
  else .fault (.hostProtocol "READ")

/-- ERASE (43_data_path.md R131): the alignment check comes before the unlock engine. -/
def execErase (startSector sectorCount : Word) (s : State) : Host.Outcome State Fault Refusal :=
  if s.session.initialized then
    if eraseAligned (byteOffset startSector) (byteLength sectorCount) then
      match unlockEngine (beginCommand s) with
      | some t => .next (endFailCode (eraseSectors (eraseOffsets (byteOffset startSector) (byteLength sectorCount).toNat) t))
      | none => .fault .identityUnwritten
    else .next (endFailCode (raise (.alignment (byteOffset startSector) (byteLength sectorCount)) (beginCommand s)))
  else .fault (.hostProtocol "ERASE")

/-- WRITE (43_data_path.md R137). -/
def execWrite (startSector sectorCount buf : Word) (s : State) : Host.Outcome State Fault Refusal :=
  if s.session.initialized then
    match unlockEngine (beginCommand s) with
    | some t =>
      match program (byteOffset startSector) (byteLength sectorCount).toNat (hostAddr s.cfg buf) t with
      | some r => .next (endFailCode r)
      | none => .fault .hostMemory
    | none => .fault .identityUnwritten
  else .fault (.hostProtocol "WRITE")

end Sys2Proof.Machine
end

