-- ==== Sys2Proof/Machine/Init.lean ====
section
/-! DEFINITION. The initialisation orchestrator, the 4-byte negotiation and EXIT (44_init_exit.md). -/

namespace Sys2Proof.Machine

/-- The mode `Negotiate4B` asks for; INIT passes only `enter` (44_init_exit.md R149). -/
inductive Mode4B where
  | enter
  | leave
  deriving DecidableEq, Repr

/-- The opcode of a mode (44_init_exit.md R149). -/
def mode4BOpcode : Mode4B → Byte
  | .enter => opEn4b
  | .leave => opEx4b

/-- The transactions of the negotiation: the mode frame, then the configuration register (44_init_exit.md R149, inside
its `try`). -/
def negotiateFrames (mode : Mode4B) (s : State) : Res Byte :=
  (xfer [mode4BOpcode mode] 0 s).bind fun _ s => readCr s

/-- `Negotiate4B(mode)`: ok exactly when CR bit 5 reflects the mode; no error propagates, and each failure appends one
diagnostic (44_init_exit.md R149). -/
def negotiate4B (mode : Mode4B) (s : State) : Bool × State :=
  match negotiateFrames mode s with
  | .ok cr s =>
    if bitIsSet cr cr4ByteBit = decide (mode = .enter) then (true, s)
    else (false, addDiag [⟨.addressingNegotiation, .cr cr⟩] s)
  | .raised e s => (false, addDiag [⟨.addressingNegotiation, .caught e⟩] s)

/-- Step 4: the JEDEC ID probe (44_init_exit.md R147). A zero manufacturer byte raises IdentityError and leaves `S.id`
as it was. -/
def probe (s : State) : Res Ident :=
  (readId s).bind fun id s =>
    if id.manufacturer = 0x00#8 then raise (.identity id) s else .ok id { s with session.id := some id }

/-- Step 5: the candidate opcode and width (44_init_exit.md R148). -/
def chooseWidth (s : State) : (Byte × AddrWidth) × State :=
  match reqOp s.cfg s.bootCfg with
  | none => ((s.cfg.opRead, .three), s)
  | some rq =>
    match s.bootCfg with
    | none => ((down s.cfg rq, .three), s)
    | some b =>
      if b.flashSize > sizeThreshold then
        match negotiate4B .enter s with
        | (true, t) => ((up s.cfg rq, .four), t)
        | (false, t) => ((down s.cfg rq, .three), t)
      else ((down s.cfg rq, .three), s)

/-- Step 6: the identity overrides, on all three bytes (44_init_exit.md R150). -/
def overrideOp (c : Config) (id : Ident) (op : Byte) : Byte :=
  if id = quirkFastId then c.opFast else if id = quirkQuadId then c.opQuad else op

/-- Step 7: quad enable when the opcode is quad-capable (44_init_exit.md R151). -/
def enableQuad (id : Ident) (op : Byte) (s : State) : Res Unit :=
  if quadCapable s.cfg op then quadEnable id s else .ok () s

/-- Step 8: the three fields are written together (44_init_exit.md R152). -/
def commit (op : Byte) (w : AddrWidth) (s : State) : State :=
  { s with session.readOp := op, session.addrWidth := w, session.initialized := true }

/-- Steps 5 to 8, after the probe gave `id`. -/
def configure (id : Ident) (s : State) : Res Unit :=
  let choice := chooseWidth s
  let op := overrideOp s.cfg id choice.1.1
  (enableQuad id op choice.2).bind fun _ s => .ok () (commit op choice.1.2 s)

/-- Steps 3 to 8 of INIT (44_init_exit.md R145). -/
def initSequence (s : State) : Res Unit :=
  (transportInit s).bind fun _ s => (probe s).bind fun id s => configure id s

/-! ### Meanings -/

/-- INIT (44_init_exit.md R145): when already initialised it returns 0 with no transaction and no state change. -/
def execInit (_stage : Word) (s : State) : Host.Outcome State Fault Refusal :=
  .next (if s.session.initialized then returnStatus statusOk (beginCommand s)
    else endMinusOne (initSequence (beginCommand s)))

/-- EXIT (44_init_exit.md R156): accepted in any state. -/
def execExit (_stage : Word) (s : State) : Host.Outcome State Fault Refusal :=
  .next (returnStatus statusOk { transportTeardown (beginCommand s) with session.initialized := false })

end Sys2Proof.Machine
end

