-- ==== Sys2Proof/Machine/ReadOps.lean ====
section
/-! DEFINITION. The meanings of the seven read opcodes (42_frame_composer.md R120 to R126): one read frame each. The
address width comes from `S.addrWidth` alone, never from the opcode (R111). -/

namespace Sys2Proof.Machine

/-- READ.SLOW (42_frame_composer.md R120): format F_R3, three address bytes and no dummy byte. -/
def execReadSlow (o : Word) (n : Nat) (s : State) : Host.Outcome State Fault Refusal :=
  .next (endFrame (xfer (s.cfg.opRead :: addr3 o) n (beginCommand s)))

/-- FAST (42_frame_composer.md R121). -/
def execFast (o : Word) (n : Nat) (s : State) : Host.Outcome State Fault Refusal :=
  .next (endFrame (xfer (composeRead s.cfg s.cfg.opFast s.session.addrWidth o) n (beginCommand s)))

/-- FAST4 (42_frame_composer.md R122). -/
def execFast4 (o : Word) (n : Nat) (s : State) : Host.Outcome State Fault Refusal :=
  .next (endFrame (xfer (composeRead s.cfg s.cfg.opFast4 s.session.addrWidth o) n (beginCommand s)))

/-- DUAL (42_frame_composer.md R123). -/
def execDual (o : Word) (n : Nat) (s : State) : Host.Outcome State Fault Refusal :=
  .next (endFrame (xfer (composeRead s.cfg s.cfg.opDual s.session.addrWidth o) n (beginCommand s)))

/-- DUAL4 (42_frame_composer.md R124). -/
def execDual4 (o : Word) (n : Nat) (s : State) : Host.Outcome State Fault Refusal :=
  .next (endFrame (xfer (composeRead s.cfg s.cfg.opDual4 s.session.addrWidth o) n (beginCommand s)))

/-- QUAD (42_frame_composer.md R125). -/
def execQuad (o : Word) (n : Nat) (s : State) : Host.Outcome State Fault Refusal :=
  .next (endFrame (xfer (composeRead s.cfg s.cfg.opQuad s.session.addrWidth o) n (beginCommand s)))

/-- QUAD4 (42_frame_composer.md R126). -/
def execQuad4 (o : Word) (n : Nat) (s : State) : Host.Outcome State Fault Refusal :=
  .next (endFrame (xfer (composeRead s.cfg s.cfg.opQuad4 s.session.addrWidth o) n (beginCommand s)))

end Sys2Proof.Machine
end

