-- ==== Sys2Proof/Machine/Dispatch.lean ====
section
/-! DEFINITION. The dispatch: one arm for each instruction. -/

namespace Sys2Proof.Machine

def exec (i : Instr) (s : State) : Host.Outcome State Fault Refusal :=
  match i with
  | .init stage => Sys2Proof.Machine.execInit stage s
  | .exit stage => Sys2Proof.Machine.execExit stage s
  | .unlock => Sys2Proof.Machine.execUnlock s
  | .read startSector sectorCount buf => Sys2Proof.Machine.execRead startSector sectorCount buf s
  | .erase startSector sectorCount => Sys2Proof.Machine.execErase startSector sectorCount s
  | .write startSector sectorCount buf => Sys2Proof.Machine.execWrite startSector sectorCount buf s
  | .rdid => Sys2Proof.Machine.execRdid s
  | .rdsr1 => Sys2Proof.Machine.execRdsr1 s
  | .rdsr2 => Sys2Proof.Machine.execRdsr2 s
  | .rdcr => Sys2Proof.Machine.execRdcr s
  | .wren => Sys2Proof.Machine.execWren s
  | .wrsrSr1 v => Sys2Proof.Machine.execWrsrSr1 v s
  | .wrsrSr2 v => Sys2Proof.Machine.execWrsrSr2 v s
  | .wrsrCr v => Sys2Proof.Machine.execWrsrCr v s
  | .en4b => Sys2Proof.Machine.execEn4b s
  | .ex4b => Sys2Proof.Machine.execEx4b s
  | .gbulk => Sys2Proof.Machine.execGbulk s
  | .se a => Sys2Proof.Machine.execSe a s
  | .pp a p => Sys2Proof.Machine.execPp a p s
  | .readSlow o n => Sys2Proof.Machine.execReadSlow o n s
  | .fast o n => Sys2Proof.Machine.execFast o n s
  | .fast4 o n => Sys2Proof.Machine.execFast4 o n s
  | .dual o n => Sys2Proof.Machine.execDual o n s
  | .dual4 o n => Sys2Proof.Machine.execDual4 o n s
  | .quad o n => Sys2Proof.Machine.execQuad o n s
  | .quad4 o n => Sys2Proof.Machine.execQuad4 o n s

end Sys2Proof.Machine
end

