-- ==== Sys2Proof/WellFormed.lean ====
section
/-! DEFINITION. Which instructions are well formed at an address width: the operand ranges of the rules, and the
operand values that the address bytes of the encoding carry whole. -/

namespace Sys2Proof

/-- The flash offset fits three address bytes. A meaning takes any 32-bit offset and truncates it
(42_frame_composer.md R114); an encoding carries only `o[23:0]`. -/
def fitsThree (o : Word) : Bool := decide (o.toNat < Machine.addr3Reach)

/-- The offset of a read frame with a dummy byte fits the address bytes of width `w` (42_frame_composer.md R110). -/
def fitsWidth (w : AddrWidth) (o : Word) : Bool :=
  match w with
  | .three => fitsThree o
  | .four => true

/-- A read frame's response count: 1 to `READ_CHUNK` (42_frame_composer.md, section 3). -/
def readCountOk (n : Nat) : Bool := decide (1 ≤ n) && decide (n ≤ Machine.readChunk)

/-- A page program's payload: 1 to `PROG_CHUNK` bytes (43_data_path.md R136). -/
def payloadOk (p : List Byte) : Bool := decide (1 ≤ p.length) && decide (p.length ≤ Machine.progChunk)

/-- Well formed at address width `w` (of `S.addrWidth`, which chooses a read frame's format, 42_frame_composer.md
R111). -/
def wellFormed (w : AddrWidth) : Instr → Bool
  | .init _ => true
  | .exit _ => true
  | .unlock => true
  | .read _ _ _ => true
  | .erase _ _ => true
  | .write _ _ _ => true
  | .rdid => true
  | .rdsr1 => true
  | .rdsr2 => true
  | .rdcr => true
  | .wren => true
  | .wrsrSr1 _ => true
  | .wrsrSr2 _ => true
  | .wrsrCr _ => true
  | .en4b => true
  | .ex4b => true
  | .gbulk => true
  | .se a => fitsThree a
  | .pp a p => fitsThree a && payloadOk p
  | .readSlow o n => fitsThree o && readCountOk n
  | .fast o n => fitsWidth w o && readCountOk n
  | .fast4 o n => fitsWidth w o && readCountOk n
  | .dual o n => fitsWidth w o && readCountOk n
  | .dual4 o n => fitsWidth w o && readCountOk n
  | .quad o n => fitsWidth w o && readCountOk n
  | .quad4 o n => fitsWidth w o && readCountOk n

end Sys2Proof
end

