-- ==== Sys2Proof/Decode.lean ====
section
/-! DEFINITION. The decoder of host descriptors (30_encoding.md R60 to R62) and of frames (R63 to R65), total and
rejecting by name, and after it the encoder written from the same tables. -/

namespace Sys2Proof

/-- Decode a host descriptor (30_encoding.md R60, R61). A `cmd` outside 0x01 to 0x06 or a set bit of w0[31:8] spells
no command (R62). A field a command ignores may hold any value. -/
def decodeDescriptor (d : Descriptor) : Except DecodeError Instr :=
  if d.w0.extractLsb' 8 24 ≠ 0#24 then .error .reservedBits
  else if d.w0.extractLsb' 0 8 = 0x01#8 then .ok (.init d.w1)
  else if d.w0.extractLsb' 0 8 = 0x02#8 then .ok (.exit d.w1)
  else if d.w0.extractLsb' 0 8 = 0x03#8 then .ok .unlock
  else if d.w0.extractLsb' 0 8 = 0x04#8 then .ok (.read d.w1 d.w2 d.w3)
  else if d.w0.extractLsb' 0 8 = 0x05#8 then .ok (.erase d.w1 d.w2)
  else if d.w0.extractLsb' 0 8 = 0x06#8 then .ok (.write d.w1 d.w2 d.w3)
  else .error .unknownCommand

/-- A frame of one opcode byte with response count `n` (formats F_OP, F_RR, F_ID of 30_encoding.md R63). -/
def decodeBare (i : Instr) (n : Nat) (body : List Byte) (rx : Nat) : Except DecodeError Instr :=
  match body with
  | [] => if rx = n then .ok i else .error .badCount
  | _ :: _ => .error .badLength

/-- The `OP_WRSR` forms, told apart by the register being written (30_encoding.md R63 formats F_W1, F_W2, and R64).
The byte V1 of a paired form is the SR1 value that the sequence reads just before (40_transport_registers.md R80): it
is no operand. -/
def decodeWrsr (sel : RegSel) (body : List Byte) (rx : Nat) : Except DecodeError Instr :=
  if rx ≠ 0 then .error .badCount
  else
    match sel, body with
    | .sr1, [v] => .ok (.wrsrSr1 v)
    | .sr2, [_, v] => .ok (.wrsrSr2 v)
    | .cr, [_, v] => .ok (.wrsrCr v)
    | _, _ => .error .badLength

/-- The offset of three address bytes, most significant first (20_memory.md R56). -/
def offsetOf3 (a2 a1 a0 : Byte) : Word := 0#8 ++ a2 ++ a1 ++ a0

/-- The offset of four address bytes, most significant first (20_memory.md R56). -/
def offsetOf4 (a3 a2 a1 a0 : Byte) : Word := a3 ++ a2 ++ a1 ++ a0

/-- SE, format F_A3 (30_encoding.md R63). -/
def decodeSe (body : List Byte) (rx : Nat) : Except DecodeError Instr :=
  match body with
  | [a2, a1, a0] => if rx = 0 then .ok (.se (offsetOf3 a2 a1 a0)) else .error .badCount
  | _ => .error .badLength

/-- PP, format F_PP with 1 to 128 payload bytes (30_encoding.md R63). -/
def decodePp (body : List Byte) (rx : Nat) : Except DecodeError Instr :=
  match body with
  | a2 :: a1 :: a0 :: p =>
    if payloadOk p then (if rx = 0 then .ok (.pp (offsetOf3 a2 a1 a0) p) else .error .badCount)
    else .error .badLength
  | _ => .error .badLength

/-- READ.SLOW, format F_R3 (30_encoding.md R63). -/
def decodeSlow (body : List Byte) (rx : Nat) : Except DecodeError Instr :=
  match body with
  | [a2, a1, a0] => if readCountOk rx then .ok (.readSlow (offsetOf3 a2 a1 a0) rx) else .error .badCount
  | _ => .error .badLength

/-- The other read opcodes, format F_R3D or F_R4D by the address width (30_encoding.md R63, R65). -/
def decodeRead (c : Config) (w : AddrWidth) (mk : Word → Nat → Instr) (body : List Byte) (rx : Nat) :
    Except DecodeError Instr :=
  match w, body with
  | .three, [a2, a1, a0, d] =>
    if d = c.dummyByte then (if readCountOk rx then .ok (mk (offsetOf3 a2 a1 a0) rx) else .error .badCount)
    else .error .badDummy
  | .four, [a3, a2, a1, a0, d] =>
    if d = c.dummyByte then (if readCountOk rx then .ok (mk (offsetOf4 a3 a2 a1 a0) rx) else .error .badCount)
    else .error .badDummy
  | _, _ => .error .badLength

/-- Decode a frame by its opcode byte (30_encoding.md R65), with the address width that chooses a read frame's
format (42_frame_composer.md R111). -/
def decodeFrame (c : Config) (w : AddrWidth) (r : PortRequest) : Except DecodeError Instr :=
  match r.tx with
  | [] => .error .emptyFrame
  | op :: body =>
    if op = c.opRdid then decodeBare .rdid 3 body r.rx
    else if op = c.opRdsr1 then decodeBare .rdsr1 1 body r.rx
    else if op = c.opRdsr2 then decodeBare .rdsr2 1 body r.rx
    else if op = c.opRdcr then decodeBare .rdcr 1 body r.rx
    else if op = c.opWren then decodeBare .wren 0 body r.rx
    else if op = c.opWrsr then decodeWrsr r.sel body r.rx
    else if op = Machine.opEn4b then decodeBare .en4b 0 body r.rx
    else if op = Machine.opEx4b then decodeBare .ex4b 0 body r.rx
    else if op = c.opGbulk then decodeBare .gbulk 0 body r.rx
    else if op = c.opSe then decodeSe body r.rx
    else if op = c.opPp then decodePp body r.rx
    else if op = c.opRead then decodeSlow body r.rx
    else if op = c.opFast then decodeRead c w .fast body r.rx
    else if op = c.opFast4 then decodeRead c w .fast4 body r.rx
    else if op = c.opDual then decodeRead c w .dual body r.rx
    else if op = c.opDual4 then decodeRead c w .dual4 body r.rx
    else if op = c.opQuad then decodeRead c w .quad body r.rx
    else if op = c.opQuad4 then decodeRead c w .quad4 body r.rx
    else .error .unknownOpcode

/-- The decoder of both encodings. -/
def decode (c : Config) (w : AddrWidth) : Code → Except DecodeError Instr
  | .desc d => decodeDescriptor d
  | .frame r => decodeFrame c w r

/-- A host descriptor with the fields the command ignores at 0 (30_encoding.md R60). -/
def descriptorOf (cmd a0 a1 buf : Word) : Code := .desc ⟨cmd, a0, a1, buf⟩

/-- A frame; the register selector is SR1 where the opcode does not need one. -/
def frameOf (tx : List Byte) (rx : Nat) : Code := .frame ⟨tx, rx, .sr1⟩

/-- The encoder (30_encoding.md R60, R61, R63, R65). The byte V1 of a paired `OP_WRSR` form, which the sequence fills
with the SR1 value it reads, is 0x00 here. -/
def encode (c : Config) (w : AddrWidth) : Instr → Code
  | .init stage => descriptorOf 0x01#32 stage 0#32 0#32
  | .exit stage => descriptorOf 0x02#32 stage 0#32 0#32
  | .unlock => descriptorOf 0x03#32 0#32 0#32 0#32
  | .read a0 a1 buf => descriptorOf 0x04#32 a0 a1 buf
  | .erase a0 a1 => descriptorOf 0x05#32 a0 a1 0#32
  | .write a0 a1 buf => descriptorOf 0x06#32 a0 a1 buf
  | .rdid => frameOf [c.opRdid] 3
  | .rdsr1 => frameOf [c.opRdsr1] 1
  | .rdsr2 => frameOf [c.opRdsr2] 1
  | .rdcr => frameOf [c.opRdcr] 1
  | .wren => frameOf [c.opWren] 0
  | .wrsrSr1 v => .frame ⟨[c.opWrsr, v], 0, .sr1⟩
  | .wrsrSr2 v => .frame ⟨[c.opWrsr, 0#8, v], 0, .sr2⟩
  | .wrsrCr v => .frame ⟨[c.opWrsr, 0#8, v], 0, .cr⟩
  | .en4b => frameOf [Machine.opEn4b] 0
  | .ex4b => frameOf [Machine.opEx4b] 0
  | .gbulk => frameOf [c.opGbulk] 0
  | .se a => frameOf (c.opSe :: Machine.addr3 a) 0
  | .pp a p => frameOf (c.opPp :: (Machine.addr3 a ++ p)) 0
  | .readSlow o n => frameOf (c.opRead :: Machine.addr3 o) n
  | .fast o n => frameOf (c.opFast :: (Machine.addrBytes o w ++ [c.dummyByte])) n
  | .fast4 o n => frameOf (c.opFast4 :: (Machine.addrBytes o w ++ [c.dummyByte])) n
  | .dual o n => frameOf (c.opDual :: (Machine.addrBytes o w ++ [c.dummyByte])) n
  | .dual4 o n => frameOf (c.opDual4 :: (Machine.addrBytes o w ++ [c.dummyByte])) n
  | .quad o n => frameOf (c.opQuad :: (Machine.addrBytes o w ++ [c.dummyByte])) n
  | .quad4 o n => frameOf (c.opQuad4 :: (Machine.addrBytes o w ++ [c.dummyByte])) n

/-- The first `k` bytes of a number, byte 0 its least significant eight bits: how spec/opcode_table.json numbers the
bits of a frame, whose first byte is byte 0. -/
def tableBytes (w : Nat) : Nat → List Byte
  | 0 => []
  | k + 1 => BitVec.ofNat 8 w :: tableBytes (w / 256) k

/-- The tx length of the shortest frame of an opcode (30_encoding.md R63, R64). -/
def frameLength (c : Config) (w : AddrWidth) (op : Byte) : Nat :=
  if op = c.opWrsr then 2
  else if op = c.opSe then 4
  else if op = c.opPp then 5
  else if op = c.opRead then 4
  else if op ∈ Machine.recognisedReadOps c then (match w with | .three => 5 | .four => 6)
  else 1

/-- The response count of an opcode's format (30_encoding.md R63); for a read frame, whose count is no part of its
bytes, the least count, 1 (log 16). -/
def frameCount (c : Config) (op : Byte) : Nat :=
  if op = c.opRdid then 3
  else if op = c.opRdsr1 ∨ op = c.opRdsr2 ∨ op = c.opRdcr then 1
  else if op = c.opRead ∨ op ∈ Machine.recognisedReadOps c then 1
  else 0

/-- The encoded form of an instruction given as spec/opcode_table.json numbers its bits: a row of 32 bits or more is
a descriptor, whose bits 31..0 are w0, 63..32 w1, 95..64 w2, 127..96 w3; a shorter row is a frame, whose byte 0 is
bits 7..0, with every byte above the row's bits 0x00 up to the shortest frame of its opcode. The selector of
`OP_WRSR` is SR1: the three forms share one byte (log 15). -/
def tableCode (c : Config) (aw : AddrWidth) (nbits w : Nat) : Code :=
  if 32 ≤ nbits then
    .desc ⟨BitVec.ofNat 32 w, BitVec.ofNat 32 (w / 2 ^ 32), BitVec.ofNat 32 (w / 2 ^ 64), BitVec.ofNat 32 (w / 2 ^ 96)⟩
  else
    let op := BitVec.ofNat 8 w
    .frame ⟨tableBytes (w % 2 ^ nbits) (max (nbits / 8) (frameLength c aw op)), frameCount c op, .sr1⟩

/-- The instruction the decoder reads from a word of spec/opcode_table.json, under the default parameters and the
address width of reset. -/
def decodeTableWord (nbits w : Nat) : Option Instr :=
  (decode Machine.defaultConfig .three (tableCode Machine.defaultConfig .three nbits w)).toOption

end Sys2Proof
end

