-- ==== Sys2Proof/Machine/Fetch.lean ====
section
/-! DEFINITION. Where the next instruction comes from: the port request where there is one (log 13), else the host
command at index `hpc` (10_state.md R22). -/

namespace Sys2Proof.Machine

/-- What the machine runs next. -/
inductive Fetched where
  /-- The host has issued no further command: the block is idle (70_reset_and_hazards.md R180). -/
  | idle
  /-- The host command at `hpc`. -/
  | command (d : Descriptor)
  /-- The frame of the port request. -/
  | port (r : PortRequest)
  deriving DecidableEq, Repr

/-- The next thing to run. -/
def fetch (s : State) : Fetched :=
  match s.request with
  | some r => .port r
  | none =>
    match s.program[s.hpc]? with
    | some d => .command d
    | none => .idle

/-- The port request is taken. -/
def clearRequest (s : State) : State := { s with request := none }

/-- The host command stream with `d` at index `k`: a stream that ends before `k` is filled with descriptors that spell
no command. -/
def placeDescriptor (d : Descriptor) : Nat → List Descriptor → List Descriptor
  | 0, ds => d :: ds.tail
  | k + 1, ds => ds.headD ⟨0, 0, 0, 0⟩ :: placeDescriptor d k ds.tail

/-- Place a word of spec/opcode_table.json where the next step fetches: a descriptor at index `hpc` of the command
stream with no port request before it, a frame as the port request. -/
def placeTableWord (s : State) (nbits w : Nat) : State :=
  match tableCode s.cfg s.session.addrWidth nbits w with
  | .desc d => { s with program := placeDescriptor d s.hpc s.program, request := none }
  | .frame r => { s with request := some r }

end Sys2Proof.Machine
end

