-- ==== Sys2Proof/Machine/Step.lean ====
section
/-! DEFINITION. One step: fetch, decode, execute. A host command runs to its end in one step (00_scope.md R9, R17;
log 1). -/

namespace Sys2Proof.Machine

/-- One step of the machine. An idle block stays as it is (70_reset_and_hazards.md R180). Between two commands the host
changes neither a byte of its memory nor what it provides of it, so `mem` changes by READ alone and `hostMap` never
(DESIGN CHOICE beside 00_scope.md R7 and 20_memory.md R43, unsafe for claims over several commands: log 30). -/
def step (s : State) : Host.Outcome State Fault Refusal :=
  match fetch s with
  | .idle => .next s
  | .command d =>
    match decode s.cfg s.session.addrWidth (.desc d) with
    | .ok i => exec i s
    | .error e => .refused (.illegalDescriptor e)
  | .port r =>
    match decode s.cfg s.session.addrWidth (.frame r) with
    | .ok i => exec i (clearRequest s)
    | .error e => .refused (.illegalFrame e)

/-- `s` with an instruction, given as spec/opcode_table.json numbers its bits, stored where `step` fetches next. -/
def State.withFetchWord (s : State) (nbits w : Nat) : State := placeTableWord s nbits w

end Sys2Proof.Machine
end

