-- ==== Sys2Proof/Safety.lean ====
section
/-! DEFINITION. The terms the statements use: what a frame run on its own leaves, where recorded answers come from, how
a write sequence and the unlock engine may go, the block's frame discipline as an automaton over the trace, and the machine's invariant. -/

namespace Sys2Proof.Machine

/-- The six host commands (30_encoding.md R61); every other instruction is a frame. -/
def isHostCommand : Instr → Bool
  | .init _ => true
  | .exit _ => true
  | .unlock => true
  | .read _ _ _ => true
  | .erase _ _ => true
  | .write _ _ _ => true
  | .rdid => false
  | .rdsr1 => false
  | .rdsr2 => false
  | .rdcr => false
  | .wren => false
  | .wrsrSr1 _ => false
  | .wrsrSr2 _ => false
  | .wrsrCr _ => false
  | .en4b => false
  | .ex4b => false
  | .gbulk => false
  | .se _ => false
  | .pp _ _ => false
  | .readSlow _ _ => false
  | .fast _ _ => false
  | .fast4 _ _ => false
  | .dual _ _ => false
  | .dual4 _ _ => false
  | .quad _ _ => false
  | .quad4 _ _ => false

/-- `t` differs from `s` at most in what a transaction touches: `useq`, the diagnostics, the trace, the transport's
coming answers and the draw counter. -/
def PortOnly (s t : State) : Prop :=
  t = { s with useq := t.useq, diag := t.diag, trace := t.trace, script := t.script, draws := t.draws }

/-- `t` differs from `s` at most in what a frame run on its own touches: as `PortOnly`, and the port result. -/
def FrameOnly (s t : State) : Prop :=
  t = { s with useq := t.useq, diag := t.diag, trace := t.trace, script := t.script, draws := t.draws,
               result := t.result }

/-- The result of one transaction run on its own, by the transport's answer (40_transport_registers.md R70, R87). -/
def frameResult (rx : Option (List Byte)) : PortResult :=
  match rx with
  | some bytes => .ok bytes
  | none => .error (.transport .xfer)

/-- The state after exactly one transaction `Xfer(tx, n)` run on its own from `s`. -/
def afterFrame (s : State) (tx : List Byte) (n : Nat) : State :=
  { s with
    useq := 1
    script := s.script.tail
    draws := s.draws + 1
    trace := s.trace ++ [.xfer tx n (answer s n)]
    result := frameResult (answer s n) }

/-- The state after a host command that did nothing but return status `v` from `s`. -/
def returned (v : Word) (s : State) : State :=
  { s with useq := 0, hpc := s.hpc + 1, statuses := s.statuses ++ [v] }

/-! ### Where the recorded answers come from -/

/-- The answers that `evs` records are those the transport gives from `s` on, in order (00_scope.md R8); a teardown has
none. -/
def AnsweredFrom : State → List Event → Prop
  | _, [] => True
  | s, .xfer _ n rx :: evs => rx = answer s n ∧ AnsweredFrom (afterAnswer s) evs
  | s, .transportInit ok :: evs => ok = initAnswer s ∧ AnsweredFrom (afterAnswer s) evs
  | s, .transportTeardown :: evs => AnsweredFrom s evs

/-- How many answers the transport gave in `evs`. -/
def answersIn : List Event → Nat
  | [] => 0
  | .xfer _ _ _ :: evs => answersIn evs + 1
  | .transportInit _ :: evs => answersIn evs + 1
  | .transportTeardown :: evs => answersIn evs

/-- From `s` to `t` the port did exactly `evs`: the trace grew by them, each answer is the transport's, and each was
taken once; `own` further values were drawn (a status, or the host bytes of a failed chunk). -/
structure PortRan (own : Nat) (s t : State) (evs : List Event) : Prop where
  trace : t.trace = s.trace ++ evs
  answers : AnsweredFrom s evs
  script : t.script = s.script.drop (answersIn evs)
  draws : t.draws = s.draws + answersIn evs + own

/-! ### How a write sequence goes -/

/-- A WREN transaction with its answer (40_transport_registers.md R79). -/
def wrenEvent (c : Config) (rx : Option (List Byte)) : Event := .xfer [c.opWren] 0 rx

/-- A status read that answered the byte `v` (40_transport_registers.md R75). -/
def statusRead (c : Config) (v : Byte) : Event := .xfer [c.opRdsr1] 1 (some [v])

/-- `busy` is fewer than `POLL_BUDGET` status bytes, each with WIP set. -/
def BusyBytes (c : Config) (busy : List Byte) : Prop := ∀ b ∈ busy, bitIsSet b c.sr1WipBit = true

/-- A ready-poll that succeeds: WIP set in all its reads but the last, within the budget
(40_transport_registers.md R77). -/
def PollCompletes (c : Config) (evs : List Event) : Prop :=
  ∃ (busy : List Byte) (v : Byte), busy.length < pollBudget ∧ BusyBytes c busy ∧ bitIsSet v c.sr1WipBit = false ∧
    evs = busy.map (statusRead c) ++ [statusRead c v]

/-- A ready-poll that ends with error `e`: a read that fails, or a budget all spent (40_transport_registers.md R77). -/
def PollFails (c : Config) (e : BlockError) (evs : List Event) : Prop :=
  ∃ busy : List Byte, BusyBytes c busy ∧
    ((e = .transport .xfer ∧ busy.length < pollBudget ∧
        evs = busy.map (statusRead c) ++ [.xfer [c.opRdsr1] 1 none]) ∨
     (e = .timeout ∧ busy.length = pollBudget ∧ evs = busy.map (statusRead c)))

/-- WREN, the frame `tx`, the ready-poll, all done (70_reset_and_hazards.md R185). -/
def WriteCompletes (c : Config) (tx : List Byte) (evs : List Event) : Prop :=
  ∃ p, PollCompletes c p ∧ evs = wrenEvent c (some []) :: .xfer tx 0 (some []) :: p

/-- The sequence WREN, `tx`, ready-poll ends with error `e` at its first failure, and nothing follows
(40_transport_registers.md R80). -/
def WriteFails (c : Config) (tx : List Byte) (e : BlockError) (evs : List Event) : Prop :=
  (e = .transport .xfer ∧ evs = [wrenEvent c none]) ∨
  (e = .transport .xfer ∧ evs = [wrenEvent c (some []), .xfer tx 0 none]) ∨
  (∃ p, PollFails c e p ∧ evs = wrenEvent c (some []) :: .xfer tx 0 (some []) :: p)

/-- A run of write sequences, one for each frame of `txs`, in order, all completed. -/
def WritesComplete (c : Config) (txs : List (List Byte)) (evs : List Event) : Prop :=
  ∃ groups : List (List Event), List.Forall₂ (WriteCompletes c) txs groups ∧ evs = groups.flatten

/-- A run of write sequences over `txs` that ends with error `e` at its first failing frame: those before it completed, those after
it issued nothing (43_data_path.md R131, R139). -/
def WritesFail (c : Config) (txs : List (List Byte)) (e : BlockError) (evs : List Event) : Prop :=
  ∃ (before : List (List Byte)) (tx : List Byte) (rest : List (List Byte)) (evs1 evs2 : List Event),
    txs = before ++ tx :: rest ∧ WritesComplete c before evs1 ∧ WriteFails c tx e evs2 ∧ evs = evs1 ++ evs2

/-- The PP frames of the chunks `cs` at flash offset `off`, with the bytes host memory holds from `buf`
(43_data_path.md R136, R138). -/
def programFrames (s : State) (off : Word) (buf : Nat) (cs : List (Nat × Nat)) : List (List Byte) :=
  cs.map fun p => programFrame s.cfg (off + BitVec.ofNat 32 p.1) (s.mem.readBlock (buf + p.1) p.2)

/-- The read opcode of a register selector (40_transport_registers.md R74). -/
def readRegOp (c : Config) : RegSel → Byte
  | .sr1 => c.opRdsr1
  | .sr2 => c.opRdsr2
  | .cr => c.opRdcr

/-- A read of register `sel` that answered the byte `v`. -/
def registerRead (c : Config) (sel : RegSel) (v : Byte) : Event := .xfer [readRegOp c sel] 1 (some [v])

/-! ### How quad enable and the unlock engine go

Each relation holds of how a piece ended (`none`: normally; `some e`: by its first error `e`) and of its transactions. -/

/-- The diagnostics of how a piece ended: those of its error (60_exceptions.md R171, 41_quirk_unlock.md R105). -/
def endEvents (o : Option BlockError) : List Diag := o.elim [] BlockError.events

/-- The write sequence of frame `tx`. -/
def WriteEnds (c : Config) (tx : List Byte) (o : Option BlockError) (evs : List Event) : Prop :=
  match o with
  | none => WriteCompletes c tx evs
  | some e => WriteFails c tx e evs

/-- One piece and, if it ended normally, the next. -/
def InTurn (A B : Option BlockError → List Event → Prop) (o : Option BlockError) (evs : List Event) : Prop :=
  (o ≠ none ∧ A o evs) ∨ ∃ evs1 evs2, A none evs1 ∧ B o evs2 ∧ evs = evs1 ++ evs2

/-- A read of register `sel`, and the piece that `next` gives for the byte it answers. -/
def ReadThen (c : Config) (sel : RegSel) (next : Byte → Option BlockError → List Event → Prop)
    (o : Option BlockError) (evs : List Event) : Prop :=
  (o = some (.transport .xfer) ∧ evs = [.xfer [readRegOp c sel] 1 none]) ∨
    ∃ v rest, evs = registerRead c sel v :: rest ∧ next v o rest

/-- A register write of `v` in the form its selector takes (40_transport_registers.md R80). -/
def RegisterWriteEnds (c : Config) (sel : RegSel) (v : Byte) : Option BlockError → List Event → Prop :=
  match sel with
  | .sr1 => WriteEnds c [c.opWrsr, v]
  | .sr2 => ReadThen c .sr1 fun s1 => WriteEnds c [c.opWrsr, s1, v]
  | .cr => ReadThen c .sr1 fun s1 => WriteEnds c [c.opWrsr, s1, v]

/-- The GigaDevice step: SR2 is read, and if its CMP bit is set it is written back without it, behind the SR1 byte just
read (41_quirk_unlock.md R102, 40_transport_registers.md R82). -/
def CmpClearEnds (c : Config) : Option BlockError → List Event → Prop :=
  ReadThen c .sr2 fun s2 o evs =>
    if bitIsSet s2 c.sr2CmpBit then
      RegisterWriteEnds c .sr2 (s2 &&& ~~~(1#8 <<< c.sr2CmpBit.val)) o evs
    else o = none ∧ evs = []

/-- The SR1 write: a Macronix byte keeps only its QE bit, the others write 0x00 (41_quirk_unlock.md R102). -/
def Sr1ClearEnds (c : Config) (m : Byte) (o : Option BlockError) (evs : List Event) : Prop :=
  if m ∈ c.setMx then ReadThen c .sr1 (fun s1 => WriteEnds c [c.opWrsr, s1 &&& (1#8 <<< c.sr1QeBit.val)]) o evs
  else WriteEnds c [c.opWrsr, 0x00#8] o evs

/-- The global block unlock: WREN, then the frame if the WREN was answered, and no ready-poll (41_quirk_unlock.md
R104). -/
def GlobalUnlockEnds (c : Config) (o : Option BlockError) (evs : List Event) : Prop :=
  (o = none ∧ evs = [wrenEvent c (some []), .xfer [c.opGbulk] 0 (some [])]) ∨
  (o = some (.transport .xfer) ∧
    (evs = [wrenEvent c none] ∨ evs = [wrenEvent c (some []), .xfer [c.opGbulk] 0 none]))

/-- The extended path: the global unlock where the gate is on and the manufacturer in its set (41_quirk_unlock.md
R104). -/
def ExtendedEnds (c : Config) (m : Byte) (o : Option BlockError) (evs : List Event) : Prop :=
  if m ∈ c.setGbulk ∧ c.gbulkEnabled = true then GlobalUnlockEnds c o evs else o = none ∧ evs = []

/-! ### The frame discipline (70_reset_and_hazards.md R185) -/

/-- Where the block stands between two transactions. -/
inductive Phase where
  /-- No write is under way. -/
  | idle
  /-- A WREN has been answered: the next transaction must be the frame it enables. -/
  | armed
  /-- A register write, sector erase or page program has been answered and `k` status reads showed WIP set. -/
  | polling (k : Nat)
  deriving DecidableEq, Repr

/-- The opcodes of register writes, sector erase and page program. -/
def pollOps (c : Config) : List Byte := [c.opWrsr, c.opSe, c.opPp]

/-- One event under the discipline; `none` is a violation. A WREN immediately precedes every register write, sector
erase, page program and global unlock; a ready-poll immediately follows the first three, and no other transaction is
issued until it ends (by WIP clear, by a failed read, or by its budget). -/
def phaseStep (c : Config) (p : Phase) (e : Event) : Option Phase :=
  match p, e with
  | .idle, .xfer tx _ rx =>
    if tx.headD 0 ∈ c.opGbulk :: pollOps c then none
    else if tx.headD 0 = c.opWren then (if rx.isSome then some .armed else some .idle)
    else some .idle
  | .idle, .transportInit _ => some .idle
  | .idle, .transportTeardown => some .idle
  | .armed, .xfer tx _ rx =>
    if tx.headD 0 = c.opGbulk then some .idle
    else if tx.headD 0 ∈ pollOps c then (if rx.isSome then some (.polling 0) else some .idle)
    else none
  | .armed, _ => none
  | .polling k, .xfer tx _ rx =>
    if tx.headD 0 = c.opRdsr1 then
      match rx with
      | none => some .idle
      | some v =>
        if bitIsSet (firstByte v) c.sr1WipBit then (if k + 1 = pollBudget then some .idle else some (.polling (k + 1)))
        else some .idle
    else none
  | .polling _, _ => none

/-- A list of events under the discipline. -/
def runPhases (c : Config) : Phase → List Event → Option Phase
  | p, [] => some p
  | p, e :: es => (phaseStep c p e).bind fun q => runPhases c q es

/-- A list of events obeys the discipline and leaves nothing under way. -/
def Disciplined (c : Config) (evs : List Event) : Prop := runPhases c .idle evs = some .idle

/-- The transactions of a host command: an opcode of the map other than `OP_EX4B` (30_encoding.md R65, R69), and the
sizes of 20_memory.md R52. -/
def EmittedByCommand (c : Config) (e : Event) : Prop :=
  match e with
  | .xfer tx n rx =>
    (∃ op ∈ (opcodeMap c).erase opEx4b, tx.head? = some op) ∧ tx.length ≤ 132 ∧ n ≤ readChunk ∧
      (∀ bytes, rx = some bytes → bytes.length = n)
  | .transportInit _ => True
  | .transportTeardown => True

/-! ### The invariant -/

/-- What holds at reset and what every step keeps. -/
structure MachineInv (s : State) : Prop where
  /-- Host memory is in its canonical form. -/
  memWf : s.mem.wf
  /-- One status for each host command that ended (10_state.md R22, 70_reset_and_hazards.md R193). -/
  statusPerCommand : s.statuses.length = s.hpc
  /-- A session has its transport up (10_state.md R28). -/
  transportUp : s.session.initialized = true → s.session.transportUp = true
  /-- A session has an identity (10_state.md R27). -/
  idWritten : s.session.initialized = true → s.session.id.isSome = true
  /-- An identity has a nonzero manufacturer byte (44_init_exit.md R147). -/
  idPresent : ∀ id, s.session.id = some id → id.manufacturer ≠ 0x00#8
  /-- `S.readOp` is one of its legal values (10_state.md R26). -/
  readOpLegal : s.session.readOp ∈ s.cfg.opRead :: recognisedReadOps s.cfg
  /-- The slow read goes with width THREE (30_encoding.md R63). -/
  slowReadIsThree : opcodesDistinct s.cfg → s.session.readOp = s.cfg.opRead → s.session.addrWidth = .three
  /-- A 4-byte opcode goes with width FOUR (30_encoding.md R65). -/
  fourByteOpIsFour : opcodesDistinct s.cfg → s.session.readOp ∈ [s.cfg.opFast4, s.cfg.opDual4, s.cfg.opQuad4] →
    s.session.addrWidth = .four

/-- The host provides all of `[a, a + n)` for reading (70_reset_and_hazards.md R183). -/
def RangeReadable (s : State) (a n : Nat) : Prop := ∀ x, a ≤ x → x < a + n → hostReadable s x = true

/-- The host provides all of `[a, a + n)` for writing (70_reset_and_hazards.md R183). -/
def RangeWritable (s : State) (a n : Nat) : Prop := ∀ x, a ≤ x → x < a + n → hostWritable s x = true

end Sys2Proof.Machine
end

