-- ==== Sys2Proof/Certificates/Slice0/Obligations.lean ====
section
/-! DEFINITION. The statements for the provers, each a rule of spec/ or a property of the machine that its rules give. -/

open Sys2Proof Sys2Proof.Machine

/-! ### Reset, fetch and step -/

/-- 10_state.md section 8 and 70_reset_and_hazards.md section 1: the session record, the command index and the
diagnostic stream at reset; no transaction has been issued. -/
def Obligations.ResetLeavesSessionAtDefaults : Prop :=
  State.reset.session.initialized = false ∧ State.reset.session.unlocked = false ∧
    State.reset.session.addrWidth = .three ∧ State.reset.session.readOp = State.reset.cfg.opRead ∧
    State.reset.session.id = none ∧ State.reset.session.transportUp = false ∧ State.reset.hpc = 0 ∧
    State.reset.diag = [] ∧ State.reset.trace = []

/-- The invariant holds at reset. -/
def Obligations.ResetMeetsInvariant : Prop := MachineInv State.reset

/-- Every step keeps the invariant: canonical memory, one status per ended command, a session has its transport and a
nonzero identity, `S.readOp` is legal, the slow read goes with THREE and a 4-byte opcode with FOUR. -/
def Obligations.EveryStepKeepsInvariant : Prop := ∀ s t : State, MachineInv s → step s = .next t → MachineInv t

/-- A step runs the host command at index `hpc` that the decoder reads, and adds nothing around it. -/
def Obligations.StepRunsTheDecodedCommand : Prop :=
  ∀ (s : State) (d : Descriptor) (i : Instr), s.request = none → s.program[s.hpc]? = some d →
    decode s.cfg s.session.addrWidth (.desc d) = .ok i → step s = exec i s

/-- A step runs the frame of the port request that the decoder reads, with the request taken. The port request is the
model's own (log 13). -/
def Obligations.StepRunsTheRequestedFrame : Prop :=
  ∀ (s : State) (r : PortRequest) (i : Instr), s.request = some r →
    decode s.cfg s.session.addrWidth (.frame r) = .ok i → step s = exec i { s with request := none }

/-- With no port request and no further host command the block is idle and stays as it is (log 12). -/
def Obligations.IdleBlockStays : Prop :=
  ∀ s : State, s.request = none → s.program.length ≤ s.hpc → step s = .next s

/-- 30_encoding.md R62: a descriptor with `cmd` outside 0x01 to 0x06, or with any bit of w0[31:8] set, and no other, is
refused; a refusal has no next state. -/
def Obligations.IllegalDescriptorIsRefused : Prop :=
  ∀ (s : State) (d : Descriptor), s.request = none → s.program[s.hpc]? = some d →
    ((∃ e, step s = .refused (.illegalDescriptor e)) ↔
      (d.w0.toNat / 256 ≠ 0 ∨ d.w0.toNat % 256 = 0 ∨ 6 < d.w0.toNat % 256))

/-- A word placed where the machine fetches is the very next instruction it runs (the model's own device, log 12 and
13). -/
def Obligations.PlacedWordIsRunNext : Prop :=
  ∀ (s : State) (nbits w : Nat) (i : Instr),
    decode s.cfg s.session.addrWidth (tableCode s.cfg s.session.addrWidth nbits w) = .ok i →
      step (s.withFetchWord nbits w) =
        exec i (if 32 ≤ nbits then s.withFetchWord nbits w else { s with request := none })

/-! ### Encoding -/

/-- Decoding the encoding of a well-formed instruction gives it back, with every operand at every value its encoding
admits, under any parameters whose opcodes are distinct. -/
def Obligations.DecodeOfEncodeIsTheInstruction : Prop :=
  ∀ (c : Config) (w : AddrWidth) (i : Instr), opcodesDistinct c → wellFormed w i = true →
    decode c w (encode c w i) = .ok i

/-- Whatever the decoder reads is well formed. -/
def Obligations.DecodedInstructionIsWellFormed : Prop :=
  ∀ (c : Config) (w : AddrWidth) (x : Code) (i : Instr), decode c w x = .ok i → wellFormed w i = true

/-- A decoded frame encodes to the frame it was read from: no byte of it is dropped. The paired WRSR forms are left
out, whose byte V1 is no operand (log 15). -/
def Obligations.EncodeOfDecodedFrameIsTheFrame : Prop :=
  ∀ (c : Config) (w : AddrWidth) (r : PortRequest) (i : Instr), decode c w (.frame r) = .ok i →
    (∀ v, i ≠ .wrsrSr2 v) → (∀ v, i ≠ .wrsrCr v) → ∃ sel, encode c w i = .frame ⟨r.tx, r.rx, sel⟩

/-- A few words written out from 30_encoding.md R60 to R65 decode to the instructions they stand for. -/
def Obligations.WrittenOutWordsDecode : Prop :=
  decode defaultConfig .three (.desc ⟨0x00000004#32, 0x80#32, 0x10#32, 0x40000000#32⟩) =
      .ok (.read 0x80#32 0x10#32 0x40000000#32) ∧
    decode defaultConfig .three (.desc ⟨0x00000104#32, 0#32, 0#32, 0#32⟩) = .error .reservedBits ∧
    decode defaultConfig .three (.frame ⟨[0x20#8, 0x12#8, 0x30#8, 0x00#8], 0, .sr1⟩) = .ok (.se 0x00123000#32) ∧
    decode defaultConfig .four (.frame ⟨[0x0C#8, 0x01#8, 0x00#8, 0x00#8, 0x00#8, 0x00#8], 512, .sr1⟩) =
      .ok (.fast4 0x01000000#32 512) ∧
    decode defaultConfig .three (.frame ⟨[0x01#8, 0x00#8, 0x02#8], 0, .sr2⟩) = .ok (.wrsrSr2 0x02#8)

/-- 30_encoding.md R65: the block has eighteen opcode bytes, distinct under the defaults. -/
def Obligations.DefaultOpcodesAreDistinct : Prop :=
  (opcodeMap defaultConfig).length = 18 ∧ (opcodeMap defaultConfig).Nodup

/-! ### Operands and frames -/

/-- 42_frame_composer.md R110: the address bytes of an offset at each width, most significant first, as numbers. -/
def Obligations.AddressBytesByWidth : Prop :=
  ∀ o : Word,
    (addrBytes o .three).map BitVec.toNat = [o.toNat / 65536 % 256, o.toNat / 256 % 256, o.toNat % 256] ∧
    (addrBytes o .four).map BitVec.toNat =
      [o.toNat / 16777216, o.toNat / 65536 % 256, o.toNat / 256 % 256, o.toNat % 256]

/-- 42_frame_composer.md R114: three address bytes drop `o[31:24]` with no error: a read chunk at width THREE, and an
erase or program whatever the width, acts as at `o mod 2^24`. -/
def Obligations.ThreeByteAddressesAlias : Prop :=
  ∀ (s : State) (o : Word) (p : List Byte),
    (s.session.addrWidth = .three → readFrame s o = readFrame s (BitVec.ofNat 32 (o.toNat % 2 ^ 24))) ∧
    exec (.se o) s = exec (.se (BitVec.ofNat 32 (o.toNat % 2 ^ 24))) s ∧
    exec (.pp o p) s = exec (.pp (BitVec.ofNat 32 (o.toNat % 2 ^ 24)) p) s

/-- 42_frame_composer.md section 1: the read frame's length by opcode and width. -/
def Obligations.ReadFrameLengthByOpcodeAndWidth : Prop :=
  ∀ (s : State) (o : Word),
    (readFrame s o).length =
      match s.session.addrWidth with
      | .three => if s.session.readOp = s.cfg.opRead then 4 else 5
      | .four => if s.session.readOp = s.cfg.opRead then 5 else 6

/-- 42_frame_composer.md R116 and R117: normalisation within a family, on the six recognised opcodes. -/
def Obligations.NormalisationStaysInTheFamily : Prop :=
  ∀ c : Config, opcodesDistinct c →
    (down c c.opFast4 = c.opFast ∧ down c c.opDual4 = c.opDual ∧ down c c.opQuad4 = c.opQuad ∧
      down c c.opFast = c.opFast ∧ down c c.opDual = c.opDual ∧ down c c.opQuad = c.opQuad) ∧
    (up c c.opFast = c.opFast4 ∧ up c c.opDual = c.opDual4 ∧ up c c.opQuad = c.opQuad4 ∧
      up c c.opFast4 = c.opFast4 ∧ up c c.opDual4 = c.opDual4 ∧ up c c.opQuad4 = c.opQuad4)

/-- 42_frame_composer.md R118: the requested read opcode, by boot configuration. -/
def Obligations.RequestedReadOpcode : Prop :=
  ∀ (c : Config) (size : Nat),
    reqOp c none = some c.opFast ∧ reqOp c (some ⟨.single, size⟩) = some c.opFast ∧
    reqOp c (some ⟨.dual, size⟩) = some c.opDual ∧ reqOp c (some ⟨.quad, size⟩) = some c.opQuad ∧
    reqOp c (some ⟨.other, size⟩) = none

/-- 43_data_path.md section 2 and 20_memory.md section 1: the chunks of a READ cut its range without gap or overlap;
there are `ceil(len / 8 MiB)`, every one but the last is exactly 8 MiB, and at most 512. -/
def Obligations.ReadChunksCoverTheRange : Prop :=
  ∀ len : Nat,
    (chunks readChunk len).length = (len + 8388607) / 8388608 ∧
    (∀ k, k < (chunks readChunk len).length →
      (chunks readChunk len)[k]? = some (k * 8388608, min 8388608 (len - k * 8388608))) ∧
    (∀ k, k + 1 < (chunks readChunk len).length → (chunks readChunk len)[k]? = some (k * 8388608, 8388608)) ∧
    ((chunks readChunk len).map Prod.snd).sum = len ∧
    (len ≤ 2 ^ 32 - 512 → (chunks readChunk len).length ≤ 512)

/-- 20_memory.md section 3: through WRITE every chunk is exactly 128 bytes and starts at a multiple of 128. -/
def Obligations.WriteChunksAreAligned : Prop :=
  ∀ (a c : Word), ∀ p ∈ chunks progChunk (byteLength c).toNat,
    p.2 = 128 ∧ (byteOffset a + BitVec.ofNat 32 p.1).toNat % 128 = 0

/-! ### Frames run on their own -/

/-- Every frame completes in every state and touches only the port: no accessor writes session state, host memory or
the command stream (40_transport_registers.md section 5). -/
def Obligations.FrameTouchesOnlyThePort : Prop :=
  ∀ (i : Instr) (s : State), isHostCommand i = false →
    ∃ t, exec i s = .next t ∧ FrameOnly s t ∧ s.trace <+: t.trace ∧ s.diag <+: t.diag

/-- 40_transport_registers.md R75, R76, R78, R84: one transaction, its response bytes or TransportError. -/
def Obligations.RegisterAndIdentityReads : Prop :=
  ∀ s : State,
    exec .rdsr1 s = .next (afterFrame s [s.cfg.opRdsr1] 1) ∧
    exec .rdsr2 s = .next (afterFrame s [s.cfg.opRdsr2] 1) ∧
    exec .rdcr s = .next (afterFrame s [s.cfg.opRdcr] 1) ∧
    exec .rdid s = .next (afterFrame s [s.cfg.opRdid] 3)

/-- 40_transport_registers.md R79, R85, R86: one transaction of the opcode alone, no response. -/
def Obligations.OpcodeOnlyFrames : Prop :=
  ∀ s : State,
    exec .wren s = .next (afterFrame s [s.cfg.opWren] 0) ∧
    exec .en4b s = .next (afterFrame s [0xB7#8] 0) ∧
    exec .ex4b s = .next (afterFrame s [0xE9#8] 0)

/-- 43_data_path.md R130, R136: SE and PP carry three address bytes whatever `S.addrWidth` is. -/
def Obligations.EraseAndProgramFrames : Prop :=
  ∀ (s : State) (a : Word) (p : List Byte),
    exec (.se a) s = .next (afterFrame s
      [s.cfg.opSe, a.extractLsb' 16 8, a.extractLsb' 8 8, a.extractLsb' 0 8] 0) ∧
    exec (.pp a p) s = .next (afterFrame s
      ([s.cfg.opPp, a.extractLsb' 16 8, a.extractLsb' 8 8, a.extractLsb' 0 8] ++ p) 0)

/-- 42_frame_composer.md R120 to R126: each read opcode is one read frame, which is `ReadFrame(o)` when it is
`S.readOp` (the slow read with width THREE). That a read opcode run on its own takes its width from `S.addrWidth`, FAST4,
DUAL4 and QUAD4 at THREE among them, and READ.SLOW three address bytes at FOUR too, is the model's choice (log 17). -/
def Obligations.ReadOpcodeFrames : Prop :=
  ∀ (s : State) (o : Word) (n : Nat), opcodesDistinct s.cfg →
    (exec (.readSlow o n) s = .next (afterFrame s (s.cfg.opRead :: addr3 o) n) ∧
      (s.session.readOp = s.cfg.opRead → s.session.addrWidth = .three → readFrame s o = s.cfg.opRead :: addr3 o)) ∧
    ∀ p ∈ [(Instr.fast o n, s.cfg.opFast), (Instr.fast4 o n, s.cfg.opFast4), (Instr.dual o n, s.cfg.opDual),
        (Instr.dual4 o n, s.cfg.opDual4), (Instr.quad o n, s.cfg.opQuad), (Instr.quad4 o n, s.cfg.opQuad4)],
      exec p.1 s = .next (afterFrame s (p.2 :: (addrBytes o s.session.addrWidth ++ [s.cfg.dummyByte])) n) ∧
      (s.session.readOp = p.2 → readFrame s o = p.2 :: (addrBytes o s.session.addrWidth ++ [s.cfg.dummyByte]))

/-- 41_quirk_unlock.md section 2 (the frames of the global block unlock): WREN then the unlock opcode, no ready-poll,
ended by the first FAILURE. -/
def Obligations.GlobalUnlockFrames : Prop :=
  ∀ s : State, ∃ t evs, exec .gbulk s = .next t ∧ FrameOnly s t ∧ t.diag = s.diag ∧ PortRan 0 s t evs ∧
    ((t.result = .ok [] ∧ evs = [wrenEvent s.cfg (some []), .xfer [s.cfg.opGbulk] 0 (some [])]) ∨
     (t.result = .error (.transport .xfer) ∧
        (evs = [wrenEvent s.cfg none] ∨ evs = [wrenEvent s.cfg (some []), .xfer [s.cfg.opGbulk] 0 none])))

/-- 40_transport_registers.md R81: the single-form register write: WREN, `[OP_WRSR, v]`, ready-poll, or its first
error. -/
def Obligations.SingleFormRegisterWrite : Prop :=
  ∀ (s : State) (v : Byte), ∃ t evs, exec (.wrsrSr1 v) s = .next t ∧ FrameOnly s t ∧ PortRan 0 s t evs ∧
    ((t.result = .ok [] ∧ t.diag = s.diag ∧ WriteCompletes s.cfg [s.cfg.opWrsr, v] evs) ∨
     ∃ e, t.result = .error e ∧ t.diag = s.diag ++ e.events ∧ WriteFails s.cfg [s.cfg.opWrsr, v] e evs)

/-- 40_transport_registers.md R82, R83: the paired register writes: SR1 is read, then WREN, `[OP_WRSR, s1, v]` with the
byte just read, ready-poll, or the first error. -/
def Obligations.PairedFormRegisterWrites : Prop :=
  ∀ (s : State) (v : Byte), ∀ i ∈ [Instr.wrsrSr2 v, Instr.wrsrCr v],
    ∃ t evs, exec i s = .next t ∧ FrameOnly s t ∧ PortRan 0 s t evs ∧
      ((t.result = .ok [] ∧ t.diag = s.diag ∧
          ∃ s1 ws, evs = statusRead s.cfg s1 :: ws ∧ WriteCompletes s.cfg [s.cfg.opWrsr, s1, v] ws) ∨
       (t.result = .error (.transport .xfer) ∧ t.diag = s.diag ∧ evs = [.xfer [s.cfg.opRdsr1] 1 none]) ∨
       ∃ e s1 ws, t.result = .error e ∧ t.diag = s.diag ++ e.events ∧ evs = statusRead s.cfg s1 :: ws ∧
         WriteFails s.cfg [s.cfg.opWrsr, s1, v] e ws)

/-! ### Host commands: what holds of all -/

/-- 60_exceptions.md sections 1, 4 and 5: raising an error, the block's trap mechanism: it appends the diagnostic of its
kind (none for TransportError) and saves and changes nothing else; the kinds carry the codes 1 to 6. -/
def Obligations.RaiseLogsAndChangesNothingElse : Prop :=
  (∀ (e : BlockError) (s : State),
    (raise e s : Res Unit) = .raised e { s with diag := s.diag ++
      match e with
      | .transport _ => []
      | .timeout => [⟨.timeout, .poll⟩]
      | .alignment off len => [⟨.alignment, .range off len⟩]
      | .identity id => [⟨.identity, .ident id⟩]
      | .quirk r => [⟨.quirk, .quirk r⟩] }) ∧
  [ErrorKind.transport, .timeout, .alignment, .identity, .quirk, .addressingNegotiation].map ErrorKind.code =
    [1, 2, 3, 4, 5, 6]

/-- 10_state.md section 1 and 60_exceptions.md section 4: a host command that ends advances `hpc` by exactly 1 and
returns exactly one status: 0 or -1 for INIT and READ, 0 for EXIT and UNLOCK. -/
def Obligations.CommandEndsWithOneStatus : Prop :=
  ∀ (i : Instr) (s t : State), isHostCommand i = true → exec i s = .next t →
    t.hpc = s.hpc + 1 ∧ ∃ v, t.statuses = s.statuses ++ [v] ∧
      match i with
      | .init _ => v = 0#32 ∨ v = 0xFFFFFFFF#32
      | .read _ _ _ => v = 0#32 ∨ v = 0xFFFFFFFF#32
      | .exit _ => v = 0#32
      | .unlock => v = 0#32
      | _ => True

/-- No step changes the parameters or the inputs of a run, the outputs only grow, and `S.unlocked` is never cleared
(10_state.md section 2: "only reset clears it"). The rest rests on 10_state.md sections 1 (R20, parameters of a run),
3 (R30) and 7 (R37) and 70_reset_and_hazards.md sections 1 (R181, R183) and 4 (R193), and is in part the model's choice:
the command stream `program` as a list no step changes (log 12), `bootCfg` as an input no step changes (log 18), the
outputs as three lists that only grow (log 21), `hostMap` the same over a whole run (log 30). -/
def Obligations.StepKeepsInputsAndGrowsOutputs : Prop :=
  ∀ s t : State, step s = .next t →
    t.cfg = s.cfg ∧ t.bootCfg = s.bootCfg ∧ t.program = s.program ∧ t.hostMap = s.hostMap ∧
    s.trace <+: t.trace ∧ s.diag <+: t.diag ∧ s.statuses <+: t.statuses ∧
    (s.session.unlocked = true → t.session.unlocked = true)

/-- 20_memory.md section 1: no instruction but READ changes host memory. -/
def Obligations.OnlyReadWritesHostMemory : Prop :=
  ∀ (i : Instr) (s t : State), (∀ a c b, i ≠ .read a c b) → exec i s = .next t → t.mem = s.mem

/-- 44_init_exit.md section 2 (sessions): within a session no instruction but EXIT changes `S` except its unlock
flag. -/
def Obligations.SessionIsFixedUntilExit : Prop :=
  ∀ (i : Instr) (s t : State), s.session.initialized = true → (∀ stage, i ≠ .exit stage) → exec i s = .next t →
    t.session = { s.session with unlocked := t.session.unlocked }

/-- 70_reset_and_hazards.md section 2: in every host command a WREN immediately precedes every register write, sector
erase, page program and global unlock, a ready-poll immediately follows the first three, and no other transaction is
issued until that poll ends. -/
def Obligations.CommandsKeepTheFrameDiscipline : Prop :=
  ∀ s t : State, MachineInv s → opcodesDistinct s.cfg → s.request = none → step s = .next t →
    ∃ evs, t.trace = s.trace ++ evs ∧ Disciplined s.cfg evs

/-- 30_encoding.md sections 2 (R65) and 4 (R69), 40_transport_registers.md R86, 20_memory.md section 4: a host command
emits only the opcodes of the map, never OP_EX4B, with at most 132 tx bytes and 8 MiB of response. -/
def Obligations.CommandsEmitOnlyMappedFrames : Prop :=
  ∀ s t : State, MachineInv s → opcodesDistinct s.cfg → s.request = none → step s = .next t →
    ∃ evs, t.trace = s.trace ++ evs ∧ ∀ e ∈ evs, EmittedByCommand s.cfg e

/-- 60_exceptions.md R167: UNLOCK, READ, ERASE or WRITE while `S.initialized` is false is the host protocol fault. -/
def Obligations.CommandsBeforeInitFault : Prop :=
  ∀ (s : State) (a c b : Word), s.session.initialized = false →
    exec .unlock s = .fault (.hostProtocol "UNLOCK") ∧ exec (.read a c b) s = .fault (.hostProtocol "READ") ∧
    exec (.erase a c) s = .fault (.hostProtocol "ERASE") ∧ exec (.write a c b) s = .fault (.hostProtocol "WRITE")

/-! ### EXIT and INIT -/

/-- 44_init_exit.md R156: EXIT, in any state: the transport is torn down, `S.transportUp` and `S.initialized` are
cleared, nothing else of `S` changes, status 0. -/
def Obligations.ExitEndsTheSession : Prop :=
  ∀ (s : State) (stage : Word), exec (.exit stage) s = .next { s with
    session := { s.session with transportUp := false, initialized := false }
    useq := 0
    trace := s.trace ++ [.transportTeardown]
    hpc := s.hpc + 1
    statuses := s.statuses ++ [0#32] }

/-- 44_init_exit.md section 1, step 1: INIT in a session returns 0 with no transaction and no change of `S`. -/
def Obligations.InitInASessionDoesNothing : Prop :=
  ∀ (s : State) (stage : Word), s.session.initialized = true → exec (.init stage) s = .next (returned 0#32 s)

/-- 44_init_exit.md section 1, step 3: a failed `TransportInit()` ends INIT with -1, no diagnostic and `S`
unchanged. -/
def Obligations.InitFailsWithTheTransport : Prop :=
  ∀ (s : State) (stage : Word), s.session.initialized = false → initAnswer s = false →
    exec (.init stage) s = .next { s with
      useq := 0
      script := s.script.tail
      draws := s.draws + 1
      trace := s.trace ++ [.transportInit false]
      hpc := s.hpc + 1
      statuses := s.statuses ++ [0xFFFFFFFF#32] }

/-- 44_init_exit.md section 1, step 4: a zero manufacturer byte ends INIT with -1 and the IdentityError diagnostic,
with `S.transportUp` set and `S.id` as it was. -/
def Obligations.InitFailsWithoutAChip : Prop :=
  ∀ (s : State) (stage : Word) (rest : List Answer) (ack : List Byte) (ty cap : Byte),
    s.session.initialized = false → s.script = .ok ack :: .ok [0x00#8, ty, cap] :: rest →
    exec (.init stage) s = .next { s with
      session := { s.session with transportUp := true }
      useq := 1
      script := rest
      draws := s.draws + 2
      trace := s.trace ++ [.transportInit true, .xfer [s.cfg.opRdid] 3 (some [0x00#8, ty, cap])]
      diag := s.diag ++ [⟨.identity, .ident ⟨0x00#8, ty, cap⟩⟩]
      hpc := s.hpc + 1
      statuses := s.statuses ++ [0xFFFFFFFF#32] }

/-- 44_init_exit.md section 1, the default path: with no boot configuration and an identity that forces nothing, INIT
probes and commits OP_FAST at width THREE. -/
def Obligations.InitDefaultsToFastReadAtThree : Prop :=
  ∀ (s : State) (stage : Word) (rest : List Answer) (ack : List Byte) (id : Ident),
    opcodesDistinct s.cfg → s.session.initialized = false → s.bootCfg = none →
    s.script = .ok ack :: .ok [id.manufacturer, id.memoryType, id.capacity] :: rest →
    id.manufacturer ≠ 0x00#8 → id ≠ ⟨0xC2#8, 0x20#8, 0x1A#8⟩ → id ≠ ⟨0xC2#8, 0x20#8, 0x18#8⟩ →
    exec (.init stage) s = .next { s with
      session := ⟨true, s.session.unlocked, .three, s.cfg.opFast, some id, true⟩
      useq := 1
      script := rest
      draws := s.draws + 2
      trace := s.trace ++
        [.transportInit true, .xfer [s.cfg.opRdid] 3 (some [id.manufacturer, id.memoryType, id.capacity])]
      hpc := s.hpc + 1
      statuses := s.statuses ++ [0#32] }

/-- 44_init_exit.md section 1 and 41_quirk_unlock.md section 1: quad mode asked of a manufacturer without a strategy
fails INIT with the no-quirk diagnostic and no further transaction; the opcode is not committed. -/
def Obligations.InitFailsWithoutAQuadStrategy : Prop :=
  ∀ (s : State) (stage : Word) (rest : List Answer) (ack : List Byte) (id : Ident) (size : Nat),
    opcodesDistinct s.cfg → s.session.initialized = false → s.bootCfg = some ⟨.quad, size⟩ → size ≤ 16 →
    s.script = .ok ack :: .ok [id.manufacturer, id.memoryType, id.capacity] :: rest →
    id.manufacturer ≠ 0x00#8 → id ≠ ⟨0xC2#8, 0x20#8, 0x1A#8⟩ →
    id.manufacturer ∉ s.cfg.setQmx ++ s.cfg.setQgd ++ s.cfg.setQsp →
    exec (.init stage) s = .next { s with
      session := { s.session with transportUp := true, id := some id }
      useq := 1
      script := rest
      draws := s.draws + 2
      trace := s.trace ++
        [.transportInit true, .xfer [s.cfg.opRdid] 3 (some [id.manufacturer, id.memoryType, id.capacity])]
      diag := s.diag ++ [⟨.quirk, .quirk .noQuirk⟩]
      hpc := s.hpc + 1
      statuses := s.statuses ++ [0xFFFFFFFF#32] }

/-- 44_init_exit.md R152: INIT outside a session always ends; it returns 0 with `S.initialized` set and `S.readOp` and
`S.addrWidth` at the candidates of steps 5 and 6 (R148, R150), or -1 with all three as they were; it never touches the
unlock flag, host memory, the parameters or the inputs. -/
def Obligations.InitCommitsTogetherOrNotAtAll : Prop :=
  ∀ (s : State) (stage : Word), s.session.initialized = false → ∃ t, exec (.init stage) s = .next t ∧
    t = { s with
      session := t.session, useq := t.useq, diag := t.diag, trace := t.trace, script := t.script, draws := t.draws
      hpc := s.hpc + 1, statuses := t.statuses } ∧
    t.session.unlocked = s.session.unlocked ∧
    ((t.statuses = s.statuses ++ [0#32] ∧ t.session.initialized = true ∧ t.session.transportUp = true ∧
        ∃ (id : Ident) (four : Bool) (op : Byte), t.session.id = some id ∧ id.manufacturer ≠ 0x00#8 ∧
          t.session.addrWidth = (if four then .four else .three) ∧ t.session.readOp = overrideOp s.cfg id op ∧
          ((reqOp s.cfg s.bootCfg = none ∧ four = false ∧ op = s.cfg.opRead) ∨
           ∃ rq, reqOp s.cfg s.bootCfg = some rq ∧ op = if four then up s.cfg rq else down s.cfg rq)) ∨
     (t.statuses = s.statuses ++ [0xFFFFFFFF#32] ∧ t.session.initialized = false ∧
        t.session.readOp = s.session.readOp ∧ t.session.addrWidth = s.session.addrWidth))

/-- 44_init_exit.md section 1, steps 5, 6 and 8: what INIT commits: width FOUR only after a confirmed negotiation that
the boot configuration asked for, THREE with a logged negotiation failure where it asked in vain, and the opcode of the
override or of the requested family at that width. -/
def Obligations.InitCommitsTheNegotiatedReadMode : Prop :=
  ∀ (s t : State) (stage : Word), s.session.initialized = false → exec (.init stage) s = .next t →
    t.session.initialized = true →
    ∃ (id : Ident) (four : Bool), t.session.id = some id ∧ id.manufacturer ≠ 0x00#8 ∧
      t.session.addrWidth = (if four then .four else .three) ∧
      t.session.readOp =
        (if id = ⟨0xC2#8, 0x20#8, 0x1A#8⟩ then s.cfg.opFast
         else if id = ⟨0xC2#8, 0x20#8, 0x18#8⟩ then s.cfg.opQuad
         else match reqOp s.cfg s.bootCfg with
           | none => s.cfg.opRead
           | some rq => if four then up s.cfg rq else down s.cfg rq) ∧
      (four = true → ∃ b cr, s.bootCfg = some b ∧ 16 < b.flashSize ∧ b.readMode ≠ .other ∧ cr.getLsbD 5 = true ∧
        [Event.xfer [0xB7#8] 0 (some []), Event.xfer [s.cfg.opRdcr] 1 (some [cr])] <:+: t.trace.drop s.trace.length) ∧
      (four = false → ∀ b, s.bootCfg = some b → 16 < b.flashSize → b.readMode ≠ .other →
        ∃ info, ⟨.addressingNegotiation, info⟩ ∈ t.diag.drop s.diag.length)

/-- 10_state.md section 6, second invariant: a quad-capable opcode is committed only if quad mode was enabled on the
chip: the manufacturer has a strategy, and the last transaction of INIT is a read of that strategy's register with its
QE bit set, or the identity is a volatile-QE variant of the Macronix strategy. -/
def Obligations.QuadOpcodeOnlyAfterVerifiedEnable : Prop :=
  ∀ (s t : State) (stage : Word), s.session.initialized = false → exec (.init stage) s = .next t →
    t.session.initialized = true → quadCapable s.cfg t.session.readOp = true →
    ∃ id, t.session.id = some id ∧
      ((id.manufacturer ∈ s.cfg.setQmx ∧
          (id ∈ s.cfg.mxVolatileQe ∨
            ∃ v, bitIsSet v s.cfg.sr1QeBit = true ∧ t.trace.getLast? = some (registerRead s.cfg .sr1 v))) ∨
       (id.manufacturer ∉ s.cfg.setQmx ∧ id.manufacturer ∈ s.cfg.setQgd ∧
          ∃ v, bitIsSet v s.cfg.sr2QeBit = true ∧ t.trace.getLast? = some (registerRead s.cfg .sr2 v)) ∨
       (id.manufacturer ∉ s.cfg.setQmx ∧ id.manufacturer ∉ s.cfg.setQgd ∧ id.manufacturer ∈ s.cfg.setQsp ∧
          ∃ v, bitIsSet v s.cfg.crQeBit = true ∧ t.trace.getLast? = some (registerRead s.cfg .cr v)))

/-- 44_init_exit.md R149: the 4-byte negotiation, for both modes: its one or two transactions, success exactly when CR
bit 5 reflects the mode, one diagnostic on each failure, no error propagated. -/
def Obligations.NegotiationReflectsCrBitFive : Prop :=
  ∀ (mode : Mode4B) (s : State),
    PortOnly s (negotiate4B mode s).2 ∧
    ∃ evs, PortRan 0 s (negotiate4B mode s).2 evs ∧
      ((((negotiate4B mode s).1 = false ∧
          (negotiate4B mode s).2.diag = s.diag ++ [⟨.addressingNegotiation, .caught (.transport .xfer)⟩]) ∧
          (evs = [.xfer [if mode = .enter then 0xB7#8 else 0xE9#8] 0 none] ∨
           evs = [.xfer [if mode = .enter then 0xB7#8 else 0xE9#8] 0 (some []), .xfer [s.cfg.opRdcr] 1 none])) ∨
       ∃ cr, evs = [.xfer [if mode = .enter then 0xB7#8 else 0xE9#8] 0 (some []), .xfer [s.cfg.opRdcr] 1 (some [cr])] ∧
         (if cr.getLsbD 5 = decide (mode = .enter)
          then (negotiate4B mode s).1 = true ∧ (negotiate4B mode s).2.diag = s.diag
          else (negotiate4B mode s).1 = false ∧
            (negotiate4B mode s).2.diag = s.diag ++ [⟨.addressingNegotiation, .cr cr⟩]))

/-- 41_quirk_unlock.md R91: the verify-after-write routine reads the register and ends normally on a set bit;
otherwise it writes the byte it read with the bit set and reads back, and raises not-latched exactly when that read-back
shows the bit clear. Any other end is its first failing transaction or ready-poll. -/
def Obligations.QuadEnableVerifiesItsWrite : Prop :=
  ∀ (sel : RegSel) (k : Fin 8) (s : State), ∃ (o : Option BlockError) (t : State) (evs : List Event),
    setQe sel k s = (match o with | none => .ok () t | some e => .raised e t) ∧
    PortOnly s t ∧ t.diag = s.diag ++ endEvents o ∧ PortRan 0 s t evs ∧
    ReadThen s.cfg sel (fun v o evs =>
      if bitIsSet v k then o = none ∧ evs = []
      else InTurn (RegisterWriteEnds s.cfg sel (v ||| 1#8 <<< k.val))
        (ReadThen s.cfg sel fun v2 o evs =>
          evs = [] ∧ o = if bitIsSet v2 k then none else some (.quirk .notLatched)) o evs) o evs

/-! ### UNLOCK -/

/-- 41_quirk_unlock.md R105, R106 and 60_exceptions.md R171: UNLOCK in a session is the unlock engine; it ends with
status 0 and the flag set, whatever the transport answers, and changes nothing else of `S`; it logs nothing, or one
TimeoutError when its last ready-poll spent its budget. -/
def Obligations.UnlockAlwaysReturnsZero : Prop :=
  ∀ s : State, s.session.initialized = true → (s.session.unlocked = true ∨ s.session.id ≠ none) →
    ∃ (u t : State) (evs : List Event), unlockEngine { s with useq := 0 } = some u ∧
      t = { u with hpc := s.hpc + 1, statuses := s.statuses ++ [0#32] } ∧ exec .unlock s = .next t ∧
      t = { s with
        session := { s.session with unlocked := true }
        useq := t.useq, diag := t.diag, trace := t.trace, script := t.script, draws := t.draws
        hpc := s.hpc + 1
        statuses := s.statuses ++ [0#32] } ∧
      PortRan 0 s t evs ∧
      (t.diag = s.diag ∨
        t.diag = s.diag ++ [⟨.timeout, .poll⟩] ∧ ∃ before busy, busy.length = pollBudget ∧ BusyBytes s.cfg busy ∧
          evs = before ++ busy.map (statusRead s.cfg))

/-- 41_quirk_unlock.md R107: after the first run every later UNLOCK issues no transaction. -/
def Obligations.UnlockRunsItsBodyOnce : Prop :=
  (∀ s : State, s.session.initialized = true → s.session.unlocked = true →
    exec .unlock s = .next (returned 0#32 s)) ∧
  ∀ s t : State, exec .unlock s = .next t → exec .unlock t = .next (returned 0#32 t)

/-- 41_quirk_unlock.md section 2: a ships-locked manufacturer that is neither GigaDevice nor Macronix: the first UNLOCK
is one SR1 write of 0x00 and, once that is done, the extended path; the first error ends it and is all it logs. -/
def Obligations.UnlockClearsStatusRegister : Prop :=
  ∀ (s : State) (id : Ident), s.session.initialized = true → s.session.unlocked = false → s.session.id = some id →
    id.manufacturer ∈ s.cfg.setLocked → id.manufacturer ∉ s.cfg.setGd → id.manufacturer ∉ s.cfg.setMx →
    ∃ t o evs, exec .unlock s = .next t ∧ PortRan 0 s t evs ∧ t.diag = s.diag ++ endEvents o ∧
      InTurn (WriteEnds s.cfg [s.cfg.opWrsr, 0x00#8]) (ExtendedEnds s.cfg id.manufacturer) o evs

/-- 41_quirk_unlock.md section 2: Macronix: SR1 is read and written back with only its QE bit kept, and once that is
done the extended path follows; the first error ends it and is all it logs. -/
def Obligations.UnlockKeepsMacronixQuadEnable : Prop :=
  ∀ (s : State) (id : Ident), s.session.initialized = true → s.session.unlocked = false → s.session.id = some id →
    id.manufacturer ∈ s.cfg.setLocked → id.manufacturer ∉ s.cfg.setGd → id.manufacturer ∈ s.cfg.setMx →
    ∃ t o evs, exec .unlock s = .next t ∧ PortRan 0 s t evs ∧ t.diag = s.diag ++ endEvents o ∧
      InTurn (ReadThen s.cfg .sr1 fun s1 => WriteEnds s.cfg [s.cfg.opWrsr, s1 &&& (1#8 <<< s.cfg.sr1QeBit.val)])
        (ExtendedEnds s.cfg id.manufacturer) o evs

/-- 41_quirk_unlock.md section 2: GigaDevice: SR2 is read and its CMP bit cleared by a paired write only if set, then
SR1 is cleared (keeping QE where the parameters make it a Macronix byte too), then the extended path follows; the first
error ends it and is all it logs. -/
def Obligations.UnlockClearsGigaDeviceCmp : Prop :=
  ∀ (s : State) (id : Ident), s.session.initialized = true → s.session.unlocked = false → s.session.id = some id →
    id.manufacturer ∈ s.cfg.setLocked → id.manufacturer ∈ s.cfg.setGd →
    ∃ t o evs, exec .unlock s = .next t ∧ PortRan 0 s t evs ∧ t.diag = s.diag ++ endEvents o ∧
      InTurn (InTurn (CmpClearEnds s.cfg) (Sr1ClearEnds s.cfg id.manufacturer))
        (ExtendedEnds s.cfg id.manufacturer) o evs

/-- 41_quirk_unlock.md section 2: outside the ships-locked set UNLOCK writes no register: it issues nothing, or, with
the gate on and the manufacturer in its set, the global unlock's frames. -/
def Obligations.UnlockOutsideTheLockedSet : Prop :=
  ∀ (s : State) (id : Ident), s.session.initialized = true → s.session.unlocked = false → s.session.id = some id →
    id.manufacturer ∉ s.cfg.setLocked →
    ∃ t evs, exec .unlock s = .next t ∧ PortRan 0 s t evs ∧ t.diag = s.diag ∧
      (if id.manufacturer ∈ s.cfg.setGbulk ∧ s.cfg.gbulkEnabled = true then
        evs = [wrenEvent s.cfg none] ∨ evs = [wrenEvent s.cfg (some []), .xfer [s.cfg.opGbulk] 0 none] ∨
          evs = [wrenEvent s.cfg (some []), .xfer [s.cfg.opGbulk] 0 (some [])]
      else evs = [])

/-! ### READ, ERASE, WRITE -/

/-- 20_memory.md R50: an ERASE whose offset or length is no multiple of 4096 ends with the AlignmentError diagnostic
and a nonzero status, before any transaction and before the unlock engine; while no product wraps, the test is that of
the operands modulo 8. -/
def Obligations.MisalignedEraseIssuesNothing : Prop :=
  ∀ (s : State) (a c : Word), s.session.initialized = true →
    (a.toNat * 512 < 2 ^ 32 → c.toNat * 512 < 2 ^ 32 →
      ((a.toNat * 512 % 2 ^ 32 % 4096 ≠ 0 ∨ c.toNat * 512 % 2 ^ 32 % 4096 ≠ 0) ↔
        (a.toNat % 8 ≠ 0 ∨ c.toNat % 8 ≠ 0))) ∧
    ((a.toNat * 512 % 2 ^ 32 % 4096 ≠ 0 ∨ c.toNat * 512 % 2 ^ 32 % 4096 ≠ 0) →
      ∃ v, v ≠ 0#32 ∧ exec (.erase a c) s = .next { s with
        useq := 0
        draws := s.draws + 1
        diag := s.diag ++
          [⟨.alignment, .range (BitVec.ofNat 32 (a.toNat * 512)) (BitVec.ofNat 32 (c.toNat * 512))⟩]
        hpc := s.hpc + 1
        statuses := s.statuses ++ [v] })

/-- Zero-length requests once the unlock engine has run: READ, aligned ERASE and WRITE issue nothing and return 0
(43_data_path.md sections 2 to 4). -/
def Obligations.EmptyRequestsReturnZero : Prop :=
  ∀ (s : State) (a c b : Word), s.session.initialized = true → s.session.unlocked = true → byteLength c = 0#32 →
    exec (.read a c b) s = .next (returned 0#32 s) ∧
    (a.toNat % 8 = 0 → exec (.erase a c) s = .next (returned 0#32 s)) ∧
    exec (.write a c b) s = .next (returned 0#32 s)

/-- 43_data_path.md R132 and R140: an aligned ERASE runs the unlock engine and then, sector by sector in order, WREN,
SE, ready-poll; it returns 0 when all `len / 4096` sectors are done, with nothing logged after the engine, and a nonzero
status at the first failing one, with the sectors before it done, none after it issued and its error's diagnostic
(R131, 60_exceptions.md R168, R171). -/
def Obligations.EraseRunsSectorBySector : Prop :=
  ∀ (s : State) (a c : Word), s.session.initialized = true → (s.session.unlocked = true ∨ s.session.id ≠ none) →
    (byteOffset a).toNat % 4096 = 0 → (byteLength c).toNat % 4096 = 0 →
    ∃ u t evs, unlockEngine { s with useq := 0 } = some u ∧ exec (.erase a c) s = .next t ∧
      (∃ before, PortRan 0 s u before) ∧
      t = { s with
        session := { s.session with unlocked := true }
        useq := t.useq, diag := t.diag, trace := t.trace, script := t.script, draws := t.draws
        hpc := s.hpc + 1
        statuses := t.statuses } ∧
      ((t.statuses = s.statuses ++ [0#32] ∧ t.diag = u.diag ∧ PortRan 0 u t evs ∧
          WritesComplete s.cfg
          ((List.range ((byteLength c).toNat / 4096)).map fun i =>
            s.cfg.opSe :: addr3 (byteOffset a + BitVec.ofNat 32 (i * 4096))) evs) ∨
       (∃ e v, v ≠ 0#32 ∧ t.statuses = s.statuses ++ [v] ∧ t.diag = u.diag ++ e.events ∧ PortRan 1 u t evs ∧
          WritesFail s.cfg
          ((List.range ((byteLength c).toNat / 4096)).map fun i =>
            s.cfg.opSe :: addr3 (byteOffset a + BitVec.ofNat 32 (i * 4096))) e evs))

/-- 43_data_path.md R137: WRITE runs the unlock engine and then, in pieces of exactly 128 host bytes in order, WREN, PP,
ready-poll; it returns 0 when all are done, with nothing logged after the engine, and a nonzero status at the first
failing piece, with the pieces before it done, none after it issued and its error's diagnostic (R138 to R140,
60_exceptions.md R168, R171). -/
def Obligations.WriteRunsPieceByPiece : Prop :=
  ∀ (s : State) (a c b : Word), s.session.initialized = true → (s.session.unlocked = true ∨ s.session.id ≠ none) →
    RangeReadable s (b.toNat % 2 ^ s.cfg.hostAddrWidth) (byteLength c).toNat →
    ∃ u t evs, unlockEngine { s with useq := 0 } = some u ∧ exec (.write a c b) s = .next t ∧
      (∃ before, PortRan 0 s u before) ∧
      t = { s with
        session := { s.session with unlocked := true }
        useq := t.useq, diag := t.diag, trace := t.trace, script := t.script, draws := t.draws
        hpc := s.hpc + 1
        statuses := t.statuses } ∧
      ((t.statuses = s.statuses ++ [0#32] ∧ t.diag = u.diag ∧ PortRan 0 u t evs ∧
          WritesComplete s.cfg
          ((List.range ((byteLength c).toNat / 128)).map fun k =>
            s.cfg.opPp :: (addr3 (byteOffset a + BitVec.ofNat 32 (k * 128)) ++
              s.mem.readBlock (b.toNat % 2 ^ s.cfg.hostAddrWidth + k * 128) 128)) evs) ∨
       (∃ e v, v ≠ 0#32 ∧ t.statuses = s.statuses ++ [v] ∧ t.diag = u.diag ++ e.events ∧ PortRan 1 u t evs ∧
          WritesFail s.cfg
          ((List.range ((byteLength c).toNat / 128)).map fun k =>
            s.cfg.opPp :: (addr3 (byteOffset a + BitVec.ofNat 32 (k * 128)) ++
              s.mem.readBlock (b.toNat % 2 ^ s.cfg.hostAddrWidth + k * 128) 128)) e evs))

/-- 43_data_path.md R128: READ copies flash to host memory chunk by chunk: each answered chunk's bytes stand at their
host addresses; it returns 0 when all `ceil(len / 8 MiB)` chunks are answered, and -1 at the first FAILURE, with the
chunks before it copied and every byte beyond the failing chunk untouched; every byte outside the range is untouched,
nothing is logged and the unlock engine is not run. -/
def Obligations.ReadCopiesChunkByChunk : Prop :=
  ∀ (s : State) (a c b : Word), s.session.initialized = true → s.mem.wf →
    RangeWritable s (b.toNat % 2 ^ s.cfg.hostAddrWidth) (byteLength c).toNat →
    ∃ (t : State) (evs : List Event) (rxs : List (List Byte)),
      exec (.read a c b) s = .next t ∧
      t = { s with
        useq := evs.length, trace := s.trace ++ evs, script := t.script, draws := t.draws, mem := t.mem
        hpc := s.hpc + 1, statuses := t.statuses } ∧
      (∀ k rx, rxs[k]? = some rx →
        rx.length = min readChunk ((byteLength c).toNat - k * readChunk) ∧
        evs[k]? = some (.xfer (readFrame s (byteOffset a + BitVec.ofNat 32 (k * readChunk)))
          (min readChunk ((byteLength c).toNat - k * readChunk)) (some rx)) ∧
        ∀ j, j < rx.length →
          t.mem.read (b.toNat % 2 ^ s.cfg.hostAddrWidth + k * readChunk + j) = rx.getD j 0#8) ∧
      ((t.statuses = s.statuses ++ [0#32] ∧ PortRan 0 s t evs ∧
          rxs.length = ((byteLength c).toNat + readChunk - 1) / readChunk ∧
          evs.length = rxs.length ∧
          ∀ x, (x < b.toNat % 2 ^ s.cfg.hostAddrWidth ∨
              b.toNat % 2 ^ s.cfg.hostAddrWidth + (byteLength c).toNat ≤ x) → t.mem.read x = s.mem.read x) ∨
       (t.statuses = s.statuses ++ [0xFFFFFFFF#32] ∧ PortRan 1 s t evs ∧
          rxs.length < ((byteLength c).toNat + readChunk - 1) / readChunk ∧
          evs.length = rxs.length + 1 ∧
          evs[rxs.length]? = some (.xfer (readFrame s (byteOffset a + BitVec.ofNat 32 (rxs.length * readChunk)))
            (min readChunk ((byteLength c).toNat - rxs.length * readChunk)) none) ∧
          ∀ x, (x < b.toNat % 2 ^ s.cfg.hostAddrWidth ∨
              b.toNat % 2 ^ s.cfg.hostAddrWidth + rxs.length * readChunk +
                min readChunk ((byteLength c).toNat - rxs.length * readChunk) ≤ x) → t.mem.read x = s.mem.read x))

/-- 70_reset_and_hazards.md R183 (valid buffers): in a session READ is stuck exactly when it reaches a chunk that is
answered and whose host range is not all provided for writing, every chunk before it answered and provided; WRITE exactly
when it reaches a piece whose WREN is answered and whose 128 host bytes are not all provided for reading. That stuck is
the fault `hostMemory` is the model's reading (log 9), and so is that no address from 2^HOST_ADDR_WIDTH on is provided
(log 11). -/
def Obligations.UnprovidedHostMemoryIsStuck : Prop :=
  ∀ (s : State) (a c b : Word), s.session.initialized = true →
    (exec (.read a c b) s = .fault .hostMemory ↔ ∃ k, k * readChunk < (byteLength c).toNat ∧
      (∀ j, j ≤ k → (answer { s with script := s.script.drop j, draws := s.draws + j }
        (min readChunk ((byteLength c).toNat - j * readChunk))).isSome = true) ∧
      RangeWritable s (b.toNat % 2 ^ s.cfg.hostAddrWidth) (k * readChunk) ∧
      ¬ RangeWritable s (b.toNat % 2 ^ s.cfg.hostAddrWidth + k * readChunk)
        (min readChunk ((byteLength c).toNat - k * readChunk))) ∧
    (exec (.write a c b) s = .fault .hostMemory ↔ ∃ k u v, k * 128 < (byteLength c).toNat ∧
      unlockEngine { s with useq := 0 } = some u ∧
      program (byteOffset a) (k * 128) (b.toNat % 2 ^ s.cfg.hostAddrWidth) u = some (.ok () v) ∧
      (answer v 0).isSome = true ∧
      ¬ RangeReadable s (b.toNat % 2 ^ s.cfg.hostAddrWidth + k * 128) 128)

/-! ### The transport's answers -/

/-- 00_scope.md R8, 40_transport_registers.md R70, R71: the answers an instruction records are the transport's, in order,
each taken once; at most one further value is drawn. The form of the answers is the model's choice (log 2, log 3). -/
def Obligations.EveryAnswerIsTheTransports : Prop :=
  ∀ (i : Instr) (s t : State), exec i s = .next t → ∃ own evs, own ≤ 1 ∧ PortRan own s t evs
end

