-- ==== Sys2Proof/Laws/Chunks.lean ====
section
/-! SUPPORT. How a request is cut into chunks, for any chunk size. -/

namespace Sys2Proof.Machine

theorem chunks_length (size len : Nat) : (chunks size len).length = (len + size - 1) / size := by
  rw [chunks, List.length_map, List.length_range]

/-- Chunk `k`: its position and its length. -/
theorem chunks_getElem? {size len k : Nat} (h : k < (len + size - 1) / size) :
    (chunks size len)[k]? = some (k * size, min size (len - k * size)) := by
  rw [chunks, List.getElem?_map, List.getElem?_range h, Option.map_some]

/-- A chunk stands at a multiple of the size, inside the request. -/
theorem chunks_mem {size len : Nat} {p : Nat × Nat} (h : p ∈ chunks size len) :
    ∃ k, k < (len + size - 1) / size ∧ p = (k * size, min size (len - k * size)) := by
  obtain ⟨k, hk, rfl⟩ := List.mem_map.mp h
  exact ⟨k, List.mem_range.mp hk, rfl⟩

theorem chunks_sum_range (size len : Nat) : ∀ m,
    ((List.range m).map fun k => min size (len - k * size)).sum = min len (m * size) := by
  intro m
  induction m with
  | zero => simp
  | succ m ih =>
    rw [List.range_succ, List.map_append, List.sum_append, ih, Nat.succ_mul]
    simp only [List.map_cons, List.map_nil, List.sum_cons, List.sum_nil]
    omega

end Sys2Proof.Machine
end

