-- ==== Sys2Proof/Laws/State.lean ====
section
/-! SUPPORT. The field of each named state update, one lemma for each field and update. -/

namespace Sys2Proof.Machine

/-! ### addDiag -/

@[simp] theorem addDiag_cfg (d : List Diag) (s : State) : (addDiag d s).cfg = s.cfg := rfl
@[simp] theorem addDiag_session (d : List Diag) (s : State) : (addDiag d s).session = s.session := rfl
@[simp] theorem addDiag_hpc (d : List Diag) (s : State) : (addDiag d s).hpc = s.hpc := rfl
@[simp] theorem addDiag_useq (d : List Diag) (s : State) : (addDiag d s).useq = s.useq := rfl
@[simp] theorem addDiag_diag (d : List Diag) (s : State) : (addDiag d s).diag = s.diag ++ d := rfl
@[simp] theorem addDiag_statuses (d : List Diag) (s : State) : (addDiag d s).statuses = s.statuses := rfl
@[simp] theorem addDiag_trace (d : List Diag) (s : State) : (addDiag d s).trace = s.trace := rfl
@[simp] theorem addDiag_bootCfg (d : List Diag) (s : State) : (addDiag d s).bootCfg = s.bootCfg := rfl
@[simp] theorem addDiag_program (d : List Diag) (s : State) : (addDiag d s).program = s.program := rfl
@[simp] theorem addDiag_request (d : List Diag) (s : State) : (addDiag d s).request = s.request := rfl
@[simp] theorem addDiag_result (d : List Diag) (s : State) : (addDiag d s).result = s.result := rfl
@[simp] theorem addDiag_mem (d : List Diag) (s : State) : (addDiag d s).mem = s.mem := rfl
@[simp] theorem addDiag_hostMap (d : List Diag) (s : State) : (addDiag d s).hostMap = s.hostMap := rfl
@[simp] theorem addDiag_script (d : List Diag) (s : State) : (addDiag d s).script = s.script := rfl
@[simp] theorem addDiag_draws (d : List Diag) (s : State) : (addDiag d s).draws = s.draws := rfl

/-! ### afterAnswer -/

@[simp] theorem afterAnswer_cfg (s : State) : (afterAnswer s).cfg = s.cfg := rfl
@[simp] theorem afterAnswer_session (s : State) : (afterAnswer s).session = s.session := rfl
@[simp] theorem afterAnswer_hpc (s : State) : (afterAnswer s).hpc = s.hpc := rfl
@[simp] theorem afterAnswer_useq (s : State) : (afterAnswer s).useq = s.useq := rfl
@[simp] theorem afterAnswer_diag (s : State) : (afterAnswer s).diag = s.diag := rfl
@[simp] theorem afterAnswer_statuses (s : State) : (afterAnswer s).statuses = s.statuses := rfl
@[simp] theorem afterAnswer_trace (s : State) : (afterAnswer s).trace = s.trace := rfl
@[simp] theorem afterAnswer_bootCfg (s : State) : (afterAnswer s).bootCfg = s.bootCfg := rfl
@[simp] theorem afterAnswer_program (s : State) : (afterAnswer s).program = s.program := rfl
@[simp] theorem afterAnswer_request (s : State) : (afterAnswer s).request = s.request := rfl
@[simp] theorem afterAnswer_result (s : State) : (afterAnswer s).result = s.result := rfl
@[simp] theorem afterAnswer_mem (s : State) : (afterAnswer s).mem = s.mem := rfl
@[simp] theorem afterAnswer_hostMap (s : State) : (afterAnswer s).hostMap = s.hostMap := rfl
@[simp] theorem afterAnswer_script (s : State) : (afterAnswer s).script = s.script.tail := rfl
@[simp] theorem afterAnswer_draws (s : State) : (afterAnswer s).draws = s.draws + 1 := rfl

/-! ### afterXfer -/

@[simp] theorem afterXfer_cfg (tx : List Byte) (n : Nat) (s : State) : (afterXfer tx n s).cfg = s.cfg := rfl
@[simp] theorem afterXfer_session (tx : List Byte) (n : Nat) (s : State) : (afterXfer tx n s).session = s.session := rfl
@[simp] theorem afterXfer_hpc (tx : List Byte) (n : Nat) (s : State) : (afterXfer tx n s).hpc = s.hpc := rfl
@[simp] theorem afterXfer_useq (tx : List Byte) (n : Nat) (s : State) : (afterXfer tx n s).useq = s.useq + 1 := rfl
@[simp] theorem afterXfer_diag (tx : List Byte) (n : Nat) (s : State) : (afterXfer tx n s).diag = s.diag := rfl
@[simp] theorem afterXfer_statuses (tx : List Byte) (n : Nat) (s : State) : (afterXfer tx n s).statuses = s.statuses := rfl
@[simp] theorem afterXfer_trace (tx : List Byte) (n : Nat) (s : State) : (afterXfer tx n s).trace = s.trace ++ [.xfer tx n (answer s n)] := rfl
@[simp] theorem afterXfer_bootCfg (tx : List Byte) (n : Nat) (s : State) : (afterXfer tx n s).bootCfg = s.bootCfg := rfl
@[simp] theorem afterXfer_program (tx : List Byte) (n : Nat) (s : State) : (afterXfer tx n s).program = s.program := rfl
@[simp] theorem afterXfer_request (tx : List Byte) (n : Nat) (s : State) : (afterXfer tx n s).request = s.request := rfl
@[simp] theorem afterXfer_result (tx : List Byte) (n : Nat) (s : State) : (afterXfer tx n s).result = s.result := rfl
@[simp] theorem afterXfer_mem (tx : List Byte) (n : Nat) (s : State) : (afterXfer tx n s).mem = s.mem := rfl
@[simp] theorem afterXfer_hostMap (tx : List Byte) (n : Nat) (s : State) : (afterXfer tx n s).hostMap = s.hostMap := rfl
@[simp] theorem afterXfer_script (tx : List Byte) (n : Nat) (s : State) : (afterXfer tx n s).script = s.script.tail := rfl
@[simp] theorem afterXfer_draws (tx : List Byte) (n : Nat) (s : State) : (afterXfer tx n s).draws = s.draws + 1 := rfl

/-! ### transportTeardown -/

@[simp] theorem transportTeardown_cfg (s : State) : (transportTeardown s).cfg = s.cfg := rfl
@[simp] theorem transportTeardown_session (s : State) : (transportTeardown s).session = { s.session with transportUp := false } := rfl
@[simp] theorem transportTeardown_hpc (s : State) : (transportTeardown s).hpc = s.hpc := rfl
@[simp] theorem transportTeardown_useq (s : State) : (transportTeardown s).useq = s.useq := rfl
@[simp] theorem transportTeardown_diag (s : State) : (transportTeardown s).diag = s.diag := rfl
@[simp] theorem transportTeardown_statuses (s : State) : (transportTeardown s).statuses = s.statuses := rfl
@[simp] theorem transportTeardown_trace (s : State) : (transportTeardown s).trace = s.trace ++ [.transportTeardown] := rfl
@[simp] theorem transportTeardown_bootCfg (s : State) : (transportTeardown s).bootCfg = s.bootCfg := rfl
@[simp] theorem transportTeardown_program (s : State) : (transportTeardown s).program = s.program := rfl
@[simp] theorem transportTeardown_request (s : State) : (transportTeardown s).request = s.request := rfl
@[simp] theorem transportTeardown_result (s : State) : (transportTeardown s).result = s.result := rfl
@[simp] theorem transportTeardown_mem (s : State) : (transportTeardown s).mem = s.mem := rfl
@[simp] theorem transportTeardown_hostMap (s : State) : (transportTeardown s).hostMap = s.hostMap := rfl
@[simp] theorem transportTeardown_script (s : State) : (transportTeardown s).script = s.script := rfl
@[simp] theorem transportTeardown_draws (s : State) : (transportTeardown s).draws = s.draws := rfl

/-! ### beginCommand -/

@[simp] theorem beginCommand_cfg (s : State) : (beginCommand s).cfg = s.cfg := rfl
@[simp] theorem beginCommand_session (s : State) : (beginCommand s).session = s.session := rfl
@[simp] theorem beginCommand_hpc (s : State) : (beginCommand s).hpc = s.hpc := rfl
@[simp] theorem beginCommand_useq (s : State) : (beginCommand s).useq = 0 := rfl
@[simp] theorem beginCommand_diag (s : State) : (beginCommand s).diag = s.diag := rfl
@[simp] theorem beginCommand_statuses (s : State) : (beginCommand s).statuses = s.statuses := rfl
@[simp] theorem beginCommand_trace (s : State) : (beginCommand s).trace = s.trace := rfl
@[simp] theorem beginCommand_bootCfg (s : State) : (beginCommand s).bootCfg = s.bootCfg := rfl
@[simp] theorem beginCommand_program (s : State) : (beginCommand s).program = s.program := rfl
@[simp] theorem beginCommand_request (s : State) : (beginCommand s).request = s.request := rfl
@[simp] theorem beginCommand_result (s : State) : (beginCommand s).result = s.result := rfl
@[simp] theorem beginCommand_mem (s : State) : (beginCommand s).mem = s.mem := rfl
@[simp] theorem beginCommand_hostMap (s : State) : (beginCommand s).hostMap = s.hostMap := rfl
@[simp] theorem beginCommand_script (s : State) : (beginCommand s).script = s.script := rfl
@[simp] theorem beginCommand_draws (s : State) : (beginCommand s).draws = s.draws := rfl

/-! ### returnStatus -/

@[simp] theorem returnStatus_cfg (v : Word) (s : State) : (returnStatus v s).cfg = s.cfg := rfl
@[simp] theorem returnStatus_session (v : Word) (s : State) : (returnStatus v s).session = s.session := rfl
@[simp] theorem returnStatus_hpc (v : Word) (s : State) : (returnStatus v s).hpc = s.hpc + 1 := rfl
@[simp] theorem returnStatus_useq (v : Word) (s : State) : (returnStatus v s).useq = s.useq := rfl
@[simp] theorem returnStatus_diag (v : Word) (s : State) : (returnStatus v s).diag = s.diag := rfl
@[simp] theorem returnStatus_statuses (v : Word) (s : State) : (returnStatus v s).statuses = s.statuses ++ [v] := rfl
@[simp] theorem returnStatus_trace (v : Word) (s : State) : (returnStatus v s).trace = s.trace := rfl
@[simp] theorem returnStatus_bootCfg (v : Word) (s : State) : (returnStatus v s).bootCfg = s.bootCfg := rfl
@[simp] theorem returnStatus_program (v : Word) (s : State) : (returnStatus v s).program = s.program := rfl
@[simp] theorem returnStatus_request (v : Word) (s : State) : (returnStatus v s).request = s.request := rfl
@[simp] theorem returnStatus_result (v : Word) (s : State) : (returnStatus v s).result = s.result := rfl
@[simp] theorem returnStatus_mem (v : Word) (s : State) : (returnStatus v s).mem = s.mem := rfl
@[simp] theorem returnStatus_hostMap (v : Word) (s : State) : (returnStatus v s).hostMap = s.hostMap := rfl
@[simp] theorem returnStatus_script (v : Word) (s : State) : (returnStatus v s).script = s.script := rfl
@[simp] theorem returnStatus_draws (v : Word) (s : State) : (returnStatus v s).draws = s.draws := rfl

/-! ### returnFailCode -/

@[simp] theorem returnFailCode_cfg (s : State) : (returnFailCode s).cfg = s.cfg := rfl
@[simp] theorem returnFailCode_session (s : State) : (returnFailCode s).session = s.session := rfl
@[simp] theorem returnFailCode_hpc (s : State) : (returnFailCode s).hpc = s.hpc + 1 := rfl
@[simp] theorem returnFailCode_useq (s : State) : (returnFailCode s).useq = s.useq := rfl
@[simp] theorem returnFailCode_diag (s : State) : (returnFailCode s).diag = s.diag := rfl
@[simp] theorem returnFailCode_statuses (s : State) : (returnFailCode s).statuses = s.statuses ++ [failCode s.draws] := rfl
@[simp] theorem returnFailCode_trace (s : State) : (returnFailCode s).trace = s.trace := rfl
@[simp] theorem returnFailCode_bootCfg (s : State) : (returnFailCode s).bootCfg = s.bootCfg := rfl
@[simp] theorem returnFailCode_program (s : State) : (returnFailCode s).program = s.program := rfl
@[simp] theorem returnFailCode_request (s : State) : (returnFailCode s).request = s.request := rfl
@[simp] theorem returnFailCode_result (s : State) : (returnFailCode s).result = s.result := rfl
@[simp] theorem returnFailCode_mem (s : State) : (returnFailCode s).mem = s.mem := rfl
@[simp] theorem returnFailCode_hostMap (s : State) : (returnFailCode s).hostMap = s.hostMap := rfl
@[simp] theorem returnFailCode_script (s : State) : (returnFailCode s).script = s.script := rfl
@[simp] theorem returnFailCode_draws (s : State) : (returnFailCode s).draws = s.draws + 1 := rfl

/-! ### scramble -/

@[simp] theorem scramble_cfg (s : State) (a n : Nat) : (scramble s a n).cfg = s.cfg := rfl
@[simp] theorem scramble_session (s : State) (a n : Nat) : (scramble s a n).session = s.session := rfl
@[simp] theorem scramble_hpc (s : State) (a n : Nat) : (scramble s a n).hpc = s.hpc := rfl
@[simp] theorem scramble_useq (s : State) (a n : Nat) : (scramble s a n).useq = s.useq := rfl
@[simp] theorem scramble_diag (s : State) (a n : Nat) : (scramble s a n).diag = s.diag := rfl
@[simp] theorem scramble_statuses (s : State) (a n : Nat) : (scramble s a n).statuses = s.statuses := rfl
@[simp] theorem scramble_trace (s : State) (a n : Nat) : (scramble s a n).trace = s.trace := rfl
@[simp] theorem scramble_bootCfg (s : State) (a n : Nat) : (scramble s a n).bootCfg = s.bootCfg := rfl
@[simp] theorem scramble_program (s : State) (a n : Nat) : (scramble s a n).program = s.program := rfl
@[simp] theorem scramble_request (s : State) (a n : Nat) : (scramble s a n).request = s.request := rfl
@[simp] theorem scramble_result (s : State) (a n : Nat) : (scramble s a n).result = s.result := rfl
@[simp] theorem scramble_mem (s : State) (a n : Nat) : (scramble s a n).mem = s.mem.writeBlock a (freeBytes s.draws 0 n) := rfl
@[simp] theorem scramble_hostMap (s : State) (a n : Nat) : (scramble s a n).hostMap = s.hostMap := rfl
@[simp] theorem scramble_script (s : State) (a n : Nat) : (scramble s a n).script = s.script := rfl
@[simp] theorem scramble_draws (s : State) (a n : Nat) : (scramble s a n).draws = s.draws + 1 := rfl

/-! ### commit -/

@[simp] theorem commit_cfg (op : Byte) (w : AddrWidth) (s : State) : (commit op w s).cfg = s.cfg := rfl
@[simp] theorem commit_session (op : Byte) (w : AddrWidth) (s : State) : (commit op w s).session = { s.session with readOp := op, addrWidth := w, initialized := true } := rfl
@[simp] theorem commit_hpc (op : Byte) (w : AddrWidth) (s : State) : (commit op w s).hpc = s.hpc := rfl
@[simp] theorem commit_useq (op : Byte) (w : AddrWidth) (s : State) : (commit op w s).useq = s.useq := rfl
@[simp] theorem commit_diag (op : Byte) (w : AddrWidth) (s : State) : (commit op w s).diag = s.diag := rfl
@[simp] theorem commit_statuses (op : Byte) (w : AddrWidth) (s : State) : (commit op w s).statuses = s.statuses := rfl
@[simp] theorem commit_trace (op : Byte) (w : AddrWidth) (s : State) : (commit op w s).trace = s.trace := rfl
@[simp] theorem commit_bootCfg (op : Byte) (w : AddrWidth) (s : State) : (commit op w s).bootCfg = s.bootCfg := rfl
@[simp] theorem commit_program (op : Byte) (w : AddrWidth) (s : State) : (commit op w s).program = s.program := rfl
@[simp] theorem commit_request (op : Byte) (w : AddrWidth) (s : State) : (commit op w s).request = s.request := rfl
@[simp] theorem commit_result (op : Byte) (w : AddrWidth) (s : State) : (commit op w s).result = s.result := rfl
@[simp] theorem commit_mem (op : Byte) (w : AddrWidth) (s : State) : (commit op w s).mem = s.mem := rfl
@[simp] theorem commit_hostMap (op : Byte) (w : AddrWidth) (s : State) : (commit op w s).hostMap = s.hostMap := rfl
@[simp] theorem commit_script (op : Byte) (w : AddrWidth) (s : State) : (commit op w s).script = s.script := rfl
@[simp] theorem commit_draws (op : Byte) (w : AddrWidth) (s : State) : (commit op w s).draws = s.draws := rfl

/-! ### clearRequest -/

@[simp] theorem clearRequest_cfg (s : State) : (clearRequest s).cfg = s.cfg := rfl
@[simp] theorem clearRequest_session (s : State) : (clearRequest s).session = s.session := rfl
@[simp] theorem clearRequest_hpc (s : State) : (clearRequest s).hpc = s.hpc := rfl
@[simp] theorem clearRequest_useq (s : State) : (clearRequest s).useq = s.useq := rfl
@[simp] theorem clearRequest_diag (s : State) : (clearRequest s).diag = s.diag := rfl
@[simp] theorem clearRequest_statuses (s : State) : (clearRequest s).statuses = s.statuses := rfl
@[simp] theorem clearRequest_trace (s : State) : (clearRequest s).trace = s.trace := rfl
@[simp] theorem clearRequest_bootCfg (s : State) : (clearRequest s).bootCfg = s.bootCfg := rfl
@[simp] theorem clearRequest_program (s : State) : (clearRequest s).program = s.program := rfl
@[simp] theorem clearRequest_request (s : State) : (clearRequest s).request = none := rfl
@[simp] theorem clearRequest_result (s : State) : (clearRequest s).result = s.result := rfl
@[simp] theorem clearRequest_mem (s : State) : (clearRequest s).mem = s.mem := rfl
@[simp] theorem clearRequest_hostMap (s : State) : (clearRequest s).hostMap = s.hostMap := rfl
@[simp] theorem clearRequest_script (s : State) : (clearRequest s).script = s.script := rfl
@[simp] theorem clearRequest_draws (s : State) : (clearRequest s).draws = s.draws := rfl

end Sys2Proof.Machine
end

