-- ==== Sys2Proof/Laws/Port.lean ====
section
/-! SUPPORT. What the transport operations and the register accessors can do, said once for each. -/

namespace Sys2Proof.Machine

/-! ### PortOnly and FrameOnly -/

theorem portOnly_refl (s : State) : PortOnly s s := rfl

theorem portOnly_trans {s t u : State} (h : PortOnly s t) (k : PortOnly t u) : PortOnly s u := by
  unfold PortOnly at *; rw [k, h]

@[simp] theorem addDiag_nil (s : State) : addDiag [] s = s := by simp [addDiag]

theorem portOnly_addDiag (d : List Diag) (s : State) : PortOnly s (addDiag d s) := rfl

theorem portOnly_afterXfer (tx : List Byte) (n : Nat) (s : State) : PortOnly s (afterXfer tx n s) := rfl

theorem portOnly_cfg {s t : State} (h : PortOnly s t) : t.cfg = s.cfg := by rw [h]
theorem portOnly_session {s t : State} (h : PortOnly s t) : t.session = s.session := by rw [h]
theorem portOnly_mem {s t : State} (h : PortOnly s t) : t.mem = s.mem := by rw [h]
theorem portOnly_hpc {s t : State} (h : PortOnly s t) : t.hpc = s.hpc := by rw [h]
theorem portOnly_statuses {s t : State} (h : PortOnly s t) : t.statuses = s.statuses := by rw [h]

/-! ### Sequencing -/

@[simp] theorem res_bind_ok {α β : Type} (a : α) (s : State) (f : α → State → Res β) :
    (Res.ok a s).bind f = f a s := rfl

@[simp] theorem res_bind_raised {α β : Type} (e : BlockError) (s : State) (f : α → State → Res β) :
    (Res.raised e s : Res α).bind f = .raised e s := rfl

theorem res_bind_eq_ok {α β : Type} {r : Res α} {f : α → State → Res β} {b : β} {t : State}
    (h : r.bind f = .ok b t) : ∃ a u, r = .ok a u ∧ f a u = .ok b t := by
  cases r with
  | ok a u => exact ⟨a, u, rfl, h⟩
  | raised e u => cases h

theorem res_bind_eq_raised {α β : Type} {r : Res α} {f : α → State → Res β} {e : BlockError} {t : State}
    (h : r.bind f = .raised e t) : r = .raised e t ∨ ∃ a u, r = .ok a u ∧ f a u = .raised e t := by
  cases r with
  | ok a u => exact .inr ⟨a, u, rfl, h⟩
  | raised e' u => cases h; exact .inl rfl

/-! ### PortRan -/

theorem answeredFrom_congr {s t : State} (hs : s.script = t.script) (hd : s.draws = t.draws) (evs : List Event) :
    AnsweredFrom s evs ↔ AnsweredFrom t evs := by
  induction evs generalizing s t with
  | nil => exact Iff.rfl
  | cons e evs ih =>
    cases e with
    | xfer tx n rx =>
      have ha : answer s n = answer t n := by unfold answer; rw [hs, hd]
      simp only [AnsweredFrom, ha]
      rw [ih (s := afterAnswer s) (t := afterAnswer t) (by simp [hs]) (by simp [hd])]
    | transportInit ok =>
      have ha : initAnswer s = initAnswer t := by unfold initAnswer; rw [hs, hd]
      simp only [AnsweredFrom, ha]
      rw [ih (s := afterAnswer s) (t := afterAnswer t) (by simp [hs]) (by simp [hd])]
    | transportTeardown => exact ih hs hd

theorem answersIn_append (evs evs' : List Event) : answersIn (evs ++ evs') = answersIn evs + answersIn evs' := by
  induction evs with
  | nil => simp [answersIn]
  | cons e evs ih => cases e <;> simp only [List.cons_append, answersIn, ih] <;> omega

/-- Answers to one list of events and then to another. -/
theorem answeredFrom_append {s t : State} {evs evs' : List Event} (h : AnsweredFrom s evs)
    (hs : t.script = s.script.drop (answersIn evs)) (hd : t.draws = s.draws + answersIn evs)
    (k : AnsweredFrom t evs') : AnsweredFrom s (evs ++ evs') := by
  induction evs generalizing s with
  | nil => exact (answeredFrom_congr (by simpa [answersIn] using hs) (by simpa [answersIn] using hd) evs').mp k
  | cons e evs ih =>
    cases e with
    | xfer tx n rx =>
      exact ⟨h.1, ih h.2 (by rw [hs]; simp [answersIn]) (by rw [hd]; simp [answersIn]; omega)⟩
    | transportInit ok =>
      exact ⟨h.1, ih h.2 (by rw [hs]; simp [answersIn]) (by rw [hd]; simp [answersIn]; omega)⟩
    | transportTeardown => exact ih h hs hd

theorem portRan_refl (s : State) : PortRan 0 s s [] := ⟨by simp, trivial, rfl, rfl⟩

theorem portRan_trans {k : Nat} {s t u : State} {evs evs' : List Event} (h : PortRan 0 s t evs)
    (g : PortRan k t u evs') : PortRan k s u (evs ++ evs') :=
  ⟨by rw [g.trace, h.trace, List.append_assoc], answeredFrom_append h.answers h.script h.draws g.answers,
    by rw [g.script, h.script, List.drop_drop, answersIn_append],
    by have := g.draws; have := h.draws; rw [answersIn_append]; omega⟩

theorem portRan_xfer (tx : List Byte) (n : Nat) (s : State) :
    PortRan 0 s (afterXfer tx n s) [.xfer tx n (answer s n)] :=
  ⟨rfl, ⟨rfl, trivial⟩, by simp [answersIn], rfl⟩

/-- Some events lead from `s` to `t`, with nothing else drawn. -/
def Asked (s t : State) : Prop := ∃ evs, PortRan 0 s t evs

theorem asked_refl (s : State) : Asked s s := ⟨[], portRan_refl s⟩

theorem asked_trans {s t u : State} (h : Asked s t) (g : Asked t u) : Asked s u :=
  ⟨_, portRan_trans h.choose_spec g.choose_spec⟩

theorem asked_grows {s t : State} (h : Asked s t) : s.trace <+: t.trace := by
  obtain ⟨evs, h⟩ := h
  exact ⟨evs, h.trace.symm⟩

/-- The port's events depend on the trace, the script and the draws alone. -/
theorem portRan_congr {k : Nat} {s s' t t' : State} {evs : List Event} (h : PortRan k s t evs)
    (e1 : s'.trace = s.trace) (e2 : s'.script = s.script) (e3 : s'.draws = s.draws)
    (f1 : t'.trace = t.trace) (f2 : t'.script = t.script) (f3 : t'.draws = t.draws) : PortRan k s' t' evs :=
  ⟨by rw [f1, e1, h.trace], (answeredFrom_congr e2 e3 evs).mpr h.answers, by rw [f2, e2, h.script],
    by rw [f3, e3, h.draws]⟩

/-- What the port does not touch does not matter to it. -/
theorem asked_congr {s s' t t' : State} (h : Asked s t) (e1 : s'.trace = s.trace) (e2 : s'.script = s.script)
    (e3 : s'.draws = s.draws) (f1 : t'.trace = t.trace) (f2 : t'.script = t.script) (f3 : t'.draws = t.draws) :
    Asked s' t' := by
  obtain ⟨evs, h⟩ := h
  exact ⟨evs, portRan_congr h e1 e2 e3 f1 f2 f3⟩

/-- The events are those by which the trace grew. -/
theorem portRan_of_trace {s t : State} {evs : List Event} (h : Asked s t) (ht : t.trace = s.trace ++ evs) :
    PortRan 0 s t evs := by
  obtain ⟨evs', h⟩ := h
  rwa [List.append_cancel_left (h.trace.symm.trans ht)] at h

/-! ### One transaction -/

theorem fitBytes_length (d n : Nat) (rx : List Byte) : (fitBytes d n rx).length = n := by
  simp only [fitBytes, freeBytes, List.length_append, List.length_take, List.length_map, List.length_range']
  omega

/-- A scripted answer of the requested count is given as it stands (40_transport_registers.md R70). -/
theorem fitBytes_exact {d n : Nat} {rx : List Byte} (h : rx.length = n) : fitBytes d n rx = rx := by
  subst h; simp [fitBytes, freeBytes]

/-- A success answer has the requested count (40_transport_registers.md R70). -/
theorem answer_length {s : State} {n : Nat} {rx : List Byte} (h : answer s n = some rx) : rx.length = n := by
  unfold answer at h
  split at h
  · cases h; exact fitBytes_length _ _ _
  · cases h
  · split at h
    · cases h; exact fitBytes_length _ _ _
    · cases h

/-- `Xfer` answers the transport's bytes, of the requested count, after exactly one transaction. -/
theorem xfer_ok {tx : List Byte} {n : Nat} {s t : State} {rx : List Byte} (h : xfer tx n s = .ok rx t) :
    answer s n = some rx ∧ rx.length = n ∧ t = afterXfer tx n s := by
  unfold xfer at h
  split at h
  · cases h; rename_i ha; exact ⟨ha, answer_length ha, rfl⟩
  · cases h

/-- `Xfer` raises exactly TransportError, on FAILURE, after exactly one transaction and with no diagnostic. -/
theorem xfer_raised {tx : List Byte} {n : Nat} {s t : State} {e : BlockError} (h : xfer tx n s = .raised e t) :
    answer s n = none ∧ e = .transport .xfer ∧ t = afterXfer tx n s := by
  unfold xfer raise at h
  split at h
  · cases h
  · cases h; rename_i ha; exact ⟨ha, rfl, by simp [BlockError.events]⟩

/-- The event of a transaction that was answered. -/
theorem xfer_ok_trace {tx : List Byte} {n : Nat} {s t : State} {rx : List Byte} (h : xfer tx n s = .ok rx t) :
    PortOnly s t ∧ t.diag = s.diag ∧ t.trace = s.trace ++ [.xfer tx n (some rx)] := by
  obtain ⟨ha, -, rfl⟩ := xfer_ok h
  exact ⟨rfl, rfl, by simp [ha]⟩

/-- The event of a transaction that failed. -/
theorem xfer_raised_trace {tx : List Byte} {n : Nat} {s t : State} {e : BlockError} (h : xfer tx n s = .raised e t) :
    e = .transport .xfer ∧ PortOnly s t ∧ t.diag = s.diag ∧ t.trace = s.trace ++ [.xfer tx n none] := by
  obtain ⟨ha, he, rfl⟩ := xfer_raised h
  exact ⟨he, rfl, rfl, by simp [ha]⟩

/-! ### Register reads -/

theorem single_byte {rx : List Byte} (h : rx.length = 1) : rx = [firstByte rx] := by
  match rx, h with
  | [b], _ => rfl

/-- `ReadReg(sel)`: one `F_RR` transaction with the selector's opcode, whose one byte it answers. -/
theorem readReg_ok {sel : RegSel} {s t : State} {v : Byte} (h : readReg sel s = .ok v t) :
    PortOnly s t ∧ t.diag = s.diag ∧ t.trace = s.trace ++ [.xfer [readRegOp s.cfg sel] 1 (some [v])] := by
  have key : ∀ op, ((xfer [op] 1 s).bind fun rx s => Res.ok (firstByte rx) s) = .ok v t →
      PortOnly s t ∧ t.diag = s.diag ∧ t.trace = s.trace ++ [.xfer [op] 1 (some [v])] := by
    intro op h
    obtain ⟨rx, u, hx, he⟩ := res_bind_eq_ok h
    cases he
    obtain ⟨hp, hd, ht⟩ := xfer_ok_trace hx
    rw [single_byte (xfer_ok hx).2.1] at ht
    exact ⟨hp, hd, ht⟩
  cases sel <;> exact key _ h

theorem readReg_raised {sel : RegSel} {s t : State} {e : BlockError} (h : readReg sel s = .raised e t) :
    e = .transport .xfer ∧ PortOnly s t ∧ t.diag = s.diag ∧
      t.trace = s.trace ++ [.xfer [readRegOp s.cfg sel] 1 none] := by
  have key : ∀ op, ((xfer [op] 1 s).bind fun rx s => Res.ok (firstByte rx) s) = .raised e t →
      e = .transport .xfer ∧ PortOnly s t ∧ t.diag = s.diag ∧ t.trace = s.trace ++ [.xfer [op] 1 none] := by
    intro op h
    rcases res_bind_eq_raised h with hx | ⟨rx, u, -, he⟩
    · exact xfer_raised_trace hx
    · cases he
  cases sel <;> exact key _ h

theorem readSr1_eq (s : State) : readSr1 s = readReg .sr1 s := rfl

/-! ### The ready-poll -/

theorem busyBytes_nil (c : Config) : BusyBytes c [] := fun _ h => nomatch h

/-- What a ready-poll with `k` attempts left does when it ends normally. -/
theorem pollFor_ok {k : Nat} : ∀ {s t : State}, pollFor k s = .ok () t →
    PortOnly s t ∧ t.diag = s.diag ∧ ∃ (busy : List Byte) (v : Byte), busy.length < k ∧ BusyBytes s.cfg busy ∧
      bitIsSet v s.cfg.sr1WipBit = false ∧ t.trace = s.trace ++ (busy.map (statusRead s.cfg) ++ [statusRead s.cfg v]) := by
  induction k with
  | zero => intro s t h; cases h
  | succ k ih =>
    intro s t h
    obtain ⟨v, u, hr, hc⟩ := res_bind_eq_ok h
    obtain ⟨hp, hd, ht⟩ := readReg_ok (readSr1_eq s ▸ hr)
    have hcfg : u.cfg = s.cfg := portOnly_cfg hp
    split at hc
    · rename_i hv
      obtain ⟨hp', hd', busy, w, hlen, hb, hw, htr⟩ := ih hc
      rw [hcfg] at hb hw htr hv
      refine ⟨portOnly_trans hp hp', hd'.trans hd, v :: busy, w, by simpa using hlen, ?_, hw, ?_⟩
      · intro b hb'
        rcases List.mem_cons.mp hb' with rfl | hb'
        · exact hv
        · exact hb b hb'
      · rw [htr, ht]; simp [statusRead, readRegOp]
    · rename_i hv
      cases hc
      refine ⟨hp, hd, [], v, by simp, busyBytes_nil _, ?_, ?_⟩
      · rw [hcfg] at hv; exact Bool.eq_false_iff.mpr hv
      · rw [ht]; simp [statusRead, readRegOp]

/-- What a ready-poll with `k` attempts left does when it raises. -/
theorem pollFor_raised {k : Nat} : ∀ {s t : State} {e : BlockError}, pollFor k s = .raised e t →
    PortOnly s t ∧ t.diag = s.diag ++ e.events ∧ ∃ busy : List Byte, BusyBytes s.cfg busy ∧
      ((e = .transport .xfer ∧ busy.length < k ∧
          t.trace = s.trace ++ (busy.map (statusRead s.cfg) ++ [.xfer [s.cfg.opRdsr1] 1 none])) ∨
       (e = .timeout ∧ busy.length = k ∧ t.trace = s.trace ++ busy.map (statusRead s.cfg))) := by
  induction k with
  | zero =>
    intro s t e h
    cases h
    exact ⟨rfl, rfl, [], busyBytes_nil _, .inr ⟨rfl, rfl, by simp⟩⟩
  | succ k ih =>
    intro s t e h
    rcases res_bind_eq_raised h with hr | ⟨v, u, hr, hc⟩
    · obtain ⟨he, hp, hd, ht⟩ := readReg_raised (readSr1_eq s ▸ hr)
      subst he
      exact ⟨hp, by simp [hd, BlockError.events], [], busyBytes_nil _,
        .inl ⟨rfl, by simp, by rw [ht]; simp [readRegOp]⟩⟩
    · obtain ⟨hp, hd, ht⟩ := readReg_ok (readSr1_eq s ▸ hr)
      have hcfg : u.cfg = s.cfg := portOnly_cfg hp
      split at hc
      · rename_i hv
        obtain ⟨hp', hd', busy, hb, hor⟩ := ih hc
        rw [hcfg] at hb hor hv
        refine ⟨portOnly_trans hp hp', by rw [hd', hd], v :: busy, ?_, ?_⟩
        · intro b hb'
          rcases List.mem_cons.mp hb' with rfl | hb'
          · exact hv
          · exact hb b hb'
        · rcases hor with ⟨he, hl, htr⟩ | ⟨he, hl, htr⟩
          · exact .inl ⟨he, by simpa using hl, by rw [htr, ht]; simp [statusRead, readRegOp]⟩
          · exact .inr ⟨he, by simpa using hl, by rw [htr, ht]; simp [statusRead, readRegOp]⟩
      · cases hc

/-- `Poll()` ends normally: the reads it issued, the last with WIP clear, within the budget. -/
theorem poll_ok {s t : State} (h : poll s = .ok () t) :
    PortOnly s t ∧ t.diag = s.diag ∧ ∃ evs, PollCompletes s.cfg evs ∧ t.trace = s.trace ++ evs := by
  obtain ⟨hp, hd, busy, v, hl, hb, hv, ht⟩ := pollFor_ok h
  exact ⟨hp, hd, _, ⟨busy, v, hl, hb, hv, rfl⟩, ht⟩

/-- `Poll()` raises: a failed read, or the budget all spent. -/
theorem poll_raised {s t : State} {e : BlockError} (h : poll s = .raised e t) :
    PortOnly s t ∧ t.diag = s.diag ++ e.events ∧ ∃ evs, PollFails s.cfg e evs ∧ t.trace = s.trace ++ evs := by
  obtain ⟨hp, hd, busy, hb, ⟨he, hl, ht⟩ | ⟨he, hl, ht⟩⟩ := pollFor_raised h
  · exact ⟨hp, hd, _, ⟨busy, hb, .inl ⟨he, hl, rfl⟩⟩, ht⟩
  · exact ⟨hp, hd, _, ⟨busy, hb, .inr ⟨he, hl, rfl⟩⟩, ht⟩

/-! ### Write sequences -/

theorem answer_zero {s : State} {rx : List Byte} (h : answer s 0 = some rx) : rx = [] :=
  List.eq_nil_of_length_eq_zero (answer_length h)

theorem writeEnable_ok {s t : State} (h : writeEnable s = .ok () t) :
    PortOnly s t ∧ t.diag = s.diag ∧ t.trace = s.trace ++ [wrenEvent s.cfg (some [])] := by
  obtain ⟨rx, u, hx, he⟩ := res_bind_eq_ok h
  cases he
  obtain ⟨hp, hd, ht⟩ := xfer_ok_trace hx
  rw [answer_zero (xfer_ok hx).1] at ht
  exact ⟨hp, hd, ht⟩

theorem writeEnable_raised {s t : State} {e : BlockError} (h : writeEnable s = .raised e t) :
    e = .transport .xfer ∧ PortOnly s t ∧ t.diag = s.diag ∧ t.trace = s.trace ++ [wrenEvent s.cfg none] := by
  rcases res_bind_eq_raised h with hx | ⟨rx, u, -, he⟩
  · exact xfer_raised_trace hx
  · cases he

/-- WREN, frame, ready-poll, ended normally. -/
theorem writeFrame_ok {tx : List Byte} {s t : State} (h : writeFrame tx s = .ok () t) :
    PortOnly s t ∧ t.diag = s.diag ∧ ∃ evs, WriteCompletes s.cfg tx evs ∧ t.trace = s.trace ++ evs := by
  obtain ⟨⟨⟩, u, hw, h2⟩ := res_bind_eq_ok h
  obtain ⟨rx, w, hx, h3⟩ := res_bind_eq_ok h2
  obtain ⟨hp1, hd1, ht1⟩ := writeEnable_ok hw
  obtain ⟨hp2, hd2, ht2⟩ := xfer_ok_trace hx
  obtain ⟨hp3, hd3, p, hpc, ht3⟩ := poll_ok h3
  rw [answer_zero (xfer_ok hx).1] at ht2
  rw [portOnly_cfg (portOnly_trans hp1 hp2)] at hpc
  exact ⟨portOnly_trans hp1 (portOnly_trans hp2 hp3), by rw [hd3, hd2, hd1], _, ⟨p, hpc, rfl⟩,
    by rw [ht3, ht2, ht1]; simp⟩

/-- WREN, frame, ready-poll, ended by the first error. -/
theorem writeFrame_raised {tx : List Byte} {s t : State} {e : BlockError} (h : writeFrame tx s = .raised e t) :
    PortOnly s t ∧ t.diag = s.diag ++ e.events ∧ ∃ evs, WriteFails s.cfg tx e evs ∧ t.trace = s.trace ++ evs := by
  rcases res_bind_eq_raised h with hw | ⟨⟨⟩, u, hw, h2⟩
  · obtain ⟨rfl, hp, hd, ht⟩ := writeEnable_raised hw
    exact ⟨hp, by simp [hd, BlockError.events], _, .inl ⟨rfl, rfl⟩, ht⟩
  obtain ⟨hp1, hd1, ht1⟩ := writeEnable_ok hw
  rcases res_bind_eq_raised h2 with hx | ⟨rx, w, hx, h3⟩
  · obtain ⟨rfl, hp2, hd2, ht2⟩ := xfer_raised_trace hx
    exact ⟨portOnly_trans hp1 hp2, by simp [hd2, hd1, BlockError.events], _, .inr (.inl ⟨rfl, rfl⟩),
      by rw [ht2, ht1]; simp⟩
  obtain ⟨hp2, hd2, ht2⟩ := xfer_ok_trace hx
  obtain ⟨hp3, hd3, p, hpf, ht3⟩ := poll_raised h3
  rw [answer_zero (xfer_ok hx).1] at ht2
  rw [portOnly_cfg (portOnly_trans hp1 hp2)] at hpf
  exact ⟨portOnly_trans hp1 (portOnly_trans hp2 hp3), by rw [hd3, hd2, hd1], _, .inr (.inr ⟨p, hpf, rfl⟩),
    by rw [ht3, ht2, ht1]; simp⟩

/-- The paired register write, ended normally: the SR1 byte it read is the one it sends. -/
theorem writePaired_ok {v : Byte} {s t : State} (h : writePaired v s = .ok () t) :
    PortOnly s t ∧ t.diag = s.diag ∧ ∃ s1 evs, WriteCompletes s.cfg [s.cfg.opWrsr, s1, v] evs ∧
      t.trace = s.trace ++ statusRead s.cfg s1 :: evs := by
  obtain ⟨s1, u, hr, h2⟩ := res_bind_eq_ok h
  obtain ⟨hp1, hd1, ht1⟩ := readReg_ok (readSr1_eq s ▸ hr)
  obtain ⟨hp2, hd2, evs, hw, ht2⟩ := writeFrame_ok h2
  rw [portOnly_cfg hp1] at hw
  exact ⟨portOnly_trans hp1 hp2, by rw [hd2, hd1], s1, evs, hw, by rw [ht2, ht1]; simp [statusRead, readRegOp]⟩

/-- The paired register write, ended by the first error. -/
theorem writePaired_raised {v : Byte} {s t : State} {e : BlockError} (h : writePaired v s = .raised e t) :
    PortOnly s t ∧ t.diag = s.diag ++ e.events ∧
      ((e = .transport .xfer ∧ t.trace = s.trace ++ [.xfer [s.cfg.opRdsr1] 1 none]) ∨
       ∃ s1 evs, WriteFails s.cfg [s.cfg.opWrsr, s1, v] e evs ∧ t.trace = s.trace ++ statusRead s.cfg s1 :: evs) := by
  rcases res_bind_eq_raised h with hr | ⟨s1, u, hr, h2⟩
  · obtain ⟨rfl, hp, hd, ht⟩ := readReg_raised (readSr1_eq s ▸ hr)
    exact ⟨hp, by simp [hd, BlockError.events], .inl ⟨rfl, ht⟩⟩
  · obtain ⟨hp1, hd1, ht1⟩ := readReg_ok (readSr1_eq s ▸ hr)
    obtain ⟨hp2, hd2, evs, hw, ht2⟩ := writeFrame_raised h2
    rw [portOnly_cfg hp1] at hw
    exact ⟨portOnly_trans hp1 hp2, by rw [hd2, hd1], .inr ⟨s1, evs, hw,
      by rw [ht2, ht1]; simp [statusRead, readRegOp]⟩⟩

/-! ### A frame run on its own -/

/-- One transaction run on its own, as one state. -/
theorem endFrame_xfer (tx : List Byte) (n : Nat) (s : State) :
    endFrame (xfer tx n (beginCommand s)) = afterFrame s tx n := by
  have ha : answer (beginCommand s) n = answer s n := rfl
  cases h : xfer tx n (beginCommand s) with
  | ok rx t =>
    obtain ⟨h1, -, rfl⟩ := xfer_ok h
    rw [ha] at h1
    unfold endFrame afterFrame afterXfer
    dsimp only
    rw [ha, h1]
    rfl
  | raised e t =>
    obtain ⟨h1, rfl, rfl⟩ := xfer_raised h
    rw [ha] at h1
    unfold endFrame afterFrame afterXfer
    dsimp only
    rw [ha, h1]
    rfl

end Sys2Proof.Machine
end

