-- ==== Sys2Proof/Laws/Engine.lean ====
section
/-! SUPPORT. What the sequences built on the accessors can do: quad enable, the unlock engine, the 4-byte negotiation,
the steps of INIT. -/

namespace Sys2Proof.Machine

/-- How a sequence ended: normally, or with the error it raised. -/
def endedBy {α : Type} : Res α → Option BlockError
  | .ok _ _ => none
  | .raised e _ => some e

/-- The diagnostics a sequence appends: those of the error it raises, none when it ends normally
(60_exceptions.md R161, R171). -/
def raisedEvents {α : Type} (r : Res α) : List Diag := endEvents (endedBy r)

@[simp] theorem raisedEvents_ok {α : Type} (a : α) (s : State) : raisedEvents (.ok a s) = [] := rfl

@[simp] theorem raisedEvents_raised {α : Type} (e : BlockError) (s : State) :
    raisedEvents (.raised e s : Res α) = e.events := rfl

/-- A sequence of transactions and nothing else: it touches what transactions touch, its answers are the transport's,
and it logs exactly its error. -/
structure Contained {α : Type} (s : State) (r : Res α) : Prop where
  port : PortOnly s r.state
  asked : Asked s r.state
  logs : r.state.diag = s.diag ++ raisedEvents r

theorem contained_ok {α : Type} (a : α) (s : State) : Contained s (Res.ok a s) :=
  ⟨rfl, asked_refl s, by simp [Res.state]⟩

theorem contained_raise {α : Type} (e : BlockError) (s : State) : Contained s (raise e s : Res α) :=
  ⟨rfl, asked_congr (asked_refl s) rfl rfl rfl rfl rfl rfl, rfl⟩

theorem contained_bind {α β : Type} {s : State} {r : Res α} {f : α → State → Res β} (h : Contained s r)
    (k : ∀ a u, r = .ok a u → Contained u (f a u)) : Contained s (r.bind f) := by
  cases r with
  | ok a u =>
    have hk := k a u rfl
    exact ⟨portOnly_trans h.port hk.port, asked_trans h.asked hk.asked, by
      have hl : u.diag = s.diag := by simpa [Res.state] using h.logs
      simpa [hl] using hk.logs⟩
  | raised e u => exact ⟨h.port, h.asked, h.logs⟩

theorem contained_xfer (tx : List Byte) (n : Nat) (s : State) : Contained s (xfer tx n s) := by
  cases h : xfer tx n s with
  | ok rx t =>
    obtain ⟨-, -, rfl⟩ := xfer_ok h
    exact ⟨rfl, ⟨_, portRan_xfer tx n s⟩, by simp [Res.state]⟩
  | raised e t =>
    obtain ⟨-, rfl, rfl⟩ := xfer_raised h
    exact ⟨rfl, ⟨_, portRan_xfer tx n s⟩, by simp [Res.state, BlockError.events]⟩

theorem contained_readReg (sel : RegSel) (s : State) : Contained s (readReg sel s) := by
  cases sel <;> exact contained_bind (contained_xfer _ _ _) fun _ _ _ => contained_ok _ _

theorem contained_pollFor (k : Nat) : ∀ s, Contained s (pollFor k s) := by
  induction k with
  | zero => exact fun s => contained_raise _ s
  | succ k ih =>
    intro s
    refine contained_bind (contained_readReg .sr1 s) fun v u _ => ?_
    split
    · exact ih u
    · exact contained_ok _ _

theorem contained_writeEnable (s : State) : Contained s (writeEnable s) :=
  contained_bind (contained_xfer _ _ _) fun _ _ _ => contained_ok _ _

theorem contained_writeFrame (tx : List Byte) (s : State) : Contained s (writeFrame tx s) :=
  contained_bind (contained_writeEnable s) fun _ _ _ =>
    contained_bind (contained_xfer _ _ _) fun _ _ _ => contained_pollFor _ _

theorem contained_writeReg (sel : RegSel) (v : Byte) (s : State) : Contained s (writeReg sel v s) := by
  cases sel with
  | sr1 => exact contained_writeFrame _ _
  | sr2 => exact contained_bind (contained_readReg .sr1 s) fun _ _ _ => contained_writeFrame _ _
  | cr => exact contained_bind (contained_readReg .sr1 s) fun _ _ _ => contained_writeFrame _ _

theorem contained_setQe (sel : RegSel) (k : Fin 8) (s : State) : Contained s (setQe sel k s) := by
  refine contained_bind (contained_readReg sel s) fun v u _ => ?_
  split
  · exact contained_ok _ _
  · refine contained_bind (contained_writeReg _ _ _) fun _ _ _ => contained_bind (contained_readReg _ _) fun _ _ _ => ?_
    split
    · exact contained_ok _ _
    · exact contained_raise _ _

theorem contained_quadEnable (id : Ident) (s : State) : Contained s (quadEnable id s) := by
  unfold quadEnable
  split
  · unfold quirkMacronix
    split
    · exact contained_ok _ _
    · exact contained_setQe _ _ _
  · exact contained_setQe _ _ _
  · exact contained_setQe _ _ _
  · exact contained_raise _ _

/-- `SetQe` ends normally only when the last transaction is a read of the register that shows the bit set
(41_quirk_unlock.md R91). -/
theorem setQe_ok {sel : RegSel} {k : Fin 8} {s t : State} (h : setQe sel k s = .ok () t) :
    ∃ evs v, bitIsSet v k = true ∧ t.trace = s.trace ++ evs ++ [.xfer [readRegOp s.cfg sel] 1 (some [v])] := by
  obtain ⟨v, u, hr, h2⟩ := res_bind_eq_ok h
  obtain ⟨hp1, -, ht1⟩ := readReg_ok hr
  split at h2
  · rename_i hv
    cases h2
    exact ⟨[], v, hv, by simp [ht1]⟩
  · obtain ⟨⟨⟩, w, hw, h3⟩ := res_bind_eq_ok h2
    obtain ⟨v2, x, hr2, h4⟩ := res_bind_eq_ok h3
    obtain ⟨-, -, ht3⟩ := readReg_ok hr2
    have hc := contained_writeReg sel (setBit v k) u
    rw [hw] at hc
    obtain ⟨mid, hmid⟩ := asked_grows hc.asked
    simp only [Res.state] at hmid
    have hcfg : w.cfg = s.cfg := portOnly_cfg (portOnly_trans hp1 hc.port)
    split at h4
    · rename_i hv2
      cases h4
      exact ⟨.xfer [readRegOp s.cfg sel] 1 (some [v]) :: mid, v2, hv2, by
        rw [ht3, ← hmid, ht1, hcfg]; simp⟩
    · cases h4

theorem contained_clearCmp (s : State) : Contained s (clearCmp s) := by
  refine contained_bind (contained_readReg .sr2 s) fun _ _ _ => ?_
  split
  · exact contained_writeReg _ _ _
  · exact contained_ok _ _

theorem contained_clearSr1 (m : Byte) (s : State) : Contained s (clearSr1 m s) := by
  unfold clearSr1
  split
  · exact contained_bind (contained_readReg .sr1 s) fun _ _ _ => contained_writeReg _ _ _
  · exact contained_writeReg _ _ _

theorem contained_statusPath (m : Byte) (s : State) : Contained s (statusPath m s) := by
  unfold statusPath
  split
  · refine contained_bind ?_ fun _ _ _ => contained_clearSr1 _ _
    split
    · exact contained_clearCmp _
    · exact contained_ok _ _
  · exact contained_ok _ _

theorem contained_globalUnlock (s : State) : Contained s (globalUnlock s) :=
  contained_bind (contained_writeEnable s) fun _ _ _ =>
    contained_bind (contained_xfer _ _ _) fun _ _ _ => contained_ok _ _

theorem contained_unlockBody (m : Byte) (s : State) : Contained s (unlockBody m s) := by
  refine contained_bind (contained_statusPath m s) fun _ u _ => ?_
  unfold extendedPath
  split
  · split
    · exact contained_globalUnlock _
    · exact contained_ok _ _
  · exact contained_ok _ _

/-- One run of the unlock engine: the flag is set, and otherwise only transactions happened, whatever failed
(41_quirk_unlock.md R101, R105). -/
theorem unlockRun_spec (m : Byte) (s : State) :
    PortOnly { s with session.unlocked := true } (unlockRun m s) ∧ Asked s (unlockRun m s) :=
  ⟨(contained_unlockBody m _).port,
    asked_congr (contained_unlockBody m { s with session.unlocked := true }).asked rfl rfl rfl rfl rfl rfl⟩

/-- The unlock engine, if it can run: nothing when the flag is set, else one run over the identity
(41_quirk_unlock.md R100, R101). -/
theorem unlockEngine_some {s t : State} (h : unlockEngine s = some t) :
    (s.session.unlocked = true ∧ t = s) ∨
      (s.session.unlocked = false ∧ ∃ id, s.session.id = some id ∧ t = unlockRun id.manufacturer s) := by
  unfold unlockEngine at h
  split at h
  · rename_i hu; cases h; exact .inl ⟨hu, rfl⟩
  · rename_i hu
    obtain ⟨id, hid, rfl⟩ := Option.map_eq_some_iff.mp h
    exact .inr ⟨by simpa using hu, id, hid, rfl⟩

/-- After the unlock engine the flag is set, and nothing but it and what transactions touch has changed. -/
theorem unlockEngine_spec {s t : State} (h : unlockEngine s = some t) :
    PortOnly { s with session.unlocked := true } t ∧ Asked s t := by
  rcases unlockEngine_some h with ⟨hu, rfl⟩ | ⟨-, id, -, rfl⟩
  · refine ⟨?_, asked_refl _⟩
    unfold PortOnly
    cases t with
    | mk cfg session => cases session; simp only at hu; subst hu; rfl
  · exact unlockRun_spec _ _

/-- The negotiation changes nothing but what transactions and diagnostics touch (44_init_exit.md R149). -/
theorem negotiate4B_spec (mode : Mode4B) (s : State) :
    PortOnly s (negotiate4B mode s).2 ∧ Asked s (negotiate4B mode s).2 ∧ s.diag <+: (negotiate4B mode s).2.diag := by
  have hc : Contained s (negotiateFrames mode s) :=
    contained_bind (contained_xfer _ _ _) fun _ _ _ => contained_readReg .cr _
  unfold negotiate4B
  cases h : negotiateFrames mode s with
  | ok cr t =>
    rw [h] at hc
    have hd : t.diag = s.diag := by simpa [Res.state] using hc.logs
    have hp : PortOnly s t := hc.port
    have hg : Asked s t := hc.asked
    dsimp only
    split
    · exact ⟨hp, hg, by simp [hd]⟩
    · exact ⟨portOnly_trans hp (portOnly_addDiag _ _), asked_congr hg rfl rfl rfl rfl rfl rfl, by simp [hd]⟩
  | raised e t =>
    rw [h] at hc
    have hd : t.diag = s.diag ++ e.events := hc.logs
    have hp : PortOnly s t := hc.port
    exact ⟨portOnly_trans hp (portOnly_addDiag _ _), asked_congr hc.asked rfl rfl rfl rfl rfl rfl,
      by simp [hd, List.append_assoc]⟩

/-- Step 5 of INIT: only transactions and diagnostics, and the width FOUR only with a boot configuration above the
threshold and a requested opcode (44_init_exit.md R148). -/
theorem chooseWidth_spec (s : State) :
    PortOnly s (chooseWidth s).2 ∧ Asked s (chooseWidth s).2 ∧ s.diag <+: (chooseWidth s).2.diag := by
  have triv : PortOnly s s ∧ Asked s s ∧ s.diag <+: s.diag := ⟨rfl, asked_refl s, List.prefix_refl _⟩
  unfold chooseWidth
  split
  · exact triv
  · split
    · exact triv
    · split
      · have hn := negotiate4B_spec .enter s
        split <;> rename_i h <;> rw [h] at hn <;> exact hn
      · exact triv

/-- The candidates of step 5: the slow read with THREE, the 4-byte opcode with FOUR, or the 3-byte opcode with THREE
(44_init_exit.md R148). -/
theorem chooseWidth_choice (s : State) :
    (reqOp s.cfg s.bootCfg = none ∧ (chooseWidth s).1 = (s.cfg.opRead, .three)) ∨
      ∃ rq, reqOp s.cfg s.bootCfg = some rq ∧
        ((chooseWidth s).1 = (down s.cfg rq, .three) ∨
          ((chooseWidth s).1 = (up s.cfg rq, .four) ∧ (negotiate4B .enter s).1 = true ∧
            ∃ b, s.bootCfg = some b ∧ b.flashSize > sizeThreshold)) := by
  unfold chooseWidth
  cases hr : reqOp s.cfg s.bootCfg with
  | none => exact .inl ⟨rfl, rfl⟩
  | some rq =>
    refine .inr ⟨rq, rfl, ?_⟩
    cases hb : s.bootCfg with
    | none => exact .inl rfl
    | some b =>
      dsimp only
      by_cases hsz : b.flashSize > sizeThreshold
      · rw [if_pos hsz]
        cases hn : negotiate4B .enter s with
        | mk ok t =>
          cases ok with
          | true => exact .inr ⟨rfl, by simp, b, rfl, hsz⟩
          | false => exact .inl rfl
      · rw [if_neg hsz]; exact .inl rfl

/-- The probe writes the identity exactly when it ends normally (44_init_exit.md R147). -/
theorem probe_ok {s t : State} {id : Ident} (h : probe s = .ok id t) :
    id.manufacturer ≠ 0x00#8 ∧ PortOnly { s with session.id := some id } t ∧ t.diag = s.diag ∧ Asked s t := by
  obtain ⟨id', u, hr, h2⟩ := res_bind_eq_ok h
  obtain ⟨rx, w, hx, h3⟩ := res_bind_eq_ok hr
  cases h3
  obtain ⟨-, -, rfl⟩ := xfer_ok hx
  split at h2
  · cases h2
  · rename_i hm
    cases h2
    exact ⟨hm, rfl, rfl, _, portRan_congr (portRan_xfer [s.cfg.opRdid] 3 s) rfl rfl rfl rfl rfl rfl⟩

theorem probe_raised {s t : State} {e : BlockError} (h : probe s = .raised e t) :
    PortOnly s t ∧ t.diag = s.diag ++ e.events ∧ Asked s t := by
  have hc : Contained s (readId s) := contained_bind (contained_xfer _ _ _) fun _ _ _ => contained_ok _ _
  rcases res_bind_eq_raised h with hr | ⟨id', u, hr, h2⟩
  · rw [hr] at hc; exact ⟨hc.port, hc.logs, hc.asked⟩
  · rw [hr] at hc
    split at h2
    · cases h2
      have hp : PortOnly s u := hc.port
      have hd : u.diag = s.diag := by simpa [Res.state] using hc.logs
      exact ⟨portOnly_trans hp (portOnly_addDiag _ _), by simp [hd], asked_congr hc.asked rfl rfl rfl rfl rfl rfl⟩
    · cases h2

/-- `TransportInit()`: its answer, its event, and the flag on success (40_transport_registers.md R71). -/
theorem transportInit_ok {s t : State} (h : transportInit s = .ok () t) :
    initAnswer s = true ∧ PortOnly { s with session.transportUp := true } t ∧ t.diag = s.diag ∧
      PortRan 0 s t [.transportInit true] := by
  unfold transportInit at h
  split at h
  · rename_i ha
    cases h
    exact ⟨ha, rfl, rfl, by simp [ha], ⟨ha.symm, trivial⟩, by simp [answersIn], rfl⟩
  · cases h

theorem transportInit_raised {s t : State} {e : BlockError} (h : transportInit s = .raised e t) :
    initAnswer s = false ∧ e = .transport .init ∧ PortOnly s t ∧ t.diag = s.diag ∧
      PortRan 0 s t [.transportInit false] := by
  unfold transportInit at h
  split at h
  · cases h
  · rename_i ha
    have ha : initAnswer s = false := by simpa using ha
    cases h
    exact ⟨ha, rfl, rfl, by simp [BlockError.events], by simp [BlockError.events, ha], ⟨ha.symm, trivial⟩,
      by simp [answersIn], rfl⟩

/-- A frame sequence run on its own: it touches the port and its result, and logs its error
(40_transport_registers.md R87). -/
theorem endFrame_spec {s : State} {r : Res (List Byte)} (h : Contained (beginCommand s) r) :
    FrameOnly s (endFrame r) ∧ Asked s (endFrame r) ∧ (endFrame r).diag = s.diag ++ raisedEvents r := by
  obtain ⟨hp, ha, hl⟩ := h
  cases r <;>
    exact ⟨by simp only [Res.state] at hp; unfold PortOnly at hp; unfold FrameOnly endFrame; rw [hp]; rfl,
      asked_congr ha rfl rfl rfl rfl rfl rfl, hl⟩

theorem endWrite_spec {s : State} {r : Res Unit} (h : Contained (beginCommand s) r) :
    FrameOnly s (endWrite r) ∧ Asked s (endWrite r) ∧ (endWrite r).diag = s.diag ++ raisedEvents r := by
  have hs := endFrame_spec (contained_bind (f := fun _ s => Res.ok [] s) h fun _ _ _ => contained_ok _ _)
  cases r <;> exact hs

/-! ### How quad enable and the unlock engine go -/

/-- A sequence whose transactions and end are as `P` says. -/
def Goes {α : Type} (s : State) (r : Res α) (P : Option BlockError → List Event → Prop) : Prop :=
  ∃ evs, r.state.trace = s.trace ++ evs ∧ P (endedBy r) evs

theorem goes_bind {α β : Type} {s : State} {r : Res α} {f : α → State → Res β}
    {A B : Option BlockError → List Event → Prop} (h : Goes s r A) (k : ∀ a u, r = .ok a u → Goes u (f a u) B) :
    Goes s (r.bind f) (InTurn A B) := by
  cases r with
  | ok a u =>
    obtain ⟨evs, ht, hA⟩ := h
    obtain ⟨evs', ht', hB⟩ := k a u rfl
    exact ⟨evs ++ evs', by rw [res_bind_ok, ht', ← List.append_assoc, ← ht]; rfl, .inr ⟨evs, evs', hA, hB, rfl⟩⟩
  | raised e u =>
    obtain ⟨evs, ht, hA⟩ := h
    exact ⟨evs, ht, .inl ⟨by simp [endedBy], hA⟩⟩

theorem goes_readReg {β : Type} {s : State} {sel : RegSel} {f : Byte → State → Res β}
    {next : Byte → Option BlockError → List Event → Prop}
    (k : ∀ v u, readReg sel s = .ok v u → u.cfg = s.cfg → Goes u (f v u) (next v)) :
    Goes s ((readReg sel s).bind f) (ReadThen s.cfg sel next) := by
  cases h : readReg sel s with
  | ok v u =>
    obtain ⟨hp, -, ht⟩ := readReg_ok h
    obtain ⟨evs, ht', hn⟩ := k v u h (portOnly_cfg hp)
    exact ⟨_, by rw [res_bind_ok, ht', ht, List.append_assoc]; rfl, .inr ⟨v, evs, rfl, hn⟩⟩
  | raised e u =>
    obtain ⟨rfl, -, -, ht⟩ := readReg_raised h
    exact ⟨_, ht, .inl ⟨rfl, rfl⟩⟩

theorem goes_writeFrame (tx : List Byte) (s : State) : Goes s (writeFrame tx s) (WriteEnds s.cfg tx) := by
  cases h : writeFrame tx s with
  | ok x t => obtain ⟨-, -, evs, hc, ht⟩ := writeFrame_ok h; exact ⟨evs, ht, hc⟩
  | raised e t => obtain ⟨-, -, evs, hc, ht⟩ := writeFrame_raised h; exact ⟨evs, ht, hc⟩

/-- A register write, however it went (40_transport_registers.md R80). -/
theorem goes_writeReg (sel : RegSel) (v : Byte) (s : State) :
    Goes s (writeReg sel v s) (RegisterWriteEnds s.cfg sel v) := by
  have paired : Goes s (writePaired v s) (ReadThen s.cfg .sr1 fun s1 => WriteEnds s.cfg [s.cfg.opWrsr, s1, v]) :=
    goes_readReg (sel := .sr1) fun s1 u _ hu => by
      have := goes_writeFrame [u.cfg.opWrsr, s1, v] u
      rwa [hu] at this ⊢
  cases sel with
  | sr1 => exact goes_writeFrame _ _
  | sr2 => exact paired
  | cr => exact paired

/-- `SetQe`, however it went (41_quirk_unlock.md R91). -/
theorem goes_setQe (sel : RegSel) (k : Fin 8) (s : State) : Goes s (setQe sel k s)
    (ReadThen s.cfg sel fun v o evs =>
      if bitIsSet v k then o = none ∧ evs = []
      else InTurn (RegisterWriteEnds s.cfg sel (setBit v k))
        (ReadThen s.cfg sel fun v2 o evs =>
          evs = [] ∧ o = if bitIsSet v2 k then none else some (.quirk .notLatched)) o evs) := by
  refine goes_readReg fun v u _ hu => ?_
  by_cases hv : bitIsSet v k = true
  · simp only [if_pos hv]
    exact ⟨[], by simp [Res.state], rfl, rfl⟩
  · simp only [if_neg hv]
    rw [← hu]
    refine goes_bind (goes_writeReg _ _ _) fun _ w hw => ?_
    have hc := contained_writeReg sel (setBit v k) u
    rw [hw] at hc
    have hcw : w.cfg = u.cfg := portOnly_cfg hc.port
    rw [← hcw]
    refine goes_readReg fun v2 x _ _ => ⟨[], ?_, rfl, ?_⟩ <;> split <;> simp [Res.state, raise, endedBy, *]

theorem goes_clearCmp (s : State) : Goes s (clearCmp s) (CmpClearEnds s.cfg) := by
  refine goes_readReg (sel := .sr2) fun s2 u _ hu => ?_
  by_cases hb : bitIsSet s2 s.cfg.sr2CmpBit = true
  · simp only [hu, if_pos hb]
    rw [← hu]
    exact goes_writeReg .sr2 _ u
  · simp only [hu, if_neg hb]
    exact ⟨[], by simp [Res.state], rfl, rfl⟩

theorem goes_clearSr1 (m : Byte) (s : State) : Goes s (clearSr1 m s) (Sr1ClearEnds s.cfg m) := by
  unfold clearSr1 Sr1ClearEnds
  split
  · refine goes_readReg (sel := .sr1) fun s1 u _ hu => ?_
    have := goes_writeReg .sr1 (keepBit s1 u.cfg.sr1QeBit) u
    rw [hu] at this ⊢
    exact this
  · exact goes_writeFrame _ _

/-- The global block unlock, however it went (41_quirk_unlock.md R104). -/
theorem goes_globalUnlock (s : State) : Goes s (globalUnlock s) (GlobalUnlockEnds s.cfg) := by
  unfold globalUnlock
  cases hw : writeEnable s with
  | raised e u => obtain ⟨rfl, -, -, ht⟩ := writeEnable_raised hw; exact ⟨_, ht, .inr ⟨rfl, .inl rfl⟩⟩
  | ok a u =>
    obtain ⟨hp, -, ht⟩ := writeEnable_ok (by rw [hw])
    have hc : u.cfg = s.cfg := portOnly_cfg hp
    rw [res_bind_ok]
    cases hx : xfer [u.cfg.opGbulk] 0 u with
    | raised e v =>
      obtain ⟨rfl, -, -, ht2⟩ := xfer_raised_trace hx
      exact ⟨[wrenEvent s.cfg (some []), .xfer [s.cfg.opGbulk] 0 none], by simp [Res.done, Res.state, ht2, ht, hc],
        .inr ⟨rfl, .inr rfl⟩⟩
    | ok rx v =>
      obtain ⟨-, -, ht2⟩ := xfer_ok_trace hx
      rw [answer_zero (xfer_ok hx).1] at ht2
      exact ⟨[wrenEvent s.cfg (some []), .xfer [s.cfg.opGbulk] 0 (some [])],
        by simp [Res.done, Res.state, ht2, ht, hc], .inl ⟨rfl, rfl⟩⟩

theorem goes_extendedPath (m : Byte) (s : State) : Goes s (extendedPath m s) (ExtendedEnds s.cfg m) := by
  unfold extendedPath ExtendedEnds
  by_cases h1 : m ∈ s.cfg.setGbulk <;> by_cases h2 : s.cfg.gbulkEnabled = true <;> simp only [h1, h2, and_true, and_self,
    if_true, if_false, and_false, Bool.false_eq_true]
  · exact goes_globalUnlock s
  all_goals exact ⟨[], by simp [Res.state], rfl, rfl⟩

/-- One run of the unlock engine's body (41_quirk_unlock.md R102 to R104). -/
theorem goes_unlockBody (m : Byte) (s : State) : Goes s (unlockBody m s)
    (InTurn (fun o evs =>
      if m ∈ s.cfg.setLocked then
        InTurn (fun o evs => if m ∈ s.cfg.setGd then CmpClearEnds s.cfg o evs else o = none ∧ evs = [])
          (Sr1ClearEnds s.cfg m) o evs
      else o = none ∧ evs = []) (ExtendedEnds s.cfg m)) := by
  refine goes_bind ?_ fun _ u hu => ?_
  · unfold statusPath
    by_cases hl : m ∈ s.cfg.setLocked
    · simp only [if_pos hl]
      by_cases hg : m ∈ s.cfg.setGd
      · simp only [if_pos hg]
        refine goes_bind (goes_clearCmp s) fun _ u hu => ?_
        have hc := contained_clearCmp s
        rw [hu] at hc
        rw [← show u.cfg = s.cfg from portOnly_cfg hc.port]
        exact goes_clearSr1 m u
      · simp only [if_neg hg]
        exact goes_bind ⟨[], by simp [Res.state], rfl, rfl⟩ fun _ u hu => by cases hu; exact goes_clearSr1 m s
    · simp only [if_neg hl]
      exact ⟨[], by simp [Res.state], rfl, rfl⟩
  · have hc := contained_statusPath m s
    rw [hu] at hc
    rw [← show u.cfg = s.cfg from portOnly_cfg hc.port]
    exact goes_extendedPath m u

/-- A status of failure is never the status of success (60_exceptions.md R168). -/
theorem failCode_ne_zero (d : Nat) : failCode d ≠ 0#32 := by
  unfold failCode
  split
  · decide
  · assumption

end Sys2Proof.Machine
end

