-- ==== Sys2Proof/Laws/Memory.lean ====
section
/-! SUPPORT. The laws of host memory: read after write, and every operation keeps the canonical form. -/

namespace Sys2Proof.Machine

@[simp] theorem memory_read_nil (a : Nat) : Memory.read [] a = memFill := rfl

theorem memory_read_cons (x : Nat) (b : Byte) (m : Memory) (a : Nat) :
    Memory.read ((x, b) :: m) a = if x = a then b else Memory.read m a := rfl

theorem memory_nil_wf : Memory.wf [] := by simp [Memory.wf]

theorem reset_mem_wf : State.reset.mem.wf := memory_nil_wf

theorem memory_wf_tail {x : Host.Cell} {m : Memory} (h : Memory.wf (x :: m)) : Memory.wf m :=
  ⟨(List.pairwise_cons.mp h.1).2, fun y hy => h.2 y (List.mem_cons_of_mem _ hy)⟩

/-- An address below every listed one reads as unlisted. -/
theorem memory_read_below {m : Memory} {a : Nat} (h : ∀ x ∈ m, a < x.1) : m.read a = memFill := by
  induction m with
  | nil => rfl
  | cons x m ih =>
    obtain ⟨x, b⟩ := x
    have hx : a < x := h (x, b) List.mem_cons_self
    rw [memory_read_cons, if_neg (by omega)]
    exact ih fun y hy => h y (List.mem_cons_of_mem _ hy)

/-- Every address listed after a write was listed before, or is the written one. -/
theorem memory_write_bound {m : Memory} {a : Nat} {b : Byte} {k : Nat} (hk : k < a) (h : ∀ x ∈ m, k < x.1) :
    ∀ x ∈ m.write a b, k < x.1 := by
  induction m with
  | nil => unfold Memory.write; split <;> simp [hk]
  | cons c m ih =>
    obtain ⟨x, c⟩ := c
    have hx : k < x := h (x, c) List.mem_cons_self
    have hm : ∀ y ∈ m, k < y.1 := fun y hy => h y (List.mem_cons_of_mem _ hy)
    unfold Memory.write
    split_ifs
    · exact h
    · intro y hy
      rcases List.mem_cons.mp hy with rfl | hy
      · exact hk
      · exact h y hy
    · exact hm
    · intro y hy
      rcases List.mem_cons.mp hy with rfl | hy
      · exact hk
      · exact hm y hy
    · intro y hy
      rcases List.mem_cons.mp hy with rfl | hy
      · exact hx
      · exact ih hm y hy

/-- A write keeps the canonical form. -/
theorem memory_write_wf {m : Memory} (a : Nat) (b : Byte) (h : m.wf) : (m.write a b).wf := by
  induction m with
  | nil => unfold Memory.write; split_ifs with hb <;> simp [Memory.wf, hb]
  | cons c m ih =>
    obtain ⟨x, c⟩ := c
    have hp := List.pairwise_cons.mp h.1
    have ht := memory_wf_tail h
    have hc : c ≠ memFill := h.2 (x, c) List.mem_cons_self
    unfold Memory.write
    split_ifs with h1 h2 h3 h4
    · exact h
    · refine ⟨List.pairwise_cons.mpr ⟨?_, h.1⟩, ?_⟩
      · intro y hy
        rcases List.mem_cons.mp hy with rfl | hy
        · exact h1
        · exact lt_trans h1 (hp.1 y hy)
      · intro y hy
        rcases List.mem_cons.mp hy with rfl | hy
        · exact h2
        · exact h.2 y hy
    · exact ht
    · subst h3
      refine ⟨List.pairwise_cons.mpr ⟨fun y hy => hp.1 y hy, hp.2⟩, ?_⟩
      intro y hy
      rcases List.mem_cons.mp hy with rfl | hy
      · exact h4
      · exact ht.2 y hy
    · have hi := ih ht
      refine ⟨List.pairwise_cons.mpr ⟨memory_write_bound (by omega) hp.1, hi.1⟩, ?_⟩
      intro y hy
      rcases List.mem_cons.mp hy with rfl | hy
      · exact hc
      · exact hi.2 y hy

/-- Reading after a write in a memory in canonical form: the written byte at its address, and every other address as
before. -/
theorem memory_read_write {m : Memory} (a : Nat) (b : Byte) (h : m.wf) (a' : Nat) :
    (m.write a b).read a' = if a = a' then b else m.read a' := by
  induction m with
  | nil =>
    unfold Memory.write
    split_ifs with hb ha ha <;> simp_all [memory_read_cons]
  | cons c m ih =>
    obtain ⟨x, c⟩ := c
    have hp : ∀ y ∈ m, x < y.1 := (List.pairwise_cons.mp h.1).1
    have hi := ih (memory_wf_tail h)
    rcases Nat.lt_trichotomy a x with hax | rfl | hax
    · have hbelow : ∀ y ∈ (x, c) :: m, a < y.1 := by
        intro y hy
        rcases List.mem_cons.mp hy with rfl | hy
        · exact hax
        · exact lt_trans hax (hp y hy)
      simp only [Memory.write, if_pos hax]
      by_cases hb : b = memFill
      · rw [if_pos hb]
        by_cases ha : a = a'
        · subst ha; rw [if_pos rfl, memory_read_below hbelow, hb]
        · rw [if_neg ha]
      · rw [if_neg hb, memory_read_cons]
    · simp only [Memory.write, lt_irrefl, if_false, if_true]
      by_cases hb : b = memFill
      · rw [if_pos hb, memory_read_cons]
        by_cases ha : a = a'
        · subst ha; rw [if_pos rfl, memory_read_below hp, hb]
        · rw [if_neg ha, if_neg ha]
      · rw [if_neg hb, memory_read_cons, memory_read_cons]
        split_ifs <;> rfl
    · simp only [Memory.write, if_neg (show ¬ a < x by omega), if_neg (show a ≠ x by omega), memory_read_cons, hi]
      by_cases ha : x = a'
      · rw [if_pos ha, if_neg (by omega), if_pos ha]
      · rw [if_neg ha, if_neg ha]

/-- A block write keeps the canonical form. -/
theorem memory_writeBlock_wf {m : Memory} (h : m.wf) (a : Nat) (bs : List Byte) : (m.writeBlock a bs).wf := by
  induction bs generalizing a with
  | nil => exact h
  | cons b bs ih => exact memory_write_wf _ _ (ih _)

/-- Reading after a block write: the block's byte inside it, as before outside. -/
theorem memory_read_writeBlock {m : Memory} (h : m.wf) (bs : List Byte) :
    ∀ a a', (m.writeBlock a bs).read a' =
      if a ≤ a' ∧ a' < a + bs.length then bs.getD (a' - a) 0#8 else m.read a' := by
  induction bs with
  | nil => intro a a'; rw [if_neg (by simp)]; rfl
  | cons b bs ih =>
    intro a a'
    have hw : (m.writeBlock a (b :: bs)) = (m.writeBlock (a + 1) bs).write a b := rfl
    rw [hw, memory_read_write _ _ (memory_writeBlock_wf h _ _), ih]
    by_cases ha : a = a'
    · subst ha; simp
    · rw [if_neg ha]
      by_cases hr : a + 1 ≤ a' ∧ a' < a + 1 + bs.length
      · rw [if_pos hr, if_pos (by simp only [List.length_cons]; omega)]
        obtain ⟨k, rfl⟩ : ∃ k, a' = a + 1 + k := ⟨a' - (a + 1), by omega⟩
        simp [show a + 1 + k - a = k + 1 by omega]
      · rw [if_neg hr, if_neg (by simp only [List.length_cons]; omega)]

end Sys2Proof.Machine
end

