-- ==== Sys2Proof/Laws/DataPath.lean ====
section
/-! SUPPORT. What the loops of ERASE, WRITE and READ can do. -/

namespace Sys2Proof.Machine

/-! ### Runs of write sequences -/

theorem writesComplete_nil (c : Config) : WritesComplete c [] [] := ⟨[], .nil, rfl⟩

theorem writesComplete_cons {c : Config} {tx : List Byte} {txs : List (List Byte)} {evs evs' : List Event}
    (h : WriteCompletes c tx evs) (k : WritesComplete c txs evs') : WritesComplete c (tx :: txs) (evs ++ evs') := by
  obtain ⟨groups, hg, rfl⟩ := k
  exact ⟨evs :: groups, .cons h hg, rfl⟩

theorem writesFail_head {c : Config} {tx : List Byte} {txs : List (List Byte)} {e : BlockError} {evs : List Event}
    (h : WriteFails c tx e evs) : WritesFail c (tx :: txs) e evs :=
  ⟨[], tx, txs, [], evs, rfl, writesComplete_nil c, h, rfl⟩

theorem writesFail_cons {c : Config} {tx : List Byte} {txs : List (List Byte)} {e : BlockError} {evs evs' : List Event}
    (h : WriteCompletes c tx evs) (k : WritesFail c txs e evs') : WritesFail c (tx :: txs) e (evs ++ evs') := by
  obtain ⟨before, tx', rest, evs1, evs2, rfl, hb, hf, rfl⟩ := k
  exact ⟨tx :: before, tx', rest, evs ++ evs1, evs2, rfl, writesComplete_cons h hb, hf, by simp⟩

/-! ### ERASE -/

/-- The erase loop, ended normally: every sector's WREN, SE and ready-poll, in order (43_data_path.md R132). -/
theorem eraseSectors_ok (as : List Word) : ∀ {s t : State}, eraseSectors as s = .ok () t →
    PortOnly s t ∧ t.diag = s.diag ∧ ∃ evs, WritesComplete s.cfg (as.map fun a => s.cfg.opSe :: addr3 a) evs ∧
      t.trace = s.trace ++ evs := by
  induction as with
  | nil => intro s t h; cases h; exact ⟨rfl, rfl, [], writesComplete_nil _, by simp⟩
  | cons a as ih =>
    intro s t h
    obtain ⟨⟨⟩, u, hw, h2⟩ := res_bind_eq_ok h
    obtain ⟨hp, hd, evs, hc, ht⟩ := writeFrame_ok hw
    obtain ⟨hp', hd', evs', hc', ht'⟩ := ih h2
    rw [portOnly_cfg hp] at hc'
    exact ⟨portOnly_trans hp hp', by rw [hd', hd], evs ++ evs', writesComplete_cons hc hc', by rw [ht', ht]; simp⟩

/-- The erase loop, ended by its first error: the sectors before it done, none after it issued. -/
theorem eraseSectors_raised (as : List Word) : ∀ {s t : State} {e : BlockError}, eraseSectors as s = .raised e t →
    PortOnly s t ∧ t.diag = s.diag ++ e.events ∧ ∃ evs, WritesFail s.cfg (as.map fun a => s.cfg.opSe :: addr3 a) e evs ∧
      t.trace = s.trace ++ evs := by
  induction as with
  | nil => intro s t e h; cases h
  | cons a as ih =>
    intro s t e h
    rcases res_bind_eq_raised h with hw | ⟨⟨⟩, u, hw, h2⟩
    · obtain ⟨hp, hd, evs, hf, ht⟩ := writeFrame_raised hw
      exact ⟨hp, hd, evs, writesFail_head hf, ht⟩
    · obtain ⟨hp, hd, evs, hc, ht⟩ := writeFrame_ok hw
      obtain ⟨hp', hd', evs', hf', ht'⟩ := ih h2
      rw [portOnly_cfg hp] at hf'
      exact ⟨portOnly_trans hp hp', by rw [hd', hd], evs ++ evs', writesFail_cons hc hf', by rw [ht', ht]; simp⟩

theorem contained_eraseSectors (as : List Word) : ∀ s, Contained s (eraseSectors as s) := by
  induction as with
  | nil => exact fun s => contained_ok () s
  | cons a as ih => exact fun s => contained_bind (contained_writeFrame _ s) fun _ u _ => ih u

/-! ### WRITE -/

theorem hostReadable_portOnly {s t : State} (h : PortOnly s t) (a : Nat) : hostReadable t a = hostReadable s a := by
  rw [h]; rfl

theorem hostWritable_portOnly {s t : State} (h : PortOnly s t) (a : Nat) : hostWritable t a = hostWritable s a := by
  rw [h]; rfl

theorem programFrames_portOnly {s t : State} (h : PortOnly s t) (off : Word) (buf : Nat) (cs : List (Nat × Nat)) :
    programFrames t off buf cs = programFrames s off buf cs := by rw [h]; rfl

theorem memRead_some {s : State} {a n : Nat} {p : List Byte} (h : memRead s a n = some p) :
    RangeReadable s a n ∧ p = s.mem.readBlock a n := by
  unfold memRead at h
  split at h
  · rename_i hall
    cases h
    exact ⟨fun x hx hn => List.all_eq_true.mp hall x (List.mem_range'_1.mpr ⟨hx, hn⟩), rfl⟩
  · cases h

theorem memRead_of_readable {s : State} {a n : Nat} (h : RangeReadable s a n) :
    memRead s a n = some (s.mem.readBlock a n) := by
  unfold memRead
  rw [if_pos]
  exact List.all_eq_true.mpr fun x hx => h x (List.mem_range'_1.mp hx).1 (List.mem_range'_1.mp hx).2

/-- One chunk of `Program` is one write sequence whose payload is read after the WREN (43_data_path.md R138). -/
theorem programChunks_cons {off : Word} {buf pos n : Nat} {cs : List (Nat × Nat)} {s : State}
    (h : RangeReadable s (buf + pos) n) :
    programChunks off buf ((pos, n) :: cs) s =
      match writeFrame (programFrame s.cfg (off + BitVec.ofNat 32 pos) (s.mem.readBlock (buf + pos) n)) s with
      | .raised e t => some (.raised e t)
      | .ok _ t => programChunks off buf cs t := by
  unfold writeFrame
  rw [programChunks]
  cases hw : writeEnable s with
  | raised e u => rfl
  | ok x u =>
    have hp := (writeEnable_ok (by rw [hw])).1
    have hr : RangeReadable u (buf + pos) n := fun a h1 h2 => by rw [hostReadable_portOnly hp]; exact h a h1 h2
    simp only [memRead_of_readable hr, Option.bind_some, res_bind_ok, portOnly_cfg hp, portOnly_mem hp]
      <;> rfl

/-- The loop of `Program` over memory the host provides: it always has a step, and it ends with every chunk written,
in order, or at its first error (43_data_path.md R138, R139). -/
theorem programChunks_spec (off : Word) (buf : Nat) (cs : List (Nat × Nat)) : ∀ {s : State},
    (∀ p ∈ cs, RangeReadable s (buf + p.1) p.2) →
    (∃ t evs, programChunks off buf cs s = some (.ok () t) ∧ PortOnly s t ∧ t.diag = s.diag ∧
        t.trace = s.trace ++ evs ∧ WritesComplete s.cfg (programFrames s off buf cs) evs) ∨
      (∃ e t evs, programChunks off buf cs s = some (.raised e t) ∧ PortOnly s t ∧ t.diag = s.diag ++ e.events ∧
        t.trace = s.trace ++ evs ∧ WritesFail s.cfg (programFrames s off buf cs) e evs) := by
  induction cs with
  | nil => exact fun _ => .inl ⟨_, [], rfl, rfl, rfl, by simp, writesComplete_nil _⟩
  | cons c cs ih =>
    intro s hr
    obtain ⟨pos, n⟩ := c
    rw [programChunks_cons (hr (pos, n) List.mem_cons_self)]
    cases hw : writeFrame (programFrame s.cfg (off + BitVec.ofNat 32 pos) (s.mem.readBlock (buf + pos) n)) s with
    | raised e u =>
      obtain ⟨hp, hd, evs, hf, ht⟩ := writeFrame_raised hw
      exact .inr ⟨e, u, evs, rfl, hp, hd, ht, writesFail_head hf⟩
    | ok x u =>
      obtain ⟨hp, hd, evs, hc, ht⟩ := writeFrame_ok (by rw [hw])
      have hr' : ∀ p ∈ cs, RangeReadable u (buf + p.1) p.2 := fun p hpm a h1 h2 => by
        rw [hostReadable_portOnly hp]; exact hr p (List.mem_cons_of_mem _ hpm) a h1 h2
      rcases ih hr' with ⟨t, evs', he, hp', hd', ht', hc'⟩ | ⟨e, t, evs', he, hp', hd', ht', hf'⟩
      · rw [portOnly_cfg hp, programFrames_portOnly hp] at hc'
        exact .inl ⟨t, evs ++ evs', he, portOnly_trans hp hp', by rw [hd', hd], by rw [ht', ht]; simp,
          writesComplete_cons hc hc'⟩
      · rw [portOnly_cfg hp, programFrames_portOnly hp] at hf'
        exact .inr ⟨e, t, evs ++ evs', he, portOnly_trans hp hp', by rw [hd', hd], by rw [ht', ht]; simp,
          writesFail_cons hc hf'⟩

/-- `Program` is a sequence of transactions and nothing else. -/
theorem contained_programChunks (off : Word) (buf : Nat) (cs : List (Nat × Nat)) : ∀ {s : State} {r : Res Unit},
    programChunks off buf cs s = some r → Contained s r := by
  induction cs with
  | nil => intro s r h; cases h; exact contained_ok () s
  | cons c cs ih =>
    intro s r h
    obtain ⟨pos, n⟩ := c
    have hw := contained_writeEnable s
    rw [programChunks] at h
    cases hwe : writeEnable s with
    | raised e u => rw [hwe] at h hw; cases h; exact ⟨hw.port, hw.asked, hw.logs⟩
    | ok x u =>
      rw [hwe] at h hw
      obtain ⟨p, -, h2⟩ := Option.bind_eq_some_iff.mp h
      have hx : Contained s ((xfer (programFrame u.cfg (off + BitVec.ofNat 32 pos) p) 0 u).bind fun _ s => poll s) := by
        have hb : Contained s ((Res.ok x u : Res Unit).bind fun _ u =>
            (xfer (programFrame u.cfg (off + BitVec.ofNat 32 pos) p) 0 u).bind fun _ s => poll s) :=
          contained_bind hw fun _ _ h => by
            cases h; exact contained_bind (contained_xfer _ _ _) fun _ _ _ => contained_pollFor _ _
        exact hb
      cases hp : (xfer (programFrame u.cfg (off + BitVec.ofNat 32 pos) p) 0 u).bind fun _ s => poll s with
      | raised e v => rw [hp] at h2 hx; cases h2; exact ⟨hx.port, hx.asked, hx.logs⟩
      | ok y v =>
        rw [hp] at h2 hx
        have hi := ih h2
        have hd : v.diag = s.diag := by simpa [Res.state] using hx.logs
        exact ⟨portOnly_trans hx.port hi.port, asked_trans hx.asked hi.asked, by rw [hi.logs, hd]⟩

theorem memRead_none {s : State} {a n : Nat} : memRead s a n = none ↔ ¬ RangeReadable s a n := by
  constructor
  · intro h hr
    rw [memRead_of_readable hr] at h
    cases h
  · intro h
    cases hm : memRead s a n with
    | none => rfl
    | some p => exact absurd (memRead_some hm).1 h

/-- The loop of `Program` is stuck exactly when the chunks before some chunk are all programmed, that chunk's WREN is
answered, and the host has not provided its bytes (70_reset_and_hazards.md R183). -/
theorem programChunks_none (off : Word) (buf : Nat) (cs : List (Nat × Nat)) : ∀ {s : State},
    programChunks off buf cs s = none ↔ ∃ i p v, cs[i]? = some p ∧ programChunks off buf (cs.take i) s = some (.ok () v) ∧
      (answer v 0).isSome = true ∧ ¬ RangeReadable s (buf + p.1) p.2 := by
  induction cs with
  | nil => intro s; simp [programChunks]
  | cons c cs ih =>
    intro s
    obtain ⟨pos, n⟩ := c
    by_cases hr : RangeReadable s (buf + pos) n
    · have hc := fun cs => programChunks_cons (off := off) (cs := cs) hr
      rw [hc]
      cases hw : writeFrame (programFrame s.cfg (off + BitVec.ofNat 32 pos) (s.mem.readBlock (buf + pos) n)) s with
      | raised e u =>
        constructor
        · intro h; cases h
        · rintro ⟨i, p, v, hi, ht, -, hn⟩
          cases i with
          | zero => cases hi; exact absurd hr hn
          | succ i => rw [List.take_succ_cons, hc, hw] at ht; cases ht
      | ok x u =>
        have hp := (writeFrame_ok (by rw [hw])).1
        have hu : ∀ a m, RangeReadable u a m ↔ RangeReadable s a m := fun a m => by
          simp only [RangeReadable, hostReadable_portOnly hp]
        dsimp only
        rw [ih]
        constructor
        · rintro ⟨i, p, v, hi, ht, ha, hn⟩
          exact ⟨i + 1, p, v, by simpa using hi, by rw [List.take_succ_cons, hc, hw]; exact ht, ha, by rwa [← hu]⟩
        · rintro ⟨i, p, v, hi, ht, ha, hn⟩
          cases i with
          | zero => cases hi; exact absurd hr hn
          | succ i =>
            rw [List.take_succ_cons, hc, hw] at ht
            exact ⟨i, p, v, by simpa using hi, ht, ha, by rwa [hu]⟩
    · rw [programChunks]
      cases hx : writeEnable s with
      | raised e u =>
        constructor
        · intro h; cases h
        · rintro ⟨i, p, v, hi, ht, ha, -⟩
          cases i with
          | zero =>
            cases ht
            rcases res_bind_eq_raised hx with h | ⟨_, _, _, h⟩
            · rw [(xfer_raised h).1] at ha; cases ha
            · cases h
          | succ i => rw [List.take_succ_cons, programChunks, hx] at ht; cases ht
      | ok x u =>
        have hp := (writeEnable_ok (by rw [hx])).1
        have hn : memRead u (buf + pos) n = none := memRead_none.mpr fun h =>
          hr fun a h1 h2 => by rw [← hostReadable_portOnly hp]; exact h a h1 h2
        obtain ⟨rx, w, hxx, -⟩ := res_bind_eq_ok hx
        simp only [hn, Option.bind_none, true_iff]
        exact ⟨0, (pos, n), s, rfl, rfl, by rw [(xfer_ok hxx).1]; rfl, hr⟩

/-! ### READ -/

/-- `t` differs from `s` at most in what transactions touch and in host memory. -/
def CopyOnly (s t : State) : Prop :=
  t = { s with useq := t.useq, trace := t.trace, script := t.script, draws := t.draws, mem := t.mem }

theorem copyOnly_trans {s t u : State} (h : CopyOnly s t) (k : CopyOnly t u) : CopyOnly s u := by
  unfold CopyOnly at *; rw [k, h]

theorem copyOnly_of_portOnly {s t : State} (h : PortOnly s t) (hd : t.diag = s.diag) : CopyOnly s t := by
  unfold PortOnly at h; unfold CopyOnly; rw [h, hd]

theorem copyOnly_mem (s : State) (m : Memory) : CopyOnly s { s with mem := m } := rfl

theorem copyOnly_cfg {s t : State} (h : CopyOnly s t) : t.cfg = s.cfg := by rw [h]
theorem copyOnly_session {s t : State} (h : CopyOnly s t) : t.session = s.session := by rw [h]
theorem copyOnly_hostWritable {s t : State} (h : CopyOnly s t) (a : Nat) : hostWritable t a = hostWritable s a := by
  rw [h]; rfl

theorem memWrite_some {s t : State} {a : Nat} {v : List Byte} (h : memWrite s a v = some t) :
    RangeWritable s a v.length ∧ t = { s with mem := s.mem.writeBlock a v } := by
  unfold memWrite at h
  split at h
  · rename_i hall
    cases h
    exact ⟨fun x hx hn => List.all_eq_true.mp hall x (List.mem_range'_1.mpr ⟨hx, hn⟩), rfl⟩
  · cases h

theorem memWrite_of_writable {s : State} {a : Nat} {v : List Byte} (h : RangeWritable s a v.length) :
    memWrite s a v = some { s with mem := s.mem.writeBlock a v } := by
  unfold memWrite
  rw [if_pos]
  exact List.all_eq_true.mpr fun x hx => h x (List.mem_range'_1.mp hx).1 (List.mem_range'_1.mp hx).2

/-- The loop of READ never changes anything but host memory and what transactions touch, logs nothing, raises only
TransportError, and keeps memory canonical. -/
theorem readChunks_port (off : Word) (buf : Nat) (cs : List (Nat × Nat)) : ∀ {s : State} {r : Res Unit},
    readChunks off buf cs s = some r → CopyOnly s r.state ∧
      (∃ evs, PortRan (if endedBy r = none then 0 else 1) s r.state evs) ∧
      (s.mem.wf → r.state.mem.wf) ∧ ∀ e t, r = .raised e t → e = .transport .xfer := by
  induction cs with
  | nil =>
    intro s r h
    cases h
    exact ⟨rfl, ⟨[], portRan_refl s⟩, id, fun e t h => nomatch h⟩
  | cons c cs ih =>
    intro s r h
    obtain ⟨pos, n⟩ := c
    rw [readChunks] at h
    cases hx : xfer (readFrame s (off + BitVec.ofNat 32 pos)) n s with
    | raised e u =>
      rw [hx] at h
      cases h
      obtain ⟨-, rfl, rfl⟩ := xfer_raised hx
      have hr := portRan_xfer (readFrame s (off + BitVec.ofNat 32 pos)) n s
      refine ⟨rfl, ⟨_, hr.trace, hr.answers, hr.script, rfl⟩, fun hw => memory_writeBlock_wf hw _ _, ?_⟩
      · intro e t he; cases he; rfl
    | ok rx u =>
      rw [hx] at h
      obtain ⟨-, -, rfl⟩ := xfer_ok hx
      obtain ⟨v, hm, h2⟩ := Option.bind_eq_some_iff.mp h
      obtain ⟨-, rfl⟩ := memWrite_some hm
      obtain ⟨hc, ⟨evs, hg⟩, hw, he⟩ := ih h2
      have hr := portRan_xfer (readFrame s (off + BitVec.ofNat 32 pos)) n s
      exact ⟨copyOnly_trans (t := { afterXfer _ n s with mem := _ }) rfl hc,
        ⟨_, portRan_trans hr (portRan_congr hg rfl rfl rfl rfl rfl rfl)⟩,
        fun hwf => hw (memory_writeBlock_wf hwf _ _), he⟩

theorem memWrite_none {s : State} {a : Nat} {v : List Byte} : memWrite s a v = none ↔ ¬ RangeWritable s a v.length := by
  constructor
  · intro h hr
    rw [memWrite_of_writable hr] at h
    cases h
  · intro h
    cases hm : memWrite s a v with
    | none => rfl
    | some t => exact absurd (memWrite_some hm).1 h

theorem answer_congr {s t : State} (hs : s.script = t.script) (hd : s.draws = t.draws) (n : Nat) :
    answer s n = answer t n := by
  unfold answer
  rw [hs, hd]

/-- The loop of READ is stuck exactly when it reaches a chunk that is answered and whose host range is not all provided:
every chunk before it answered and provided (70_reset_and_hazards.md R183). -/
theorem readChunks_none (off : Word) (buf : Nat) (cs : List (Nat × Nat)) : ∀ {s : State},
    readChunks off buf cs s = none ↔ ∃ i p, cs[i]? = some p ∧
      (∀ j q, j ≤ i → cs[j]? = some q →
        (answer { s with script := s.script.drop j, draws := s.draws + j } q.2).isSome = true) ∧
      (∀ j q, j < i → cs[j]? = some q → RangeWritable s (buf + q.1) q.2) ∧
      ¬ RangeWritable s (buf + p.1) p.2 := by
  induction cs with
  | nil => intro s; simp [readChunks]
  | cons c cs ih =>
    intro s
    obtain ⟨pos, n⟩ := c
    have ha0 : answer { s with script := s.script.drop 0, draws := s.draws + 0 } n = answer s n := rfl
    rw [readChunks]
    cases hx : xfer (readFrame s (off + BitVec.ofNat 32 pos)) n s with
    | raised e u =>
      constructor
      · intro h; cases h
      · rintro ⟨i, p, -, ha, -⟩
        have := ha 0 (pos, n) (Nat.zero_le _) rfl
        rw [ha0, (xfer_raised hx).1] at this
        cases this
    | ok rx u =>
      obtain ⟨hans, hl, rfl⟩ := xfer_ok hx
      dsimp only
      have hw : ∀ a m, RangeWritable (afterXfer (readFrame s (off + BitVec.ofNat 32 pos)) n s) a m ↔
          RangeWritable s a m := fun a m => Iff.rfl
      by_cases hr : RangeWritable s (buf + pos) n
      · rw [memWrite_of_writable (by rw [hl, hw]; exact hr), Option.bind_some, ih]
        constructor
        · rintro ⟨i, p, hi, ha, hp, hn⟩
          refine ⟨i + 1, p, by simpa using hi, fun j q hj hq => ?_, fun j q hj hq => ?_, hn⟩
          · cases j with
            | zero => cases hq; rw [ha0, hans]; rfl
            | succ j =>
              have := ha j q (by omega) (by simpa using hq)
              rwa [answer_congr (t := { s with script := s.script.drop (j + 1), draws := s.draws + (j + 1) })
                (by simp) (by simp only [afterXfer_draws]; omega)] at this
          · cases j with
            | zero => cases hq; exact hr
            | succ j => exact hp j q (by omega) (by simpa using hq)
        · rintro ⟨i, p, hi, ha, hp, hn⟩
          cases i with
          | zero => cases hi; exact absurd hr hn
          | succ i =>
            refine ⟨i, p, by simpa using hi, fun j q hj hq => ?_, fun j q hj hq => hp (j + 1) q (by omega) (by simpa using hq),
              hn⟩
            rw [answer_congr (t := { s with script := s.script.drop (j + 1), draws := s.draws + (j + 1) })
                (by simp) (by simp only [afterXfer_draws]; omega)]
            exact ha (j + 1) q (by omega) (by simpa using hq)
      · rw [memWrite_none.mpr (by rw [hl, hw]; exact hr), Option.bind_none]
        simp only [true_iff]
        refine ⟨0, (pos, n), rfl, fun j q hj hq => ?_, fun j q hj => absurd hj (Nat.not_lt_zero _), hr⟩
        obtain rfl : j = 0 := by omega
        cases hq
        rw [ha0, hans]
        rfl

/-- What the loop of READ does over memory the host provides, from chunk `k` of a range of `len` bytes in chunks of
`size` with `n` chunks to go: the answered chunks' transactions and bytes, in order, and either all `n` of them or a
FAILURE at the next (43_data_path.md R128). -/
theorem readChunks_spec (off : Word) (buf len size : Nat) : ∀ (n k : Nat) (s : State), s.mem.wf →
    (∀ j, j < n → (k + j) * size < len) → len ≤ (k + n) * size → RangeWritable s (buf + k * size) (len - k * size) →
    ∃ (r : Res Unit) (evs : List Event) (rxs : List (List Byte)),
      readChunks off buf ((List.range' k n).map fun k => (k * size, min size (len - k * size))) s = some r ∧
      CopyOnly s r.state ∧ r.state.trace = s.trace ++ evs ∧ r.state.useq = s.useq + evs.length ∧
      (∀ j rx, rxs[j]? = some rx → rx.length = min size (len - (k + j) * size) ∧
        evs[j]? = some (.xfer (readFrame s (off + BitVec.ofNat 32 ((k + j) * size)))
          (min size (len - (k + j) * size)) (some rx)) ∧
        ∀ i, i < rx.length → r.state.mem.read (buf + (k + j) * size + i) = rx.getD i 0#8) ∧
      (∀ x, x < buf + k * size → r.state.mem.read x = s.mem.read x) ∧
      (((∃ t, r = .ok () t) ∧ rxs.length = n ∧ evs.length = n ∧
          ∀ x, buf + len ≤ x → r.state.mem.read x = s.mem.read x) ∨
       ((∃ e t, r = .raised e t) ∧ rxs.length < n ∧ evs.length = rxs.length + 1 ∧
          evs[rxs.length]? = some (.xfer (readFrame s (off + BitVec.ofNat 32 ((k + rxs.length) * size)))
            (min size (len - (k + rxs.length) * size)) none) ∧
          ∀ x, buf + (k + rxs.length) * size + min size (len - (k + rxs.length) * size) ≤ x →
            r.state.mem.read x = s.mem.read x)) := by
  intro n
  induction n with
  | zero =>
    intro k s _ _ _ _
    exact ⟨.ok () s, [], [], rfl, rfl, by simp [Res.state], rfl, by simp, fun _ _ => rfl,
      .inl ⟨⟨s, rfl⟩, rfl, rfl, fun _ _ => rfl⟩⟩
  | succ n ih =>
    intro k s hw hlt hle hr
    rw [List.range'_succ, List.map_cons, readChunks]
    generalize hm : min size (len - k * size) = m
    have hk : k * size < len := hlt 0 (by omega)
    have hs1 : (k + 1) * size = k * size + size := Nat.succ_mul k size
    cases hx : xfer (readFrame s (off + BitVec.ofNat 32 (k * size))) m s with
    | raised e u =>
      obtain ⟨-, rfl, rfl⟩ := xfer_raised hx
      obtain ⟨-, -, -, ht⟩ := xfer_raised_trace hx
      refine ⟨_, [.xfer (readFrame s (off + BitVec.ofNat 32 (k * size))) m none], [], rfl, rfl, ht, rfl, by simp,
        fun x hb => (memory_read_writeBlock hw _ _ _).trans (if_neg (by omega)),
        .inr ⟨⟨_, _, rfl⟩, by simp, rfl, by simp [hm], fun x hb => ?_⟩⟩
      simp only [List.length_nil, Nat.add_zero, hm] at hb
      exact (memory_read_writeBlock hw _ _ _).trans
        (if_neg (by simp only [freeBytes, List.length_map, List.length_range']; omega))
    | ok rx u =>
      obtain ⟨-, hl, hu⟩ := xfer_ok hx
      obtain ⟨hp, hd, ht⟩ := xfer_ok_trace hx
      have hwr : ∀ x, hostWritable u x = hostWritable s x := fun x => by rw [hp]; rfl
      have hrw : RangeWritable u (buf + k * size) rx.length := fun x h1 h2 => by rw [hwr]; exact hr x h1 (by omega)
      dsimp only
      rw [memWrite_of_writable hrw, Option.bind_some]
      have hmu : u.mem = s.mem := portOnly_mem hp
      have hvw : (u.mem.writeBlock (buf + k * size) rx).wf := by rw [hmu]; exact memory_writeBlock_wf hw _ _
      have hvrd : ∀ x, (u.mem.writeBlock (buf + k * size) rx).read x =
          if buf + k * size ≤ x ∧ x < buf + k * size + rx.length then rx.getD (x - (buf + k * size)) 0#8
          else s.mem.read x := fun x => by rw [hmu, memory_read_writeBlock hw]
      generalize hv : ({ u with mem := u.mem.writeBlock (buf + k * size) rx } : State) = v
      have hvm : v.mem = u.mem.writeBlock (buf + k * size) rx := by rw [← hv]
      have hcv : CopyOnly s v := by
        rw [← hv]; exact copyOnly_trans (copyOnly_of_portOnly hp hd) (copyOnly_mem _ _)
      have hrf : ∀ o, readFrame v o = readFrame s o := fun o => by rw [hcv]; rfl
      have hvt : v.trace = s.trace ++ [.xfer (readFrame s (off + BitVec.ofNat 32 (k * size))) m (some rx)] := by
        rw [← hv]; exact ht
      have hvu : v.useq = s.useq + 1 := by rw [← hv, hu]; rfl
      rw [← hvm] at hvw
      simp only [← hvm] at hvrd
      obtain ⟨r, evs, rxs, h1, h2, h3, h4, h5, h6, h7⟩ := ih (k + 1) v hvw
        (fun j hj => by have := hlt (j + 1) (by omega); rwa [show k + 1 + j = k + (j + 1) by omega])
        (by rwa [show k + 1 + n = k + (n + 1) by omega])
        (fun x g1 g2 => by rw [copyOnly_hostWritable hcv]; exact hr x (by omega) (by omega))
      refine ⟨r, .xfer (readFrame s (off + BitVec.ofNat 32 (k * size))) m (some rx) :: evs, rx :: rxs, h1,
        copyOnly_trans hcv h2, by rw [h3, hvt]; simp, by rw [h4, hvu, List.length_cons]; omega, ?_, ?_, ?_⟩
      · intro j rx' hj
        cases j with
        | zero =>
          simp only [List.getElem?_cons_zero, Option.some.injEq] at hj
          subst hj
          refine ⟨by rw [hl]; exact hm.symm, by simp [hm], fun i hi => ?_⟩
          rw [Nat.add_zero, h6 _ (by omega), hvrd, if_pos (by omega), Nat.add_sub_cancel_left]
        | succ j =>
          have hj := h5 j rx' (by simpa using hj)
          rw [show k + (j + 1) = k + 1 + j by omega]
          exact ⟨hj.1, by rw [List.getElem?_cons_succ, hj.2.1, hrf], hj.2.2⟩
      · intro x hb
        rw [h6 x (by omega), hvrd, if_neg (by omega)]
      · rcases h7 with ⟨a, b, c, d⟩ | ⟨a, b, c, d, e⟩
        · refine .inl ⟨a, by simp [b], by simp [c], fun x hb => ?_⟩
          rw [d x (by omega), hvrd, if_neg (by omega)]
        · have e1 : k + (rxs.length + 1) = k + 1 + rxs.length := by omega
          have hge : (k + 1) * size ≤ (k + 1 + rxs.length) * size := Nat.mul_le_mul_right _ (by omega)
          have hrl : (k + 1 + rxs.length) * size < len := by
            have := hlt (rxs.length + 1) (by omega); rwa [e1] at this
          refine .inr ⟨a, by simp only [List.length_cons]; omega, by simp [c], ?_, fun x hb => ?_⟩
          · rw [List.length_cons, e1, List.getElem?_cons_succ, d, hrf]
          · rw [List.length_cons, e1] at hb
            rw [e x hb, hvrd, if_neg (by omega)]

end Sys2Proof.Machine
end

