-- ==== Sys2Proof/Laws/Discipline.lean ====
section
/-! SUPPORT. The frame discipline of Safety.lean over the pieces of a trace. -/

namespace Sys2Proof.Machine

theorem runPhases_append (c : Config) (evs evs' : List Event) : ∀ p,
    runPhases c p (evs ++ evs') = (runPhases c p evs).bind fun q => runPhases c q evs' := by
  induction evs with
  | nil => intro p; rfl
  | cons e evs ih =>
    intro p
    simp only [List.cons_append, runPhases]
    cases phaseStep c p e with
    | none => rfl
    | some q => exact ih q

theorem disciplined_nil (c : Config) : Disciplined c [] := rfl

theorem disciplined_append {c : Config} {evs evs' : List Event} (h : Disciplined c evs) (k : Disciplined c evs') :
    Disciplined c (evs ++ evs') := by
  unfold Disciplined at *
  rw [runPhases_append, h]
  exact k

/-- A transaction that is neither a write nor a WREN leaves nothing under way. -/
theorem disciplined_plain {c : Config} {op : Byte} {tl : List Byte} {n : Nat} {rx : Option (List Byte)}
    (h1 : op ∉ c.opGbulk :: pollOps c) (h2 : op ≠ c.opWren) : Disciplined c [.xfer (op :: tl) n rx] := by
  simp [Disciplined, runPhases, phaseStep, h1, h2]

/-- The status reads of a poll with WIP set, within the budget. -/
theorem runPhases_busy {c : Config} : ∀ {busy : List Byte} (k : Nat), BusyBytes c busy → k + busy.length < pollBudget →
    runPhases c (.polling k) (busy.map (statusRead c)) = some (.polling (k + busy.length)) := by
  intro busy
  induction busy with
  | nil => intro k _ _; rfl
  | cons b busy ih =>
    intro k hb hk
    simp only [List.length_cons] at hk
    have h0 : bitIsSet b c.sr1WipBit = true := hb b List.mem_cons_self
    have hne : k + 1 ≠ pollBudget := by omega
    have hi := ih (k + 1) (fun x hx => hb x (List.mem_cons_of_mem _ hx)) (by omega)
    simp only [List.map_cons, runPhases, statusRead, phaseStep, List.headD_cons, if_true, firstByte,
      List.getD_cons_zero, h0, if_neg hne, Option.bind_some]
    rw [show k + (b :: busy).length = k + 1 + busy.length by simp only [List.length_cons]; omega]
    exact hi

/-- A ready-poll that succeeds ends the write under way. -/
theorem runPhases_pollCompletes {c : Config} {evs : List Event} (h : PollCompletes c evs) :
    runPhases c (.polling 0) evs = some .idle := by
  obtain ⟨busy, v, hl, hb, hv, rfl⟩ := h
  rw [runPhases_append, runPhases_busy 0 hb (by omega)]
  simp [runPhases, statusRead, phaseStep, firstByte, hv]

/-- A ready-poll that fails or spends its budget ends the write under way. -/
theorem runPhases_pollFails {c : Config} {e : BlockError} {evs : List Event} (h : PollFails c e evs) :
    runPhases c (.polling 0) evs = some .idle := by
  obtain ⟨busy, hb, ⟨-, hl, rfl⟩ | ⟨-, hl, rfl⟩⟩ := h
  · rw [runPhases_append, runPhases_busy 0 hb (by omega)]
    simp [runPhases, phaseStep]
  · obtain ⟨init, b, rfl⟩ : ∃ init b, busy = init ++ [b] := by
      refine ⟨_, _, (List.dropLast_append_getLast (l := busy) ?_).symm⟩
      intro hn; rw [hn] at hl; exact absurd hl (by decide)
    have hb' : BusyBytes c init := fun x hx => hb x (List.mem_append_left _ hx)
    have h0 : bitIsSet b c.sr1WipBit = true := hb b (by simp)
    simp only [List.length_append, List.length_cons, List.length_nil] at hl
    rw [List.map_append, runPhases_append, runPhases_busy 0 hb' (by omega)]
    have hlen : init.length + 1 = pollBudget := by omega
    simp [runPhases, statusRead, phaseStep, firstByte, h0, hlen]

/-- The opcodes that the discipline tells apart are distinct. -/
theorem opcodes_apart {c : Config} (h : opcodesDistinct c) :
    c.opWren ∉ c.opGbulk :: pollOps c ∧ c.opGbulk ∉ pollOps c ∧
      c.opRdsr1 ∉ c.opWren :: c.opGbulk :: pollOps c ∧ c.opRdsr2 ∉ c.opWren :: c.opGbulk :: pollOps c ∧
      c.opRdcr ∉ c.opWren :: c.opGbulk :: pollOps c ∧ c.opRdid ∉ c.opWren :: c.opGbulk :: pollOps c ∧
      opEn4b ∉ c.opWren :: c.opGbulk :: pollOps c ∧
      ∀ op ∈ c.opRead :: recognisedReadOps c, op ∉ c.opWren :: c.opGbulk :: pollOps c := by
  simp only [opcodesDistinct, opcodeMap, List.nodup_cons, List.mem_cons, List.not_mem_nil, or_false, not_or] at h
  simp only [pollOps, recognisedReadOps, List.mem_cons, List.not_mem_nil, or_false, not_or, forall_eq_or_imp, forall_eq]
  grind

/-- A write sequence of a register write, sector erase or page program, completed, obeys the discipline. -/
theorem disciplined_writeCompletes {c : Config} (hd : opcodesDistinct c) {op : Byte} {tl : List Byte}
    (hop : op ∈ pollOps c) {evs : List Event} (h : WriteCompletes c (op :: tl) evs) : Disciplined c evs := by
  obtain ⟨p, hp, rfl⟩ := h
  obtain ⟨h1, h2, -⟩ := opcodes_apart hd
  have hne : op ≠ c.opGbulk := fun he => h2 (he ▸ hop)
  simp only [Disciplined, wrenEvent, runPhases, phaseStep, List.headD_cons, if_neg h1, if_true, Option.isSome_some,
    Option.bind_some, if_neg hne, if_pos hop]
  exact runPhases_pollCompletes hp

/-- A write sequence that fails obeys the discipline. -/
theorem disciplined_writeFails {c : Config} (hd : opcodesDistinct c) {op : Byte} {tl : List Byte}
    (hop : op ∈ pollOps c) {e : BlockError} {evs : List Event} (h : WriteFails c (op :: tl) e evs) :
    Disciplined c evs := by
  obtain ⟨h1, h2, -⟩ := opcodes_apart hd
  have hne : op ≠ c.opGbulk := fun he => h2 (he ▸ hop)
  rcases h with ⟨-, rfl⟩ | ⟨-, rfl⟩ | ⟨p, hp, rfl⟩
  · simp [Disciplined, wrenEvent, runPhases, phaseStep, h1]
  · simp [Disciplined, wrenEvent, runPhases, phaseStep, h1, hne, hop]
  · simp only [Disciplined, wrenEvent, runPhases, phaseStep, List.headD_cons, if_neg h1, if_true, Option.isSome_some,
      Option.bind_some, if_neg hne, if_pos hop]
    exact runPhases_pollFails hp

end Sys2Proof.Machine
end

