-- ==== Sys2Proof/Laws/Encoding.lean ====
section
/-! SUPPORT. The address bytes and the offsets they spell, and what each piece of the frame decoder can answer. -/

namespace Sys2Proof

open Machine

/-- Concatenation as a number. -/
theorem toNat_concat {n m : Nat} (x : BitVec n) (y : BitVec m) : (x ++ y).toNat = x.toNat * 2 ^ m + y.toNat := by
  rw [BitVec.toNat_append, ← Nat.shiftLeft_add_eq_or_of_lt y.isLt, Nat.shiftLeft_eq]

theorem toNat_offsetOf3 (a b c : Byte) : (offsetOf3 a b c).toNat = a.toNat * 65536 + b.toNat * 256 + c.toNat := by
  simp only [offsetOf3, toNat_concat]
  simp
  omega

theorem toNat_offsetOf4 (a b c d : Byte) :
    (offsetOf4 a b c d).toNat = a.toNat * 16777216 + b.toNat * 65536 + c.toNat * 256 + d.toNat := by
  simp only [offsetOf4, toNat_concat]
  omega

/-- Byte `k` of an offset as a number. -/
theorem toNat_offsetByte (o : Word) (k : Nat) : (o.extractLsb' k 8).toNat = o.toNat / 2 ^ k % 256 := by
  simp [Nat.shiftRight_eq_div_pow]

/-- Three address bytes spell the offset they were cut from, where it fits them (42_frame_composer.md R110). -/
theorem offsetOf3_addr3 {o : Word} (h : fitsThree o = true) :
    offsetOf3 (o.extractLsb' 16 8) (o.extractLsb' 8 8) (o.extractLsb' 0 8) = o := by
  have hlt : o.toNat < 16777216 := of_decide_eq_true h
  rw [← BitVec.toNat_inj, toNat_offsetOf3, toNat_offsetByte, toNat_offsetByte, toNat_offsetByte]
  omega

/-- Four address bytes spell the offset they were cut from (42_frame_composer.md R110). -/
theorem offsetOf4_addr4 (o : Word) :
    offsetOf4 (o.extractLsb' 24 8) (o.extractLsb' 16 8) (o.extractLsb' 8 8) (o.extractLsb' 0 8) = o := by
  have hlt := o.isLt
  rw [← BitVec.toNat_inj, toNat_offsetOf4, toNat_offsetByte, toNat_offsetByte, toNat_offsetByte, toNat_offsetByte]
  omega

theorem addr3_offsetOf3 (a b c : Byte) : addr3 (offsetOf3 a b c) = [a, b, c] := by
  have ha := a.isLt; have hb := b.isLt; have hc := c.isLt
  simp only [addr3, List.cons.injEq, and_true, ← BitVec.toNat_inj, toNat_offsetByte, toNat_offsetOf3]
  omega

theorem addr4_offsetOf4 (a b c d : Byte) : addr4 (offsetOf4 a b c d) = [a, b, c, d] := by
  have ha := a.isLt; have hb := b.isLt; have hc := c.isLt; have hd := d.isLt
  simp only [addr4, List.cons.injEq, and_true, ← BitVec.toNat_inj, toNat_offsetByte, toNat_offsetOf4]
  omega

theorem fitsThree_offsetOf3 (a b c : Byte) : fitsThree (offsetOf3 a b c) = true := by
  have ha := a.isLt; have hb := b.isLt; have hc := c.isLt
  simp only [fitsThree, addr3Reach, toNat_offsetOf3, decide_eq_true_eq]
  omega

/-- One step down a chain of cases, for the chain of opcodes of `decodeFrame`. -/
theorem ite_cases {α : Type} {p : Prop} [Decidable p] {a b r : α} (h : (if p then a else b) = r) :
    (p ∧ a = r) ∨ b = r := by
  split_ifs at h with hp
  · exact .inl ⟨hp, h⟩
  · exact .inr h

/-- A bare opcode frame decodes only with nothing after the opcode and the format's response count. -/
theorem decodeBare_ok {i j : Instr} {n rx : Nat} {body : List Byte} (h : decodeBare i n body rx = .ok j) :
    j = i ∧ body = [] ∧ rx = n := by
  unfold decodeBare at h
  split at h
  · split_ifs at h with hn; cases h; exact ⟨rfl, rfl, hn⟩
  · cases h

/-- An `OP_WRSR` frame decodes to the form of its selector. -/
theorem decodeWrsr_ok {sel : RegSel} {j : Instr} {rx : Nat} {body : List Byte} (h : decodeWrsr sel body rx = .ok j) :
    rx = 0 ∧ ((∃ v, j = .wrsrSr1 v ∧ body = [v]) ∨ (∃ v, j = .wrsrSr2 v) ∨ ∃ v, j = .wrsrCr v) := by
  unfold decodeWrsr at h
  split_ifs at h with hn
  split at h <;> cases h <;> exact ⟨by simpa using hn, by simp⟩

theorem decodeSe_ok {j : Instr} {rx : Nat} {body : List Byte} (h : decodeSe body rx = .ok j) :
    rx = 0 ∧ ∃ a b c, body = [a, b, c] ∧ j = .se (offsetOf3 a b c) := by
  unfold decodeSe at h
  split at h
  · split_ifs at h with hn; cases h; exact ⟨hn, _, _, _, rfl, rfl⟩
  · cases h

theorem decodePp_ok {j : Instr} {rx : Nat} {body : List Byte} (h : decodePp body rx = .ok j) :
    rx = 0 ∧ ∃ a b c p, body = a :: b :: c :: p ∧ payloadOk p = true ∧ j = .pp (offsetOf3 a b c) p := by
  unfold decodePp at h
  split at h
  · split_ifs at h with hp hn; cases h; exact ⟨hn, _, _, _, _, rfl, hp, rfl⟩
  · cases h

theorem decodeSlow_ok {j : Instr} {rx : Nat} {body : List Byte} (h : decodeSlow body rx = .ok j) :
    readCountOk rx = true ∧ ∃ a b c, body = [a, b, c] ∧ j = .readSlow (offsetOf3 a b c) rx := by
  unfold decodeSlow at h
  split at h
  · split_ifs at h with hn; cases h; exact ⟨hn, _, _, _, rfl, rfl⟩
  · cases h

/-- A read frame with a dummy byte decodes with the address bytes of the width, the dummy byte and a legal count. -/
theorem decodeRead_ok {c : Config} {w : AddrWidth} {mk : Word → Nat → Instr} {j : Instr} {rx : Nat} {body : List Byte}
    (h : decodeRead c w mk body rx = .ok j) :
    readCountOk rx = true ∧ ∃ o, fitsWidth w o = true ∧ body = addrBytes o w ++ [c.dummyByte] ∧ j = mk o rx := by
  unfold decodeRead at h
  split at h
  · split_ifs at h with hd hn
    cases h
    exact ⟨hn, _, fitsThree_offsetOf3 _ _ _, by simp [addrBytes, addr3_offsetOf3, hd], rfl⟩
  · split_ifs at h with hd hn
    cases h
    exact ⟨hn, _, rfl, by simp [addrBytes, addr4_offsetOf4, hd], rfl⟩
  · cases h

/-- Decoding what the encoder writes for a read frame with a dummy byte. -/
theorem decodeRead_addrBytes (c : Config) (mk : Word → Nat → Instr) {w : AddrWidth} {o : Word} {n : Nat}
    (ho : fitsWidth w o = true) (hn : readCountOk n = true) :
    decodeRead c w mk (addrBytes o w ++ [c.dummyByte]) n = .ok (mk o n) := by
  cases w with
  | three => simp [decodeRead, addrBytes, addr3, hn, offsetOf3_addr3 ho]
  | four => simp [decodeRead, addrBytes, addr4, hn, offsetOf4_addr4]

end Sys2Proof
end

