-- ==== Sys2Proof/Laws/Init.lean ====
section
/-! SUPPORT. What INIT's sequence can do: the steps of a normal end, and the two ways it ends. -/

namespace Sys2Proof.Machine

/-- `t` differs from `s` at most in the session record and in what transactions touch, and the outputs only grew. -/
structure InitOnly (s t : State) : Prop where
  frame : t = { s with
    session := t.session, useq := t.useq, diag := t.diag, trace := t.trace, script := t.script, draws := t.draws }
  asked : Asked s t
  diag : s.diag <+: t.diag

theorem initOnly_trans {s t u : State} (h : InitOnly s t) (k : InitOnly t u) : InitOnly s u :=
  ⟨by rw [k.frame, h.frame], asked_trans h.asked k.asked, h.diag.trans k.diag⟩

theorem initOnly_of_portOnly {s t : State} {r : Session} (h : PortOnly { s with session := r } t)
    (ht : Asked s t) (hd : s.diag <+: t.diag) : InitOnly s t :=
  ⟨by unfold PortOnly at h; rw [h], ht, hd⟩

theorem initOnly_commit (op : Byte) (w : AddrWidth) (s : State) : InitOnly s (commit op w s) :=
  ⟨rfl, asked_congr (asked_refl s) rfl rfl rfl rfl rfl rfl, List.prefix_refl _⟩

/-- The requested opcode is the 3-byte member of a family (42_frame_composer.md R118). -/
theorem reqOp_family {c : Config} {b : Option BootCfg} {rq : Byte} (h : reqOp c b = some rq) :
    rq ∈ [c.opFast, c.opDual, c.opQuad] := by
  unfold reqOp at h
  split at h
  · cases h; simp
  · split at h <;> cases h <;> simp

/-- Normalising a 3-byte opcode, in either direction (42_frame_composer.md R116, R117). -/
theorem family_normalised {c : Config} {rq : Byte} (h : rq ∈ [c.opFast, c.opDual, c.opQuad]) :
    up c rq ∈ [c.opFast4, c.opDual4, c.opQuad4] ∧ down c rq ∈ [c.opFast, c.opDual, c.opQuad] := by
  simp only [List.mem_cons, List.not_mem_nil, or_false] at h ⊢
  unfold up down
  rcases h with rfl | rfl | rfl <;> split_ifs <;> simp_all

theorem contained_enableQuad (id : Ident) (op : Byte) (s : State) : Contained s (enableQuad id op s) := by
  unfold enableQuad
  split
  · exact contained_quadEnable _ _
  · exact contained_ok _ _

/-- The steps of a sequence that ends normally: the identity probed, the state `u` after the probe, the candidates of
step 5, the override, quad enable, the commit (44_init_exit.md R145). -/
theorem initSequence_path {s t : State} (h : initSequence s = .ok () t) : ∃ (id : Ident) (u v : State),
    id.manufacturer ≠ 0x00#8 ∧ InitOnly s u ∧ u.session = { s.session with transportUp := true, id := some id } ∧
    enableQuad id (overrideOp s.cfg id (chooseWidth u).1.1) (chooseWidth u).2 = .ok () v ∧
    PortOnly (chooseWidth u).2 v ∧ Asked (chooseWidth u).2 v ∧ v.diag = (chooseWidth u).2.diag ∧
    t = commit (overrideOp s.cfg id (chooseWidth u).1.1) (chooseWidth u).1.2 v := by
  obtain ⟨⟨⟩, u, hi, h2⟩ := res_bind_eq_ok h
  obtain ⟨-, hpu, hdu, htu⟩ := transportInit_ok hi
  obtain ⟨id, w, hp, h3⟩ := res_bind_eq_ok h2
  obtain ⟨hm, hpw, hdw, htw⟩ := probe_ok hp
  obtain ⟨⟨⟩, v, hq, h4⟩ := res_bind_eq_ok h3
  cases h4
  have iu : InitOnly s u := initOnly_of_portOnly hpu ⟨_, htu⟩ (by simp [hdu])
  have iw : InitOnly s w := initOnly_trans iu (initOnly_of_portOnly hpw htw (by simp [hdw]))
  have hcf : w.cfg = s.cfg := by rw [iw.frame]
  have hc := contained_enableQuad id (overrideOp w.cfg id (chooseWidth w).1.1) (chooseWidth w).2
  rw [hq] at hc
  refine ⟨id, w, v, hm, iw, ?_, hcf ▸ hq, hc.port, hc.asked, ?_, by simp only [hcf]⟩
  · rw [hpw]; simp only; rw [hpu]
  · simpa [Res.state] using hc.logs

/-- A session was committed over an identity: the opcode and width of step 5 with the override of step 6
(44_init_exit.md R152). -/
structure Committed (s t : State) : Prop where
  only : InitOnly s t
  initialized : t.session.initialized = true
  transportUp : t.session.transportUp = true
  unlocked : t.session.unlocked = s.session.unlocked
  choice : ∃ id op, t.session.id = some id ∧ id.manufacturer ≠ 0x00#8 ∧ t.session.readOp = overrideOp s.cfg id op ∧
    ((reqOp s.cfg s.bootCfg = none ∧ op = s.cfg.opRead ∧ t.session.addrWidth = .three) ∨
     ∃ rq, reqOp s.cfg s.bootCfg = some rq ∧
       ((op = down s.cfg rq ∧ t.session.addrWidth = .three) ∨ (op = up s.cfg rq ∧ t.session.addrWidth = .four)))

/-- No session was committed: the three fields of step 8 are as they were (44_init_exit.md R152). -/
structure Abandoned (s t : State) : Prop where
  only : InitOnly s t
  initialized : t.session.initialized = s.session.initialized
  unlocked : t.session.unlocked = s.session.unlocked
  readOp : t.session.readOp = s.session.readOp
  addrWidth : t.session.addrWidth = s.session.addrWidth
  id : t.session.id = s.session.id ∨ ∃ id, t.session.id = some id ∧ id.manufacturer ≠ 0x00#8

/-- INIT's sequence either commits a session or leaves the fields of step 8 as they were (44_init_exit.md R152). -/
theorem initSequence_spec (s : State) :
    (∃ t, initSequence s = .ok () t ∧ Committed s t) ∨ ∃ e t, initSequence s = .raised e t ∧ Abandoned s t := by
  cases hs : initSequence s with
  | ok x t =>
    obtain ⟨id, u, v, hm, iu, su, -, hpv, hgv, hdv, rfl⟩ := initSequence_path (by rw [hs])
    obtain ⟨hpc, htc, hdc⟩ := chooseWidth_spec u
    have sv : v.session = { s.session with transportUp := true, id := some id } := by
      rw [portOnly_session hpv, portOnly_session hpc, su]
    have iv : InitOnly s v :=
      initOnly_trans iu (initOnly_of_portOnly (r := u.session) (portOnly_trans hpc hpv) (asked_trans htc hgv)
        (hdv ▸ hdc))
    have hcf : u.cfg = s.cfg := by rw [iu.frame]
    have hbc : u.bootCfg = s.bootCfg := by rw [iu.frame]
    refine .inl ⟨_, rfl, initOnly_trans iv (initOnly_commit _ _ _), rfl, by simp [commit, sv], by simp [commit, sv],
      id, (chooseWidth u).1.1, by simp [commit, sv], hm, rfl, ?_⟩
    rw [← hcf, ← hbc]
    rcases chooseWidth_choice u with ⟨h1, h2⟩ | ⟨rq, h1, h2 | ⟨h2, -⟩⟩
    · exact .inl ⟨h1, by rw [h2], by simp [commit, h2]⟩
    · exact .inr ⟨rq, h1, .inl ⟨by rw [h2], by simp [commit, h2]⟩⟩
    · exact .inr ⟨rq, h1, .inr ⟨by rw [h2], by simp [commit, h2]⟩⟩
  | raised e t =>
    refine .inr ⟨e, t, rfl, ?_⟩
    rcases res_bind_eq_raised hs with hi | ⟨⟨⟩, u, hi, h2⟩
    · obtain ⟨-, -, hp, hd, ht⟩ := transportInit_raised hi
      have hse := portOnly_session hp
      exact ⟨initOnly_of_portOnly (r := s.session) hp ⟨_, ht⟩ (by simp [hd]), by rw [hse], by rw [hse],
        by rw [hse], by rw [hse], .inl (by rw [hse])⟩
    obtain ⟨-, hpu, hdu, htu⟩ := transportInit_ok hi
    have iu : InitOnly s u := initOnly_of_portOnly hpu ⟨_, htu⟩ (by simp [hdu])
    have su : u.session = { s.session with transportUp := true } := by rw [hpu]
    rcases res_bind_eq_raised h2 with hp | ⟨id, w, hp, h3⟩
    · obtain ⟨hpt, hdt, htt⟩ := probe_raised hp
      have hse : t.session = { s.session with transportUp := true } := by rw [portOnly_session hpt, su]
      exact ⟨initOnly_trans iu (initOnly_of_portOnly (r := u.session) hpt htt (by simp [hdt])), by rw [hse], by rw [hse],
        by rw [hse], by rw [hse], .inl (by rw [hse])⟩
    obtain ⟨hm, hpw, hdw, htw⟩ := probe_ok hp
    have iw : InitOnly s w := initOnly_trans iu (initOnly_of_portOnly hpw htw (by simp [hdw]))
    obtain ⟨hpc, htc, hdc⟩ := chooseWidth_spec w
    rcases res_bind_eq_raised h3 with hq | ⟨⟨⟩, v, -, h4⟩
    · have hc := contained_enableQuad id (overrideOp w.cfg id (chooseWidth w).1.1) (chooseWidth w).2
      rw [hq] at hc
      have hse : t.session = { s.session with transportUp := true, id := some id } := by
        have e1 : t.session = (chooseWidth w).2.session := portOnly_session hc.port
        rw [e1, portOnly_session hpc, hpw]
        simp only
        rw [su]
      have ic : InitOnly w t := initOnly_of_portOnly (r := w.session) (portOnly_trans hpc hc.port)
        (asked_trans htc hc.asked)
        (hdc.trans ⟨_, hc.logs.symm⟩)
      exact ⟨initOnly_trans iw ic, by rw [hse], by rw [hse], by rw [hse], by rw [hse], .inr ⟨id, by rw [hse], hm⟩⟩
    · cases h4

end Sys2Proof.Machine
end

