-- ==== Sys2Proof/Laws/PerInstr.lean ====
section
/-! SUPPORT. One statement family over the instructions: the size of an encoded instruction (20_memory.md R52). -/

namespace Sys2Proof.Laws.EncodedSize

open Sys2Proof.Machine

/-- A host command encodes as a descriptor; a well-formed frame has 1 to 132 tx bytes and at most `READ_CHUNK` response
bytes (20_memory.md R52, 70_reset_and_hazards.md R184). -/
def Statement (i : Instr) : Prop :=
  ∀ (c : Config) (w : AddrWidth), wellFormed w i = true →
    match encode c w i with
    | .desc _ => isHostCommand i = true
    | .frame r => isHostCommand i = false ∧ 1 ≤ r.tx.length ∧ r.tx.length ≤ 132 ∧ r.rx ≤ readChunk

theorem size_of_read {c : Config} {w : AddrWidth} {op : Byte} {o : Word} {n : Nat}
    (h : (fitsWidth w o && readCountOk n) = true) :
    1 ≤ (op :: (addrBytes o w ++ [c.dummyByte])).length ∧ (op :: (addrBytes o w ++ [c.dummyByte])).length ≤ 132 ∧
      n ≤ readChunk := by
  simp only [Bool.and_eq_true, readCountOk, decide_eq_true_eq] at h
  refine ⟨by simp, ?_, h.2.2⟩
  cases w <;> simp [addrBytes, addr3, addr4]

theorem init (stage : Word) : Statement (.init stage) := fun _ _ _ => rfl

theorem exit (stage : Word) : Statement (.exit stage) := fun _ _ _ => rfl

theorem unlock : Statement (.unlock) := fun _ _ _ => rfl

theorem read (a0 : Word) (a1 : Word) (buf : Word) : Statement (.read a0 a1 buf) := fun _ _ _ => rfl

theorem erase (a0 : Word) (a1 : Word) : Statement (.erase a0 a1) := fun _ _ _ => rfl

theorem write (a0 : Word) (a1 : Word) (buf : Word) : Statement (.write a0 a1 buf) := fun _ _ _ => rfl

theorem rdid : Statement (.rdid) := fun _ _ _ => ⟨rfl, by simp, by simp, by simp [readChunk]⟩

theorem rdsr1 : Statement (.rdsr1) := fun _ _ _ => ⟨rfl, by simp, by simp, by simp [readChunk]⟩

theorem rdsr2 : Statement (.rdsr2) := fun _ _ _ => ⟨rfl, by simp, by simp, by simp [readChunk]⟩

theorem rdcr : Statement (.rdcr) := fun _ _ _ => ⟨rfl, by simp, by simp, by simp [readChunk]⟩

theorem wren : Statement (.wren) := fun _ _ _ => ⟨rfl, by simp, by simp, by simp [readChunk]⟩

theorem wrsrSr1 (v : Byte) : Statement (.wrsrSr1 v) := fun _ _ _ => ⟨rfl, by simp, by simp, by simp [readChunk]⟩

theorem wrsrSr2 (v : Byte) : Statement (.wrsrSr2 v) := fun _ _ _ => ⟨rfl, by simp, by simp, by simp [readChunk]⟩

theorem wrsrCr (v : Byte) : Statement (.wrsrCr v) := fun _ _ _ => ⟨rfl, by simp, by simp, by simp [readChunk]⟩

theorem en4b : Statement (.en4b) := fun _ _ _ => ⟨rfl, by simp, by simp, by simp [readChunk]⟩

theorem ex4b : Statement (.ex4b) := fun _ _ _ => ⟨rfl, by simp, by simp, by simp [readChunk]⟩

theorem gbulk : Statement (.gbulk) := fun _ _ _ => ⟨rfl, by simp, by simp, by simp [readChunk]⟩

theorem se (a : Word) : Statement (.se a) := fun _ _ _ => ⟨rfl, by simp, by simp [addr3], by simp [readChunk]⟩

theorem pp (a : Word) (p : List Byte) : Statement (.pp a p) := by
  intro c w h
  simp only [wellFormed, payloadOk, Bool.and_eq_true, decide_eq_true_eq, progChunk] at h
  obtain ⟨-, -, hp⟩ := h
  have hp := of_decide_eq_true hp
  refine ⟨rfl, by simp, ?_, by simp [readChunk]⟩
  simp only [addr3, List.length_cons, List.length_append, List.length_nil]
  omega

theorem readSlow (o : Word) (n : Nat) : Statement (.readSlow o n) := by
  intro c w h
  simp only [wellFormed, readCountOk, Bool.and_eq_true, decide_eq_true_eq] at h
  exact ⟨rfl, by simp, by simp [addr3], h.2.2⟩

theorem fast (o : Word) (n : Nat) : Statement (.fast o n) := fun _ _ h => ⟨rfl, size_of_read h⟩

theorem fast4 (o : Word) (n : Nat) : Statement (.fast4 o n) := fun _ _ h => ⟨rfl, size_of_read h⟩

theorem dual (o : Word) (n : Nat) : Statement (.dual o n) := fun _ _ h => ⟨rfl, size_of_read h⟩

theorem dual4 (o : Word) (n : Nat) : Statement (.dual4 o n) := fun _ _ h => ⟨rfl, size_of_read h⟩

theorem quad (o : Word) (n : Nat) : Statement (.quad o n) := fun _ _ h => ⟨rfl, size_of_read h⟩

theorem quad4 (o : Word) (n : Nat) : Statement (.quad4 o n) := fun _ _ h => ⟨rfl, size_of_read h⟩

end Sys2Proof.Laws.EncodedSize
end

