-- ==== Sys2Proof/Tests/Slice0.lean ====
section
/-! SUPPORT. Tests: the well-formedness checks, the words of every row, the vectors of 95_test_vectors.md, and for
every statement with hypotheses a state and operands that meet them. -/

namespace Sys2Proof.Tests

open Sys2Proof.Machine

/-! ### WellFormed refuses each kind of ill-formed term -/

theorem test_wf_se_offset_beyond_three_bytes : wellFormed .four (.se 0x01000000#32) = false := by decide

theorem test_wf_pp_offset_beyond_three_bytes : wellFormed .four (.pp 0x01000000#32 [0x00#8]) = false := by decide

theorem test_wf_pp_empty_payload : wellFormed .three (.pp 0#32 []) = false := by decide

theorem test_wf_pp_payload_of_129 : wellFormed .three (.pp 0#32 (List.replicate 129 0x00#8)) = false := by
  decide +kernel

theorem test_wf_slow_offset_beyond_three_bytes : wellFormed .four (.readSlow 0x01000000#32 1) = false := by decide

theorem test_wf_fast_offset_beyond_three_bytes : wellFormed .three (.fast 0x01000000#32 1) = false := by decide

theorem test_wf_read_count_zero : wellFormed .three (.quad 0#32 0) = false := by decide

theorem test_wf_read_count_beyond_chunk : wellFormed .three (.dual 0#32 8388609) = false := by decide

/-! ### Words written out from 30_encoding.md R60 to R65 and the vectors L2-D, L2-G

The opcodes are the defaults of 00_scope.md R11. -/

/-- Decode a descriptor. -/
def word (w0 w1 w2 w3 : Word) : Except DecodeError Instr := decode defaultConfig .three (.desc ⟨w0, w1, w2, w3⟩)

/-- Decode a frame at address width `w`. -/
def bytes (w : AddrWidth) (tx : List Byte) (rx : Nat) : Except DecodeError Instr :=
  decode defaultConfig w (.frame ⟨tx, rx, .sr1⟩)

theorem test_word_init : word 0x00000001#32 0#32 0#32 0#32 = .ok (.init 0#32) := by decide

theorem test_word_exit : word 0x00000002#32 7#32 0xFFFFFFFF#32 0x1234#32 = .ok (.exit 7#32) := by decide

theorem test_word_unlock : word 0x00000003#32 0#32 0#32 0#32 = .ok .unlock := by decide

theorem test_word_read :
    word 0x00000004#32 0x80#32 0x10#32 0x40000000#32 = .ok (.read 0x80#32 0x10#32 0x40000000#32) := by decide

theorem test_word_erase : word 0x00000005#32 8#32 16#32 0xDEAD#32 = .ok (.erase 8#32 16#32) := by decide

theorem test_word_write :
    word 0x00000006#32 3#32 1#32 0x40001000#32 = .ok (.write 3#32 1#32 0x40001000#32) := by decide

theorem test_word_rdid : bytes .three [0x9F#8] 3 = .ok .rdid := by decide

theorem test_word_rdsr1 : bytes .three [0x05#8] 1 = .ok .rdsr1 := by decide

theorem test_word_rdsr2 : bytes .three [0x35#8] 1 = .ok .rdsr2 := by decide

theorem test_word_rdcr : bytes .three [0x15#8] 1 = .ok .rdcr := by decide

theorem test_word_wren : bytes .three [0x06#8] 0 = .ok .wren := by decide

theorem test_word_wrsr_sr1 : bytes .three [0x01#8, 0x40#8] 0 = .ok (.wrsrSr1 0x40#8) := by decide

theorem test_word_wrsr_sr2 :
    decode defaultConfig .three (.frame ⟨[0x01#8, 0x1C#8, 0x02#8], 0, .sr2⟩) = .ok (.wrsrSr2 0x02#8) := by decide

theorem test_word_wrsr_cr :
    decode defaultConfig .three (.frame ⟨[0x01#8, 0x00#8, 0x22#8], 0, .cr⟩) = .ok (.wrsrCr 0x22#8) := by decide

theorem test_word_en4b : bytes .three [0xB7#8] 0 = .ok .en4b := by decide

theorem test_word_ex4b : bytes .three [0xE9#8] 0 = .ok .ex4b := by decide

theorem test_word_gbulk : bytes .three [0x98#8] 0 = .ok .gbulk := by decide

theorem test_word_se : bytes .four [0x20#8, 0xFF#8, 0xF0#8, 0x00#8] 0 = .ok (.se 0x00FFF000#32) := by decide

theorem test_word_pp : bytes .three [0x02#8, 0x00#8, 0x01#8, 0x80#8, 0x11#8, 0x22#8, 0x33#8] 0 =
    .ok (.pp 0x00000180#32 [0x11#8, 0x22#8, 0x33#8]) := by decide

theorem test_word_read_slow :
    bytes .three [0x03#8, 0x12#8, 0x34#8, 0x56#8] 1 = .ok (.readSlow 0x00123456#32 1) := by decide

theorem test_word_fast :
    bytes .three [0x0B#8, 0xFF#8, 0xFF#8, 0xFF#8, 0x00#8] 512 = .ok (.fast 0x00FFFFFF#32 512) := by decide

theorem test_word_fast_at_four :
    bytes .four [0x0B#8, 0x01#8, 0x00#8, 0x00#8, 0x00#8, 0x00#8] 512 = .ok (.fast 0x01000000#32 512) := by decide

theorem test_word_fast4 :
    bytes .four [0x0C#8, 0x01#8, 0x23#8, 0x45#8, 0x67#8, 0x00#8] 512 = .ok (.fast4 0x01234567#32 512) := by decide

theorem test_word_dual : bytes .three [0x3B#8, 0x00#8, 0x00#8, 0x00#8, 0x00#8] 1 = .ok (.dual 0#32 1) := by decide

theorem test_word_dual4 :
    bytes .four [0x3C#8, 0xFF#8, 0xFF#8, 0xFE#8, 0x00#8, 0x00#8] 512 = .ok (.dual4 0xFFFFFE00#32 512) := by decide

theorem test_word_quad :
    bytes .three [0x6B#8, 0x00#8, 0x02#8, 0x00#8, 0x00#8] 8388608 = .ok (.quad 0x00000200#32 8388608) := by decide

theorem test_word_quad4 :
    bytes .four [0x6C#8, 0x10#8, 0x00#8, 0x00#8, 0x00#8, 0x00#8] 512 = .ok (.quad4 0x10000000#32 512) := by decide

theorem test_refuse_command_zero : word 0#32 0#32 0#32 0#32 = .error .unknownCommand := by decide

theorem test_refuse_command_seven : word 7#32 0#32 0#32 0#32 = .error .unknownCommand := by decide

theorem test_refuse_reserved_bit : word 0x00000104#32 0#32 0#32 0#32 = .error .reservedBits := by decide

theorem test_refuse_empty_frame : bytes .three [] 0 = .error .emptyFrame := by decide

theorem test_refuse_unknown_opcode : bytes .three [0xEB#8] 0 = .error .unknownOpcode := by decide

theorem test_refuse_length : bytes .three [0x0C#8, 0x01#8, 0x00#8, 0x00#8, 0x00#8, 0x00#8] 512 = .error .badLength := by
  decide

theorem test_refuse_count : bytes .three [0x9F#8] 2 = .error .badCount := by decide

theorem test_refuse_dummy : bytes .three [0x0B#8, 0x00#8, 0x00#8, 0x00#8, 0x01#8] 1 = .error .badDummy := by decide

theorem test_table_descriptor : decodeTableWord 32 0x00000003 = some .unlock := by decide

theorem test_table_operands : decodeTableWord 128 (4 + 5 * 2 ^ 32 + 6 * 2 ^ 64 + 7 * 2 ^ 96) =
    some (.read 5#32 6#32 7#32) := by decide

theorem test_table_frame : decodeTableWord 8 0x6B = some (.quad 0#32 1) := by decide

/-! ### Small states -/

/-- Reset with the OPEN parameters fixed as the vectors fix them, and every 32-bit host address provided. -/
def fixed : State :=
  { State.reset with
    cfg := { defaultConfig with gbulkEnabled := false, mxVolatileQe := [], hostAddrWidth := 32 }
    hostMap := [⟨0, 2 ^ 32, true, true⟩] }

/-- `fixed` with a boot configuration and the transport's answers. -/
def boot (b : Option BootCfg) (script : List Answer) : State := { fixed with bootCfg := b, script := script }

/-- A session over identity `id` in the fast-read mode at THREE, with the transport's answers. -/
def session (id : Ident) (script : List Answer) : State :=
  { fixed with session := ⟨true, false, .three, 0x0B#8, some id, true⟩, script := script }

/-- The same with the global unlock's gate on. -/
def gated (id : Ident) (script : List Answer) : State :=
  { session id script with cfg := { fixed.cfg with gbulkEnabled := true } }

/-- `s` with one host command to run. -/
def issue (s : State) (d : Descriptor) : State := { s with program := [d], hpc := 0, statuses := [] }

/-- The next state of an outcome. -/
def next? (o : Host.Outcome State Fault Refusal) : Option State :=
  match o with
  | .next t => some t
  | .fault _ => none
  | .refused _ => none

/-- The fault of an outcome. -/
def fault? (o : Host.Outcome State Fault Refusal) : Option Fault :=
  match o with
  | .next _ => none
  | .fault f => some f
  | .refused _ => none

theorem fault_of_fault? {o : Host.Outcome State Fault Refusal} {f : Fault} (h : fault? o = some f) : o = .fault f := by
  cases o with
  | next t => cases h
  | fault g => cases h; rfl
  | refused r => cases h

/-- What `f` sees of the state after `i`. -/
def see {α : Type} (i : Instr) (s : State) (f : State → α) : Option α := (next? (exec i s)).map f

/-- An answer of no bytes. -/
def ack : Answer := .ok []

/-- The transmitted bytes of each transaction. -/
def sent (evs : List Event) : List (List Byte) :=
  evs.filterMap fun e =>
    match e with
    | .xfer tx _ _ => some tx
    | .transportInit _ => none
    | .transportTeardown => none

def winbond : Ident := ⟨0xEF#8, 0x40#8, 0x18#8⟩
def gigaDevice : Ident := ⟨0xC8#8, 0x40#8, 0x18#8⟩
def macronix : Ident := ⟨0xC2#8, 0x20#8, 0x18#8⟩
def sst : Ident := ⟨0xBF#8, 0x25#8, 0x8D#8⟩

/-! ### Frames: the vectors L2-A -/

theorem test_rdsr1 : see .rdsr1 (boot none [.ok [0x9C#8]]) (fun t => (t.result, sent t.trace)) =
    some (.ok [0x9C#8], [[0x05#8]]) := by decide

theorem test_rdsr1_failure : see .rdsr1 (boot none [.fail]) State.result = some (.error (.transport .xfer)) := by decide

theorem test_rdsr2 : see .rdsr2 (boot none [.ok [0x40#8]]) (fun t => (t.result, sent t.trace)) =
    some (.ok [0x40#8], [[0x35#8]]) := by decide

theorem test_rdcr : see .rdcr (boot none [.ok [0xFF#8]]) (fun t => (t.result, sent t.trace)) =
    some (.ok [0xFF#8], [[0x15#8]]) := by decide

theorem test_rdid : see .rdid (boot none [.ok [0xEF#8, 0x40#8, 0x18#8]]) (fun t => (t.result, t.useq)) =
    some (.ok [0xEF#8, 0x40#8, 0x18#8], 1) := by decide

theorem test_wren : see .wren (boot none [ack]) (fun t => (t.result, sent t.trace)) = some (.ok [], [[0x06#8]]) := by
  decide

theorem test_wrsr_sr1 : see (.wrsrSr1 0x5C#8) (boot none [ack, ack, .ok [0x00#8]]) (fun t => (t.result, sent t.trace)) =
    some (.ok [], [[0x06#8], [0x01#8, 0x5C#8], [0x05#8]]) := by decide

theorem test_wrsr_sr1_write_enable_fails :
    see (.wrsrSr1 0x00#8) (boot none [.fail]) (fun t => (t.result, sent t.trace)) =
      some (.error (.transport .xfer), [[0x06#8]]) := by decide

theorem test_wrsr_sr2_sends_sr1_as_read :
    see (.wrsrSr2 0x02#8) (boot none [.ok [0x01#8], ack, ack, .ok [0x00#8]]) (fun t => (t.result, sent t.trace)) =
      some (.ok [], [[0x05#8], [0x06#8], [0x01#8, 0x01#8, 0x02#8], [0x05#8]]) := by decide

theorem test_wrsr_cr_polls_until_ready :
    see (.wrsrCr 0x22#8) (boot none [.ok [0x00#8], ack, ack, .ok [0x01#8], .ok [0x03#8], .ok [0x02#8]])
      (fun t => (t.result, (sent t.trace).drop 2)) =
      some (.ok [], [[0x01#8, 0x00#8, 0x22#8], [0x05#8], [0x05#8], [0x05#8]]) := by decide

theorem test_en4b : see .en4b (boot none [ack]) (fun t => sent t.trace) = some [[0xB7#8]] := by decide

theorem test_ex4b : see .ex4b (boot none [ack]) (fun t => sent t.trace) = some [[0xE9#8]] := by decide

theorem test_gbulk : see .gbulk (boot none [ack, ack]) (fun t => sent t.trace) = some [[0x06#8], [0x98#8]] := by decide

theorem test_se_drops_the_top_byte : see (.se 0x01FFF000#32) (boot none [ack]) (fun t => sent t.trace) =
    some [[0x20#8, 0xFF#8, 0xF0#8, 0x00#8]] := by decide

theorem test_pp : see (.pp 0x00000180#32 [0x11#8, 0x22#8, 0x33#8]) (boot none [ack]) (fun t => sent t.trace) =
    some [[0x02#8, 0x00#8, 0x01#8, 0x80#8, 0x11#8, 0x22#8, 0x33#8]] := by decide

theorem test_read_slow : see (.readSlow 0x01234567#32 1) (boot none [ack]) (fun t => sent t.trace) =
    some [[0x03#8, 0x23#8, 0x45#8, 0x67#8]] := by decide

/-- `fixed` at address width FOUR. -/
def wide (script : List Answer) : State := { boot none script with session.addrWidth := .four }

theorem test_fast_at_four : see (.fast 0x01000000#32 1) (wide [ack]) (fun t => sent t.trace) =
    some [[0x0B#8, 0x01#8, 0x00#8, 0x00#8, 0x00#8, 0x00#8]] := by decide

theorem test_fast4 : see (.fast4 0x01234567#32 1) (wide [ack]) (fun t => sent t.trace) =
    some [[0x0C#8, 0x01#8, 0x23#8, 0x45#8, 0x67#8, 0x00#8]] := by decide

theorem test_dual : see (.dual 0#32 1) (boot none [ack]) (fun t => sent t.trace) =
    some [[0x3B#8, 0x00#8, 0x00#8, 0x00#8, 0x00#8]] := by decide

theorem test_dual4 : see (.dual4 0xFFFFFE00#32 1) (wide [ack]) (fun t => sent t.trace) =
    some [[0x3C#8, 0xFF#8, 0xFF#8, 0xFE#8, 0x00#8, 0x00#8]] := by decide

theorem test_quad : see (.quad 0x00000200#32 1) (boot none [ack]) (fun t => sent t.trace) =
    some [[0x6B#8, 0x00#8, 0x02#8, 0x00#8, 0x00#8]] := by decide

theorem test_quad4 : see (.quad4 0x10000000#32 1) (wide [ack]) (fun t => sent t.trace) =
    some [[0x6C#8, 0x10#8, 0x00#8, 0x00#8, 0x00#8, 0x00#8]] := by decide

/-! ### Host commands: the vectors L1 and L2-B to L2-F -/

/-- L1-7: GigaDevice with quad mode. -/
def bootGigaDevice : State := boot (some ⟨.quad, 16⟩)
  [ack, .ok [0xC8#8, 0x40#8, 0x18#8], .ok [0x00#8], .ok [0x00#8], ack, ack, .ok [0x00#8], .ok [0x02#8]]

theorem test_init_quad : see (.init 0#32) bootGigaDevice (fun t => (t.session, t.statuses, sent t.trace)) =
    some (⟨true, false, .three, 0x6B#8, some gigaDevice, true⟩, [0#32],
      [[0x9F#8], [0x35#8], [0x05#8], [0x06#8], [0x01#8, 0x00#8, 0x02#8], [0x05#8], [0x35#8]]) := by decide

/-- F6: the negotiation fails and INIT falls back to THREE. -/
def bootRefusesFour : State :=
  boot (some ⟨.dual, 32⟩) [ack, .ok [0xEF#8, 0x40#8, 0x19#8], ack, .ok [0x00#8]]

theorem test_init_falls_back : see (.init 0#32) bootRefusesFour (fun t => (t.session, t.statuses, t.diag)) =
    some (⟨true, false, .three, 0x3B#8, some ⟨0xEF#8, 0x40#8, 0x19#8⟩, true⟩, [0#32],
      [⟨.addressingNegotiation, .cr 0x00#8⟩]) := by decide

/-- F15: EXIT keeps the opcode, the width and the identity. -/
theorem test_exit : see (.exit 0#32) (session winbond []) (fun t => (t.session, t.trace, t.hpc)) =
    some (⟨false, false, .three, 0x0B#8, some winbond, false⟩, [.transportTeardown], 1) := by decide

/-- C1: CMP is set, so SR2 is rewritten first. -/
def lockedGigaDevice : State := session gigaDevice
  [.ok [0x42#8], .ok [0x1C#8], ack, ack, .ok [0x1C#8], ack, ack, .ok [0x00#8]]

theorem test_unlock_giga_device : see .unlock lockedGigaDevice (fun t => (t.session.unlocked, t.statuses, sent t.trace)) =
    some (true, [0#32], [[0x35#8], [0x05#8], [0x06#8], [0x01#8, 0x1C#8, 0x02#8], [0x05#8], [0x06#8],
      [0x01#8, 0x00#8], [0x05#8]]) := by decide

/-- C4: Macronix, gate on. -/
theorem test_unlock_macronix_gated :
    see .unlock (gated macronix [.ok [0x3C#8], ack, ack, .ok [0x00#8], ack, ack]) (fun t => (t.statuses, sent t.trace)) =
      some ([0#32], [[0x05#8], [0x06#8], [0x01#8, 0x00#8], [0x05#8], [0x06#8], [0x98#8]]) := by decide

/-- E2: one chunk of 512 bytes. -/
def readsBytes : State := session winbond [.ok (List.replicate 512 0xA5#8)]

theorem test_read_copies : see (.read 0#32 1#32 0x1000#32) readsBytes
      (fun t => (t.statuses, sent t.trace, t.mem.read 0xFFF, t.mem.read 0x1000, t.mem.read 0x11FF, t.mem.read 0x1200)) =
    some ([0#32], [[0x0B#8, 0x00#8, 0x00#8, 0x00#8, 0x00#8]], 0x00#8, 0xA5#8, 0xA5#8, 0x00#8) := by decide +kernel

/-- A READ that fails returns -1 and logs nothing. -/
theorem test_read_failure : see (.read 0#32 1#32 0#32) (session winbond [.fail])
    (fun t => (t.statuses, t.diag)) = some ([0xFFFFFFFF#32], []) := by decide +kernel

/-- E8: the second sector wraps to 0. -/
theorem test_erase_wraps : see (.erase 0x7FFFF8#32 16#32) (session winbond [ack, ack, .ok [0x00#8], ack, ack, .ok [0x00#8]])
      (fun t => (t.statuses, sent t.trace)) =
    some ([0#32], [[0x06#8], [0x20#8, 0xFF#8, 0xF0#8, 0x00#8], [0x05#8], [0x06#8], [0x20#8, 0x00#8, 0x00#8, 0x00#8],
      [0x05#8]]) := by decide

/-- E9: the second sector's SE fails and the third is not issued. -/
theorem test_erase_stops : see (.erase 0#32 24#32) (session winbond [ack, ack, .ok [0x00#8], ack, .fail])
      (fun t => (t.statuses.length, (sent t.trace).length, t.session.unlocked)) = some (1, 5, true) := by decide

/-- E13: four pieces of 128 bytes. -/
def writesBytes : State :=
  { session winbond (List.replicate 4 [ack, ack, .ok [0x00#8]]).flatten with mem := [(0x80, 0x77#8)] }

theorem test_write_pieces : see (.write 3#32 1#32 0#32) writesBytes
      (fun t => (t.statuses, (sent t.trace).map fun tx => (tx.length, tx.take 5))) =
    some ([0#32], [(1, [0x06#8]), (132, [0x02#8, 0x00#8, 0x06#8, 0x00#8, 0x00#8]), (1, [0x05#8]),
      (1, [0x06#8]), (132, [0x02#8, 0x00#8, 0x06#8, 0x80#8, 0x77#8]), (1, [0x05#8]),
      (1, [0x06#8]), (132, [0x02#8, 0x00#8, 0x07#8, 0x00#8, 0x00#8]), (1, [0x05#8]),
      (1, [0x06#8]), (132, [0x02#8, 0x00#8, 0x07#8, 0x80#8, 0x00#8]), (1, [0x05#8])]) := by decide +kernel

/-- E14: the third piece's poll fails. -/
theorem test_write_stops : see (.write 0#32 1#32 0#32)
      (session winbond [ack, ack, .ok [0x00#8], ack, ack, .ok [0x00#8], ack, ack, .fail]) (fun t => (sent t.trace).length) =
    some 9 := by decide +kernel

/-- E3: the two chunks of 8 MiB and 512 bytes. -/
theorem test_read_chunks : chunks readChunk 0x800200 = [(0, 8388608), (8388608, 512)] := by decide

/-- L1-8: `Program` of 300 bytes. -/
theorem test_program_chunks : chunks progChunk 300 = [(0, 128), (128, 128), (256, 44)] := by decide

/-! ### Witnesses: each theorem shows a state and operands that meet all hypotheses of the statement it names -/

/-- A session in the middle of a run, with an aligned ERASE of one sector to run. -/
def midSession : State :=
  issue (session winbond [ack, ack, .ok [0x00#8]]) ⟨0x00000005#32, 8#32, 8#32, 0#32⟩

theorem midSession_invariant : MachineInv midSession := by
  constructor
  · exact memory_nil_wf
  · decide
  · decide
  · decide
  · intro id h
    simp only [midSession, issue, session, Option.some.injEq] at h
    subst h
    decide
  · decide
  · decide
  · decide

theorem witness_EveryStepKeepsInvariant : MachineInv midSession ∧ ∃ t, step midSession = .next t ∧ t.trace ≠ [] :=
  ⟨midSession_invariant, _, rfl, by decide⟩

theorem witness_StepRunsTheDecodedCommand :
    midSession.request = none ∧ midSession.program[midSession.hpc]? = some ⟨0x00000005#32, 8#32, 8#32, 0#32⟩ ∧
      decode midSession.cfg midSession.session.addrWidth (.desc ⟨0x00000005#32, 8#32, 8#32, 0#32⟩) =
        .ok (.erase 8#32 8#32) := by decide

/-- `fixed` with a frame to run on its own. -/
def asking : State := { fixed with request := some ⟨[0x05#8], 1, .sr1⟩ }

theorem witness_StepRunsTheRequestedFrame :
    asking.request = some ⟨[0x05#8], 1, .sr1⟩ ∧
      decode asking.cfg asking.session.addrWidth (.frame ⟨[0x05#8], 1, .sr1⟩) = .ok .rdsr1 := by decide

theorem witness_IdleBlockStays : State.reset.request = none ∧ State.reset.program.length ≤ State.reset.hpc := by decide

/-- Both sides of the equivalence: `cmd` 0, 7 and a reserved bit are refused; `cmd` 1 and 6 are not. -/
theorem witness_IllegalDescriptorIsRefused :
    (∀ d ∈ [(⟨0x00000000#32, 0#32, 0#32, 0#32⟩ : Descriptor), ⟨0x00000007#32, 0#32, 0#32, 0#32⟩,
        ⟨0x00000104#32, 0#32, 0#32, 0#32⟩],
      (issue fixed d).request = none ∧ (issue fixed d).program[(issue fixed d).hpc]? = some d ∧
        (d.w0.toNat / 256 ≠ 0 ∨ d.w0.toNat % 256 = 0 ∨ 6 < d.w0.toNat % 256)) ∧
    ∀ d ∈ [(⟨0x00000001#32, 0#32, 0#32, 0#32⟩ : Descriptor), ⟨0x00000006#32, 0#32, 0#32, 0#32⟩],
      (issue fixed d).request = none ∧ (issue fixed d).program[(issue fixed d).hpc]? = some d ∧
        ¬ (d.w0.toNat / 256 ≠ 0 ∨ d.w0.toNat % 256 = 0 ∨ 6 < d.w0.toNat % 256) := by decide

theorem witness_PlacedWordIsRunNext :
    decode State.reset.cfg State.reset.session.addrWidth (tableCode State.reset.cfg State.reset.session.addrWidth 32 1) =
        .ok (.init 0#32) ∧
      decode State.reset.cfg State.reset.session.addrWidth
        (tableCode State.reset.cfg State.reset.session.addrWidth 8 0x20) = .ok (.se 0#32) := by decide

theorem witness_DecodeOfEncodeIsTheInstruction :
    opcodesDistinct defaultConfig ∧ wellFormed .three (.se 0x00FFFFFF#32) = true ∧
      wellFormed .four (.quad4 0xFFFFFFFF#32 8388608) = true := by decide

theorem witness_DecodedInstructionIsWellFormed :
    decode defaultConfig .three (.frame ⟨[0x03#8, 0xFF#8, 0xFF#8, 0xFF#8], 8388608, .sr1⟩) =
      .ok (.readSlow 0x00FFFFFF#32 8388608) := by decide

theorem witness_EncodeOfDecodedFrameIsTheFrame :
    decode defaultConfig .three (.frame ⟨[0x01#8, 0x40#8], 0, .sr1⟩) = .ok (.wrsrSr1 0x40#8) ∧
      (∀ v, Instr.wrsrSr1 0x40#8 ≠ .wrsrSr2 v) ∧ ∀ v, Instr.wrsrSr1 0x40#8 ≠ .wrsrCr v :=
  ⟨by decide, fun _ h => (nomatch h), fun _ h => (nomatch h)⟩

theorem witness_ThreeByteAddressesAlias : fixed.session.addrWidth = .three := by decide

theorem witness_NormalisationStaysInTheFamily : opcodesDistinct defaultConfig := by decide

/-- 0x4001 host sectors: chunk 0 is whole, chunk 1 is the last; the longest request has 512 chunks. -/
theorem witness_ReadChunksCoverTheRange :
    0 + 1 < (chunks readChunk 0x800200).length ∧ 1 < (chunks readChunk 0x800200).length ∧
      (chunks readChunk (2 ^ 32 - 512)).length = 512 := by decide +kernel

theorem witness_WriteChunksAreAligned :
    (0, 128) ∈ chunks progChunk (byteLength 1#32).toNat ∧ (384, 128) ∈ chunks progChunk (byteLength 1#32).toNat := by
  decide

theorem witness_FrameTouchesOnlyThePort : isHostCommand .rdid = false := by decide

/-- The opcodes are distinct; at reset `S.readOp` is the slow read with THREE; in a session it may be a fast one. -/
theorem witness_ReadOpcodeFrames :
    opcodesDistinct fixed.cfg ∧ fixed.session.readOp = fixed.cfg.opRead ∧ fixed.session.addrWidth = .three ∧
      opcodesDistinct midSession.cfg ∧ midSession.session.readOp = midSession.cfg.opFast := by decide

theorem witness_PairedFormRegisterWrites : Instr.wrsrCr 0x22#8 ∈ [Instr.wrsrSr2 0x22#8, Instr.wrsrCr 0x22#8] := by
  decide

theorem witness_CommandEndsWithOneStatus :
    isHostCommand (.init 0#32) = true ∧ (∃ t, exec (.init 0#32) bootGigaDevice = .next t) ∧
      isHostCommand (.erase 8#32 8#32) = true ∧ ∃ t, exec (.erase 8#32 8#32) midSession = .next t :=
  ⟨rfl, ⟨_, rfl⟩, rfl, _, rfl⟩

/-- A step of a session whose unlock flag is already set. -/
theorem witness_StepKeepsInputsAndGrowsOutputs :
    (∃ t, step midSession = .next t) ∧
      ({ midSession with session.unlocked := true } : State).session.unlocked = true ∧
      ∃ t, step { midSession with session.unlocked := true } = .next t :=
  ⟨⟨_, rfl⟩, rfl, _, rfl⟩

theorem witness_EveryAnswerIsTheTransports :
    ∃ t, exec (.erase 8#32 8#32) midSession = .next t ∧ (sent t.trace).length = 3 := ⟨_, rfl, by decide⟩

theorem witness_OnlyReadWritesHostMemory :
    (∀ a c b, Instr.erase 8#32 8#32 ≠ .read a c b) ∧ ∃ t, exec (.erase 8#32 8#32) midSession = .next t :=
  ⟨fun _ _ _ h => (nomatch h), _, rfl⟩

theorem witness_SessionIsFixedUntilExit :
    midSession.session.initialized = true ∧ (∀ stage, Instr.erase 8#32 8#32 ≠ .exit stage) ∧
      ∃ t, exec (.erase 8#32 8#32) midSession = .next t :=
  ⟨rfl, fun _ h => (nomatch h), _, rfl⟩

theorem witness_CommandsKeepTheFrameDiscipline :
    MachineInv midSession ∧ opcodesDistinct midSession.cfg ∧ midSession.request = none ∧
      ∃ t, step midSession = .next t ∧ (sent t.trace).length = 3 :=
  ⟨midSession_invariant, by decide, rfl, _, rfl, by decide⟩

theorem witness_CommandsEmitOnlyMappedFrames :
    MachineInv midSession ∧ opcodesDistinct midSession.cfg ∧ midSession.request = none ∧
      ∃ t, step midSession = .next t ∧ (sent t.trace).length = 3 := witness_CommandsKeepTheFrameDiscipline

theorem witness_CommandsBeforeInitFault : State.reset.session.initialized = false := by decide

theorem witness_InitInASessionDoesNothing : midSession.session.initialized = true := by decide

theorem witness_InitFailsWithTheTransport :
    (boot none [.fail]).session.initialized = false ∧ initAnswer (boot none [.fail]) = false := by decide

theorem witness_InitFailsWithoutAChip :
    (boot none [ack, .ok [0x00#8, 0x40#8, 0x18#8]]).session.initialized = false ∧
      (boot none [ack, .ok [0x00#8, 0x40#8, 0x18#8]]).script = .ok [] :: .ok [0x00#8, 0x40#8, 0x18#8] :: [] := by decide

/-- F1. -/
def bootWinbond : State := boot none [ack, .ok [0xEF#8, 0x40#8, 0x18#8]]

theorem witness_InitDefaultsToFastReadAtThree :
    opcodesDistinct bootWinbond.cfg ∧ bootWinbond.session.initialized = false ∧ bootWinbond.bootCfg = none ∧
      bootWinbond.script = .ok [] :: .ok [winbond.manufacturer, winbond.memoryType, winbond.capacity] :: [] ∧
      winbond.manufacturer ≠ 0x00#8 ∧ winbond ≠ ⟨0xC2#8, 0x20#8, 0x1A#8⟩ ∧ winbond ≠ ⟨0xC2#8, 0x20#8, 0x18#8⟩ := by
  decide

/-- F9, at the threshold. -/
def bootSst : State := boot (some ⟨.quad, 16⟩) [ack, .ok [0xBF#8, 0x25#8, 0x8D#8]]

theorem witness_InitFailsWithoutAQuadStrategy :
    opcodesDistinct bootSst.cfg ∧ bootSst.session.initialized = false ∧ bootSst.bootCfg = some ⟨.quad, 16⟩ ∧ 16 ≤ 16 ∧
      bootSst.script = .ok [] :: .ok [sst.manufacturer, sst.memoryType, sst.capacity] :: [] ∧
      sst.manufacturer ≠ 0x00#8 ∧ sst ≠ ⟨0xC2#8, 0x20#8, 0x1A#8⟩ ∧
      sst.manufacturer ∉ bootSst.cfg.setQmx ++ bootSst.cfg.setQgd ++ bootSst.cfg.setQsp := by decide

theorem witness_InitCommitsTogetherOrNotAtAll : bootGigaDevice.session.initialized = false := by decide

/-- F8: width FOUR, just above the threshold. -/
def bootTakesFour : State :=
  boot (some ⟨.quad, 17⟩) [ack, .ok [0xC8#8, 0x40#8, 0x19#8], ack, .ok [0x20#8], .ok [0x02#8]]

/-- A session at FOUR; one at THREE after a negotiation that was asked for and failed. -/
theorem witness_InitCommitsTheNegotiatedReadMode :
    bootTakesFour.session.initialized = false ∧
      (∃ t, exec (.init 0#32) bootTakesFour = .next t ∧ t.session.initialized = true ∧ t.session.addrWidth = .four) ∧
      bootRefusesFour.session.initialized = false ∧
      (∃ t, exec (.init 0#32) bootRefusesFour = .next t ∧ t.session.initialized = true ∧
        t.session.addrWidth = .three) ∧
      bootRefusesFour.bootCfg = some ⟨.dual, 32⟩ ∧ 16 < 32 ∧ ReadMode.dual ≠ .other :=
  ⟨rfl, ⟨_, rfl, by decide, by decide⟩, rfl, ⟨_, rfl, by decide, by decide⟩, rfl, by decide, by decide⟩

/-- The quad strategy's answers: identity, a register that already shows QE. -/
def bootQuad (id : Ident) (reg : Byte) : State :=
  boot (some ⟨.quad, 16⟩) [ack, .ok [id.manufacturer, id.memoryType, id.capacity], .ok [reg]]

/-- A Macronix identity that no override names. -/
def macronixPlain : Ident := ⟨0xC2#8, 0x20#8, 0x17#8⟩

/-- `macronixPlain` as a volatile-QE variant, which needs no register at all. -/
def bootVolatile : State :=
  { boot (some ⟨.quad, 16⟩) [ack, .ok [0xC2#8, 0x20#8, 0x17#8]] with cfg := { fixed.cfg with mxVolatileQe := [macronixPlain] } }

/-- A state whose INIT commits a quad-capable opcode. -/
def commitsQuad (s : State) : Bool :=
  (see (.init 0#32) s fun t => t.session.initialized && quadCapable s.cfg t.session.readOp) == some true

/-- Each of the statement's four ways: SR1, volatile, SR2, CR. -/
theorem witness_QuadOpcodeOnlyAfterVerifiedEnable :
    (bootQuad macronixPlain 0x40#8).session.initialized = false ∧ commitsQuad (bootQuad macronixPlain 0x40#8) = true ∧
      bootVolatile.session.initialized = false ∧ commitsQuad bootVolatile = true ∧
      bootGigaDevice.session.initialized = false ∧ commitsQuad bootGigaDevice = true ∧
      (bootQuad winbond 0x02#8).session.initialized = false ∧ commitsQuad (bootQuad winbond 0x02#8) = true ∧
      ∃ t, exec (.init 0#32) bootGigaDevice = .next t ∧ t.session.initialized = true ∧
        quadCapable bootGigaDevice.cfg t.session.readOp = true :=
  ⟨rfl, by decide, rfl, by decide, rfl, by decide, rfl, by decide, _, rfl, by decide, by decide⟩

/-- The statement has no hypothesis; both its ends happen: B2 latches, B3 does not. -/
theorem witness_QuadEnableVerifiesItsWrite :
    (∃ t, setQe .sr1 6 (boot none [.ok [0x00#8], ack, ack, .ok [0x40#8], .ok [0x40#8]]) = .ok () t) ∧
      ∃ t, setQe .sr1 6 (boot none [.ok [0x00#8], ack, ack, .ok [0x00#8], .ok [0x00#8]]) =
        .raised (.quirk .notLatched) t :=
  ⟨⟨_, rfl⟩, _, rfl⟩

theorem witness_UnlockAlwaysReturnsZero :
    midSession.session.initialized = true ∧ (midSession.session.unlocked = true ∨ midSession.session.id ≠ none) := by
  decide

theorem witness_UnlockRunsItsBodyOnce :
    ({ midSession with session.unlocked := true } : State).session.initialized = true ∧
      ({ midSession with session.unlocked := true } : State).session.unlocked = true ∧
      ∃ t, exec .unlock lockedGigaDevice = .next t :=
  ⟨rfl, rfl, _, rfl⟩

/-- The gate off and the gate on. -/
theorem witness_UnlockClearsStatusRegister :
    ∀ s ∈ [session sst [], gated sst []],
      s.session.initialized = true ∧ s.session.unlocked = false ∧ s.session.id = some sst ∧
        sst.manufacturer ∈ s.cfg.setLocked ∧ sst.manufacturer ∉ s.cfg.setGd ∧ sst.manufacturer ∉ s.cfg.setMx := by
  decide

/-- The gate off and the gate on (vector C4), for which Macronix is in the global unlock's set. -/
theorem witness_UnlockKeepsMacronixQuadEnable :
    (∀ s ∈ [session macronix [], gated macronix []],
      s.session.initialized = true ∧ s.session.unlocked = false ∧ s.session.id = some macronix ∧
        macronix.manufacturer ∈ s.cfg.setLocked ∧ macronix.manufacturer ∉ s.cfg.setGd ∧
        macronix.manufacturer ∈ s.cfg.setMx) ∧
      macronix.manufacturer ∈ (gated macronix []).cfg.setGbulk ∧ (gated macronix []).cfg.gbulkEnabled = true := by decide

/-- The gate on, status path failed at its write: no global unlock frame follows. -/
theorem test_unlock_macronix_stops :
    see .unlock (gated macronix [.ok [0x3C#8], ack, .fail, ack, ack]) (fun t => (t.statuses, sent t.trace, t.diag)) =
      some ([0#32], [[0x05#8], [0x06#8], [0x01#8, 0x00#8]], []) := by decide

theorem witness_UnlockClearsGigaDeviceCmp :
    ∀ s ∈ [lockedGigaDevice, gated gigaDevice []],
      s.session.initialized = true ∧ s.session.unlocked = false ∧ s.session.id = some gigaDevice ∧
        gigaDevice.manufacturer ∈ s.cfg.setLocked ∧ gigaDevice.manufacturer ∈ s.cfg.setGd := by decide

/-- Both branches: the gate off and the gate on. -/
theorem witness_UnlockOutsideTheLockedSet :
    (session winbond []).session.initialized = true ∧ (session winbond []).session.unlocked = false ∧
      (session winbond []).session.id = some winbond ∧ winbond.manufacturer ∉ (session winbond []).cfg.setLocked ∧
      (gated winbond []).session.initialized = true ∧ (gated winbond []).session.unlocked = false ∧
      (gated winbond []).session.id = some winbond ∧ winbond.manufacturer ∉ (gated winbond []).cfg.setLocked ∧
      winbond.manufacturer ∈ (gated winbond []).cfg.setGbulk ∧ (gated winbond []).cfg.gbulkEnabled = true := by decide

/-- `erase 1, 8` and `erase 8, 1` (L1-3); `erase 8, 8` is not misaligned. -/
theorem witness_MisalignedEraseIssuesNothing :
    midSession.session.initialized = true ∧
      (1#32).toNat * 512 < 2 ^ 32 ∧ (8#32).toNat * 512 < 2 ^ 32 ∧
      ((1#32).toNat * 512 % 2 ^ 32 % 4096 ≠ 0 ∨ (8#32).toNat * 512 % 2 ^ 32 % 4096 ≠ 0) ∧
      ((8#32).toNat * 512 % 2 ^ 32 % 4096 ≠ 0 ∨ (1#32).toNat * 512 % 2 ^ 32 % 4096 ≠ 0) := by decide

/-- No sector at all, and 2^23 sectors, whose length wraps to 0. -/
theorem witness_EmptyRequestsReturnZero :
    ({ midSession with session.unlocked := true } : State).session.initialized = true ∧
      ({ midSession with session.unlocked := true } : State).session.unlocked = true ∧
      byteLength 0#32 = 0#32 ∧ byteLength 0x800000#32 = 0#32 ∧ (8#32).toNat % 8 = 0 := by decide

theorem witness_EraseRunsSectorBySector :
    midSession.session.initialized = true ∧ (midSession.session.unlocked = true ∨ midSession.session.id ≠ none) ∧
      (byteOffset 8#32).toNat % 4096 = 0 ∧ (byteLength 16#32).toNat % 4096 = 0 := by decide

/-- Every range of 32-bit host addresses is provided in the test states. -/
theorem midSession_readable {a n : Nat} (h : a + n ≤ 2 ^ 32) : RangeReadable midSession a n := by
  intro x _ h2
  have hx : x < 4294967296 := by omega
  simp [hostReadable, midSession, issue, session, fixed, hx]

theorem midSession_writable {a n : Nat} (h : a + n ≤ 2 ^ 32) : RangeWritable midSession a n := by
  intro x _ h2
  have hx : x < 4294967296 := by omega
  simp [hostWritable, midSession, issue, session, fixed, hx]

/-- The last 512 host addresses. -/
theorem witness_WriteRunsPieceByPiece :
    midSession.session.initialized = true ∧ (midSession.session.unlocked = true ∨ midSession.session.id ≠ none) ∧
      RangeReadable midSession ((0xFFFFFE00#32).toNat % 2 ^ midSession.cfg.hostAddrWidth) (byteLength 1#32).toNat :=
  ⟨rfl, by decide, midSession_readable (by decide)⟩

theorem witness_ReadCopiesChunkByChunk :
    midSession.session.initialized = true ∧ midSession.mem.wf ∧
      RangeWritable midSession ((0xFFFFFE00#32).toNat % 2 ^ midSession.cfg.hostAddrWidth) (byteLength 1#32).toNat :=
  ⟨rfl, midSession_invariant.memWf, midSession_writable (by decide)⟩

/-- `midSession`, unlocked, on a host that provides nothing. -/
def unprovided : State := { midSession with session.unlocked := true, hostMap := [] }

/-- `midSession`, unlocked, on a host that provides the first 128 bytes alone. -/
def firstPiece : State :=
  { midSession with
    session.unlocked := true
    hostMap := [⟨0, 128, true, true⟩]
    script := [ack, ack, .ok [0x00#8], ack, ack, .ok [0x00#8]] }

/-- Both ends: stuck at the first chunk or piece, stuck at the second piece, not stuck on provided memory. -/
theorem witness_UnprovidedHostMemoryIsStuck :
    unprovided.session.initialized = true ∧
      exec (.read 0#32 1#32 0#32) unprovided = .fault .hostMemory ∧
      exec (.write 0#32 1#32 0#32) unprovided = .fault .hostMemory ∧
      firstPiece.session.initialized = true ∧ exec (.write 0#32 1#32 0#32) firstPiece = .fault .hostMemory ∧
      writesBytes.session.initialized = true ∧ fault? (exec (.write 0#32 1#32 0#32) writesBytes) = none :=
  ⟨rfl, fault_of_fault? (by decide +kernel), fault_of_fault? (by decide +kernel), rfl,
    fault_of_fault? (by decide +kernel), rfl, by decide +kernel⟩

end Sys2Proof.Tests
end

/-! The alignment test of ERASE (20_memory.md R50) and the end of a request that fails it. -/

namespace Sys2Proof.Machine

theorem byteOffset_toNat (startSector : Word) : (byteOffset startSector).toNat = startSector.toNat * 512 % 2 ^ 32 :=
  BitVec.toNat_ofNat _ _

theorem byteLength_toNat (sectorCount : Word) : (byteLength sectorCount).toNat = sectorCount.toNat * 512 % 2 ^ 32 :=
  BitVec.toNat_ofNat _ _

/-- The alignment test of ERASE on its operands: it fails when either product, modulo 2^32, is misaligned. -/
theorem eraseAligned_eq_false_iff (a c : Word) :
    eraseAligned (byteOffset a) (byteLength c) = false ↔
      a.toNat * 512 % 2 ^ 32 % 4096 ≠ 0 ∨ c.toNat * 512 % 2 ^ 32 % 4096 ≠ 0 := by
  rw [eraseAligned, Bool.and_eq_false_iff, decide_eq_false_iff_not, decide_eq_false_iff_not, byteOffset_toNat,
    byteLength_toNat, eraseUnit]

/-- An erase unit is eight host sectors: while the product does not wrap, it is aligned when the count is a multiple
of 8. -/
theorem sectors_misaligned_iff {n : Nat} (h : n * 512 < 2 ^ 32) : n * 512 % 2 ^ 32 % 4096 ≠ 0 ↔ n % 8 ≠ 0 := by
  rw [Nat.mod_eq_of_lt h]
  omega

/-- A misaligned ERASE in a session raises AlignmentError where the command starts: it never reaches the unlock
engine (20_memory.md R50, 43_data_path.md R131). -/
theorem exec_erase_of_misaligned {s : State} {a c : Word} (hs : s.session.initialized = true)
    (h : eraseAligned (byteOffset a) (byteLength c) = false) :
    exec (.erase a c) s =
      .next (returnFailCode (addDiag [⟨.alignment, .range (byteOffset a) (byteLength c)⟩] (beginCommand s))) :=
  calc exec (.erase a c) s
      = execErase a c s := rfl
    _ = .next (endFailCode (raise (.alignment (byteOffset a) (byteLength c)) (beginCommand s))) := by
        rw [execErase, if_pos hs, h, if_neg Bool.false_ne_true]
    _ = _ := rfl

/-- Settles O54: the two arithmetic readings of the alignment test, and the end of an ERASE that fails it with a
`FAIL_CODE`. -/
theorem misalignedEraseIssuesNothing : Obligations.MisalignedEraseIssuesNothing := by
  intro s a c hs
  constructor
  · intro ha hc
    exact or_congr (sectors_misaligned_iff ha) (sectors_misaligned_iff hc)
  · intro hmis
    exact ⟨failCode s.draws, failCode_ne_zero s.draws,
      exec_erase_of_misaligned hs ((eraseAligned_eq_false_iff a c).mpr hmis)⟩

end Sys2Proof.Machine

/-! The refusal of a descriptor that spells no command (30_encoding.md R62). -/

namespace Sys2Proof.Machine

/-! ### No meaning refuses -/

theorem next_ne_refused (t : State) (r : Refusal) : (.next t : Host.Outcome State Fault Refusal) ≠ .refused r := nofun

theorem execUnlock_ne_refused (s : State) (r : Refusal) : execUnlock s ≠ .refused r := by
  unfold execUnlock
  split
  · split <;> nofun
  · nofun

theorem execRead_ne_refused (a c b : Word) (s : State) (r : Refusal) : execRead a c b s ≠ .refused r := by
  unfold execRead
  split
  · split <;> nofun
  · nofun

theorem execErase_ne_refused (a c : Word) (s : State) (r : Refusal) : execErase a c s ≠ .refused r := by
  unfold execErase
  split
  · split
    · split <;> nofun
    · nofun
  · nofun

theorem execWrite_ne_refused (a c b : Word) (s : State) (r : Refusal) : execWrite a c b s ≠ .refused r := by
  unfold execWrite
  split
  · split
    · split <;> nofun
    · nofun
  · nofun

/-- An instruction's meaning ends or faults: a refusal comes from the fetch alone. -/
theorem exec_ne_refused (i : Instr) (s : State) (r : Refusal) : exec i s ≠ .refused r := by
  cases i with
  | unlock => exact execUnlock_ne_refused s r
  | read a c b => exact execRead_ne_refused a c b s r
  | erase a c => exact execErase_ne_refused a c s r
  | write a c b => exact execWrite_ne_refused a c b s r
  | _ => exact next_ne_refused _ r

/-! ### The fields of w0 as numbers -/

/-- The bits w0[31:8] are all clear exactly when w0 is a single byte. -/
theorem reservedBits_eq_zero_iff (w : Word) : w.extractLsb' 8 24 = 0#24 ↔ w.toNat / 256 = 0 := by
  have hlt := w.isLt
  rw [← BitVec.toNat_inj, BitVec.extractLsb'_toNat, Nat.shiftRight_eq_div_pow, BitVec.toNat_ofNat]
  omega

/-- The command byte w0[7:0] as a number. -/
theorem commandByte_eq_iff (w : Word) (b : Byte) : w.extractLsb' 0 8 = b ↔ w.toNat % 256 = b.toNat := by
  rw [← BitVec.toNat_inj, toNat_offsetByte, pow_zero, Nat.div_one]

/-- The descriptors that spell no command (30_encoding.md R62). -/
theorem decodeDescriptor_error_iff (d : Descriptor) :
    (∃ e, decodeDescriptor d = .error e) ↔
      d.w0.toNat / 256 ≠ 0 ∨ d.w0.toNat % 256 = 0 ∨ 6 < d.w0.toNat % 256 := by
  unfold decodeDescriptor
  simp only [ne_eq, reservedBits_eq_zero_iff, commandByte_eq_iff, BitVec.toNat_ofNat]
  split_ifs with hres h1 h2 h3 h4 h5 h6
  case neg => exact iff_of_true ⟨.unknownCommand, rfl⟩ (by omega)
  case neg => exact iff_of_true ⟨.reservedBits, rfl⟩ (.inl hres)
  all_goals exact iff_of_false (fun ⟨_, hok⟩ => hok) (by omega)

/-! ### A step that fetches a host command -/

section
variable {s : State} {d : Descriptor} (hr : s.request = none) (hp : s.program[s.hpc]? = some d)
include hr hp

theorem fetch_command : fetch s = .command d := by
  simp only [fetch, hr, hp]

theorem step_of_decodeDescriptor_ok {i : Instr} (h : decodeDescriptor d = .ok i) : step s = exec i s := by
  simp only [step, fetch_command hr hp, decode, h]

theorem step_of_decodeDescriptor_error {e : DecodeError} (h : decodeDescriptor d = .error e) :
    step s = .refused (.illegalDescriptor e) := by
  simp only [step, fetch_command hr hp, decode, h]

/-- The step refuses the descriptor exactly when the decoder rejects it. -/
theorem step_refuses_descriptor_iff :
    (∃ e, step s = .refused (.illegalDescriptor e)) ↔ ∃ e, decodeDescriptor d = .error e := by
  cases h : decodeDescriptor d with
  | ok i =>
    rw [step_of_decodeDescriptor_ok hr hp h]
    exact iff_of_false (fun ⟨_, hx⟩ => exec_ne_refused i s _ hx) (fun ⟨_, hx⟩ => nomatch hx)
  | error e => exact iff_of_true ⟨e, step_of_decodeDescriptor_error hr hp h⟩ ⟨e, rfl⟩

end

/-- Settles O7: the step refuses what the decoder rejects, and the decoder rejects by the two fields of w0. -/
theorem illegalDescriptorIsRefused : Obligations.IllegalDescriptorIsRefused :=
  fun _ d hr hp => (step_refuses_descriptor_iff hr hp).trans (decodeDescriptor_error_iff d)

end Sys2Proof.Machine

/-! The register accessors run on their own: the one-transaction reads (40_transport_registers.md R75, R76, R78, R84)
and the register writes in their single and paired forms (R80 to R83). -/

namespace Sys2Proof.Machine

/-! ### A write sequence run on its own -/

/-- The result of a frame sequence without response bytes, by how it ended (40_transport_registers.md R87). -/
def writeResult : Option BlockError → PortResult
  | none => .ok []
  | some e => .error e

/-- From `s`, a write sequence run on its own led to `t`: it ended by `o`, its transactions were `evs`, and it did
nothing else. -/
structure WriteRan (s t : State) (o : Option BlockError) (evs : List Event) : Prop where
  frame : FrameOnly s t
  ran : PortRan 0 s t evs
  result : t.result = writeResult o
  diag : t.diag = s.diag ++ endEvents o

theorem endWrite_result (r : Res Unit) : (endWrite r).result = writeResult (endedBy r) := by
  cases r <;> rfl

theorem endWrite_trace (r : Res Unit) : (endWrite r).trace = r.state.trace := by
  cases r <;> rfl

/-- What a contained sequence does is what it does when run on its own. -/
theorem writeRan_endWrite {s : State} {r : Res Unit} {P : Option BlockError → List Event → Prop}
    (hc : Contained (beginCommand s) r) (hg : Goes (beginCommand s) r P) :
    ∃ o evs, WriteRan s (endWrite r) o evs ∧ P o evs := by
  obtain ⟨evs, htrace, hP⟩ := hg
  obtain ⟨hframe, hasked, hdiag⟩ := endWrite_spec hc
  have hran : PortRan 0 s (endWrite r) evs := portRan_of_trace hasked ((endWrite_trace r).trans htrace)
  exact ⟨endedBy r, evs, ⟨hframe, hran, endWrite_result r, hdiag⟩, hP⟩

/-- A register write run on its own, in the form its selector takes. -/
theorem writeRan_writeReg (sel : RegSel) (v : Byte) (s : State) :
    ∃ o evs, WriteRan s (endWrite (writeReg sel v (beginCommand s))) o evs ∧ RegisterWriteEnds s.cfg sel v o evs :=
  writeRan_endWrite (contained_writeReg sel v _) (goes_writeReg sel v _)

/-! ### WRSR -/

/-- Settles O27: the single form ends as its write sequence ends, normally or by the first error. -/
theorem singleFormRegisterWrite : Obligations.SingleFormRegisterWrite := by
  intro s v
  obtain ⟨o, evs, ⟨hframe, hran, hresult, hdiag⟩, hends⟩ := writeRan_writeReg .sr1 v s
  refine ⟨_, evs, rfl, hframe, hran, ?_⟩
  cases o with
  | none => exact .inl ⟨hresult, hdiag.trans (List.append_nil _), hends⟩
  | some e => exact .inr ⟨e, hresult, hdiag, hends⟩

/-- The two paired forms are one sequence (40_transport_registers.md R83). -/
theorem exec_of_mem_pairedForms {v : Byte} {i : Instr} (hi : i ∈ [Instr.wrsrSr2 v, Instr.wrsrCr v]) (s : State) :
    exec i s = .next (endWrite (writeReg .sr2 v (beginCommand s))) := by
  rcases List.mem_pair.mp hi with rfl | rfl <;> rfl

/-- Settles O28: the paired forms fail at the read of SR1, or go on as the write sequence that carries its byte. -/
theorem pairedFormRegisterWrites : Obligations.PairedFormRegisterWrites := by
  intro s v i hi
  obtain ⟨o, evs, ⟨hframe, hran, hresult, hdiag⟩, ⟨rfl, hread⟩ | ⟨s1, ws, hread, hends⟩⟩ := writeRan_writeReg .sr2 v s
  all_goals refine ⟨_, evs, exec_of_mem_pairedForms hi s, hframe, hran, ?_⟩
  · exact .inr (.inl ⟨hresult, hdiag.trans (List.append_nil _), hread⟩)
  · cases o with
    | none => exact .inl ⟨hresult, hdiag.trans (List.append_nil _), s1, ws, hread, hends⟩
    | some e => exact .inr (.inr ⟨e, s1, ws, hresult, hdiag, hread, hends⟩)

/-! ### RDSR1, RDSR2, RDCR and RDID -/

theorem exec_rdsr1 (s : State) : exec .rdsr1 s = .next (afterFrame s [s.cfg.opRdsr1] 1) :=
  congrArg _ (endFrame_xfer [s.cfg.opRdsr1] 1 s)

theorem exec_rdsr2 (s : State) : exec .rdsr2 s = .next (afterFrame s [s.cfg.opRdsr2] 1) :=
  congrArg _ (endFrame_xfer [s.cfg.opRdsr2] 1 s)

theorem exec_rdcr (s : State) : exec .rdcr s = .next (afterFrame s [s.cfg.opRdcr] 1) :=
  congrArg _ (endFrame_xfer [s.cfg.opRdcr] 1 s)

theorem exec_rdid (s : State) : exec .rdid s = .next (afterFrame s [s.cfg.opRdid] 3) :=
  congrArg _ (endFrame_xfer [s.cfg.opRdid] 3 s)

/-- Settles O22: each read is one transaction run on its own. -/
theorem registerAndIdentityReads : Obligations.RegisterAndIdentityReads :=
  fun s => ⟨exec_rdsr1 s, exec_rdsr2 s, exec_rdcr s, exec_rdid s⟩

end Sys2Proof.Machine

/-! The addressing engine and the read opcode families (42_frame_composer.md R110, R114 to R118). -/

namespace Sys2Proof.Machine

/-! ### Address bytes as numbers -/

theorem map_toNat_addr3 (o : Word) :
    (addr3 o).map BitVec.toNat = [o.toNat / 65536 % 256, o.toNat / 256 % 256, o.toNat % 256] := by
  simp only [addr3, List.map_cons, List.map_nil, toNat_offsetByte, Nat.reducePow, Nat.div_one]

/-- The top byte is a quotient alone: an offset has 32 bits. -/
theorem map_toNat_addr4 (o : Word) :
    (addr4 o).map BitVec.toNat =
      [o.toNat / 16777216, o.toNat / 65536 % 256, o.toNat / 256 % 256, o.toNat % 256] := by
  have htop : o.toNat / 16777216 % 256 = o.toNat / 16777216 := by
    have hlt := o.isLt
    omega
  simp only [addr4, List.map_cons, List.map_nil, toNat_offsetByte, Nat.reducePow, Nat.div_one, htop]

/-- Settles O14: the bytes of each width as numbers. -/
theorem addressBytesByWidth : Obligations.AddressBytesByWidth :=
  fun o => ⟨map_toNat_addr3 o, map_toNat_addr4 o⟩

/-! ### Truncation to three address bytes -/

/-- Two offsets have the same three address bytes when they agree modulo 2^24. -/
theorem addr3_congr {a b : Word} (h : a.toNat % 2 ^ 24 = b.toNat % 2 ^ 24) : addr3 a = addr3 b := by
  have hbytes : (addr3 a).map BitVec.toNat = (addr3 b).map BitVec.toNat := by
    simp only [map_toNat_addr3, List.cons.injEq, and_true]
    omega
  exact List.map_injective_iff.mpr (fun _ _ => BitVec.eq_of_toNat_eq) hbytes

theorem addr3_mod (o : Word) : addr3 (BitVec.ofNat 32 (o.toNat % 2 ^ 24)) = addr3 o :=
  addr3_congr (by rw [BitVec.toNat_ofNat]; omega)

/-- At width THREE the read frame depends on the offset through its three address bytes alone. -/
theorem readFrame_congr {s : State} {a b : Word} (hw : s.session.addrWidth = .three) (h : addr3 a = addr3 b) :
    readFrame s a = readFrame s b := by
  simp only [readFrame, composeRead, hw, addrBytes, h]

/-- An erase depends on the offset through its three address bytes alone (43_data_path.md R130). -/
theorem exec_se_congr {a b : Word} (h : addr3 a = addr3 b) (s : State) : exec (.se a) s = exec (.se b) s := by
  change execSe a s = execSe b s
  rw [execSe, execSe, h]

/-- A program depends on the offset through its three address bytes alone (43_data_path.md R136). -/
theorem exec_pp_congr {a b : Word} (h : addr3 a = addr3 b) (p : List Byte) (s : State) :
    exec (.pp a p) s = exec (.pp b p) s := by
  change execPp a p s = execPp b p s
  rw [execPp, execPp, programFrame, programFrame, h]

/-- Settles O15: the three frames carry the three address bytes alone, and those drop `o[31:24]`. -/
theorem threeByteAddressesAlias : Obligations.ThreeByteAddressesAlias := by
  intro s o p
  have hbytes := (addr3_mod o).symm
  exact ⟨fun hw => readFrame_congr hw hbytes, exec_se_congr hbytes s, exec_pp_congr hbytes p s⟩

/-! ### The read opcode families -/

/-- The 3-byte opcodes of the three families, FAST, DUAL, QUAD (42_frame_composer.md R115). -/
def threeByteOps (c : Config) : List Byte := [c.opFast, c.opDual, c.opQuad]

/-- The 4-byte opcodes of the three families, in the same order (42_frame_composer.md R115). -/
def fourByteOps (c : Config) : List Byte := [c.opFast4, c.opDual4, c.opQuad4]

/-- The two columns of the table of R115 are the six recognised opcodes. -/
theorem recognisedReadOps_perm (c : Config) : (recognisedReadOps c).Perm (threeByteOps c ++ fourByteOps c) := by
  simp only [recognisedReadOps, threeByteOps, fourByteOps, List.perm_iff_count, List.cons_append, List.nil_append,
    List.count_cons]
  omega

theorem nodup_recognisedReadOps {c : Config} (h : opcodesDistinct c) : (recognisedReadOps c).Nodup :=
  h.sublist (List.drop_sublist 12 (opcodeMap c))

theorem nodup_ops_by_width {c : Config} (h : opcodesDistinct c) :
    (threeByteOps c).Nodup ∧ (fourByteOps c).Nodup ∧ (threeByteOps c).Disjoint (fourByteOps c) :=
  List.nodup_append'.mp ((recognisedReadOps_perm c).nodup_iff.mp (nodup_recognisedReadOps h))

theorem down_of_not_mem {c : Config} {op : Byte} (h : op ∉ fourByteOps c) : down c op = op := by
  simp only [fourByteOps, List.mem_cons, List.not_mem_nil, or_false, not_or] at h
  obtain ⟨hfast, hdual, hquad⟩ := h
  rw [down, if_neg hfast, if_neg hdual, if_neg hquad]

theorem up_of_not_mem {c : Config} {op : Byte} (h : op ∉ threeByteOps c) : up c op = op := by
  simp only [threeByteOps, List.mem_cons, List.not_mem_nil, or_false, not_or] at h
  obtain ⟨hfast, hdual, hquad⟩ := h
  rw [up, if_neg hfast, if_neg hdual, if_neg hquad]

/-- `down` takes the 4-byte column to the 3-byte column, family by family. -/
theorem map_down_fourByteOps {c : Config} (h : (fourByteOps c).Nodup) :
    (fourByteOps c).map (down c) = threeByteOps c := by
  simp only [fourByteOps, List.nodup_cons, List.mem_cons, List.not_mem_nil, or_false, not_or] at h
  obtain ⟨⟨hfd, hfq⟩, hdq, -⟩ := h
  simp [fourByteOps, threeByteOps, down, Ne.symm hfd, Ne.symm hfq, Ne.symm hdq]

/-- `up` takes the 3-byte column to the 4-byte column, family by family. -/
theorem map_up_threeByteOps {c : Config} (h : (threeByteOps c).Nodup) :
    (threeByteOps c).map (up c) = fourByteOps c := by
  simp only [threeByteOps, List.nodup_cons, List.mem_cons, List.not_mem_nil, or_false, not_or] at h
  obtain ⟨⟨hfd, hfq⟩, hdq, -⟩ := h
  simp [fourByteOps, threeByteOps, up, Ne.symm hfd, Ne.symm hfq, Ne.symm hdq]

/-- Settles O17: each map takes one column of the table to the other, and fixes the other since the columns are
disjoint. -/
theorem normalisationStaysInTheFamily : Obligations.NormalisationStaysInTheFamily := by
  intro c hc
  obtain ⟨hthree, hfour, hdisj⟩ := nodup_ops_by_width hc
  have hdown : ∀ op ∈ threeByteOps c, down c op = op := fun op hop => down_of_not_mem (hdisj hop)
  have hup : ∀ op ∈ fourByteOps c, up c op = op := fun op hop => up_of_not_mem fun hop3 => hdisj hop3 hop
  have hdown4 := map_down_fourByteOps hfour
  have hup3 := map_up_threeByteOps hthree
  simpa [threeByteOps, fourByteOps, and_assoc] using And.intro (And.intro hdown4 hdown) (And.intro hup3 hup)

/-- Settles O18: the table of R118, case by case. -/
theorem requestedReadOpcode : Obligations.RequestedReadOpcode :=
  fun _ _ => ⟨rfl, rfl, rfl, rfl, rfl⟩

end Sys2Proof.Machine


/-! The frames of the data path run on their own: sector erase and page program (43_data_path.md R130, R136). -/

namespace Sys2Proof.Machine

theorem exec_se (a : Word) (s : State) : exec (.se a) s = .next (afterFrame s (s.cfg.opSe :: addr3 a) 0) :=
  congrArg _ (endFrame_xfer (s.cfg.opSe :: addr3 a) 0 s)

theorem exec_pp (a : Word) (p : List Byte) (s : State) :
    exec (.pp a p) s = .next (afterFrame s (programFrame s.cfg a p) 0) :=
  congrArg _ (endFrame_xfer (programFrame s.cfg a p) 0 s)

/-- The page program frame with its address bytes written out: three of them, whatever the session's width. -/
theorem programFrame_eq (c : Config) (a : Word) (p : List Byte) :
    programFrame c a p =
      [c.opPp, a.extractLsb' 16 8, a.extractLsb' 8 8, a.extractLsb' 0 8] ++ p :=
  rfl

/-- Settles O24: each is one transaction run on its own, and neither frame consults `S.addrWidth`. -/
theorem eraseAndProgramFrames : Obligations.EraseAndProgramFrames :=
  fun s a p => ⟨exec_se a s, programFrame_eq s.cfg a p ▸ exec_pp a p s⟩

end Sys2Proof.Machine


/-! EXIT (44_init_exit.md R156) and the 4-byte negotiation (R149). -/

namespace Sys2Proof.Machine

/-- Settles O37: EXIT has one path, the teardown, the cleared flag and status 0. -/
theorem exitEndsTheSession : Obligations.ExitEndsTheSession :=
  fun _ _ => rfl

/-! ### The transactions of the negotiation -/

theorem mode4BOpcode_eq (mode : Mode4B) : mode4BOpcode mode = if mode = .enter then 0xB7#8 else 0xE9#8 := by
  cases mode <;> rfl

/-- Both transactions answered: the mode frame has no response byte, the configuration register has one. -/
theorem negotiateFrames_ok {mode : Mode4B} {s t : State} {cr : Byte} (h : negotiateFrames mode s = .ok cr t) :
    t.diag = s.diag ∧
      t.trace = s.trace ++ [.xfer [mode4BOpcode mode] 0 (some []), .xfer [s.cfg.opRdcr] 1 (some [cr])] := by
  obtain ⟨rx, u, hmode, hcr⟩ := res_bind_eq_ok h
  obtain ⟨hport, hdiag, htrace⟩ := xfer_ok_trace hmode
  obtain ⟨-, hdiag', htrace'⟩ := readReg_ok (sel := .cr) hcr
  rw [answer_zero (xfer_ok hmode).1] at htrace
  exact ⟨hdiag'.trans hdiag, by simp [htrace', htrace, portOnly_cfg hport, readRegOp]⟩

/-- The error the negotiation catches is that of its first transaction, or of its second after the first was
answered. -/
theorem negotiateFrames_raised {mode : Mode4B} {s t : State} {e : BlockError}
    (h : negotiateFrames mode s = .raised e t) :
    e = .transport .xfer ∧ t.diag = s.diag ∧ ∃ evs, t.trace = s.trace ++ evs ∧
      (evs = [.xfer [mode4BOpcode mode] 0 none] ∨
       evs = [.xfer [mode4BOpcode mode] 0 (some []), .xfer [s.cfg.opRdcr] 1 none]) := by
  rcases res_bind_eq_raised h with hmode | ⟨rx, u, hmode, hcr⟩
  · obtain ⟨he, -, hdiag, htrace⟩ := xfer_raised_trace hmode
    exact ⟨he, hdiag, _, htrace, .inl rfl⟩
  · obtain ⟨hport, hdiag, htrace⟩ := xfer_ok_trace hmode
    obtain ⟨he, -, hdiag', htrace'⟩ := readReg_raised (sel := .cr) hcr
    rw [answer_zero (xfer_ok hmode).1] at htrace
    exact ⟨he, hdiag'.trans hdiag, _, by simp [htrace', htrace, portOnly_cfg hport, readRegOp], .inr rfl⟩

/-! ### What the negotiation makes of them -/

theorem negotiate4B_of_reflected {mode : Mode4B} {s t : State} {cr : Byte} (h : negotiateFrames mode s = .ok cr t)
    (hcr : cr.getLsbD 5 = decide (mode = .enter)) : negotiate4B mode s = (true, t) := by
  rw [negotiate4B, h]
  exact if_pos hcr

theorem negotiate4B_of_not_reflected {mode : Mode4B} {s t : State} {cr : Byte}
    (h : negotiateFrames mode s = .ok cr t) (hcr : ¬ cr.getLsbD 5 = decide (mode = .enter)) :
    negotiate4B mode s = (false, addDiag [⟨.addressingNegotiation, .cr cr⟩] t) := by
  rw [negotiate4B, h]
  exact if_neg hcr

theorem negotiate4B_of_raised {mode : Mode4B} {s t : State} {e : BlockError}
    (h : negotiateFrames mode s = .raised e t) :
    negotiate4B mode s = (false, addDiag [⟨.addressingNegotiation, .caught e⟩] t) := by
  rw [negotiate4B, h]

/-- The verdict on the negotiation's transactions adds no event of its own. -/
theorem negotiate4B_trace (mode : Mode4B) (s : State) :
    (negotiate4B mode s).2.trace = (negotiateFrames mode s).state.trace := by
  cases h : negotiateFrames mode s with
  | ok cr t =>
    by_cases hcr : cr.getLsbD 5 = decide (mode = .enter)
    · rw [negotiate4B_of_reflected h hcr]; rfl
    · rw [negotiate4B_of_not_reflected h hcr]; rfl
  | raised e t => rw [negotiate4B_of_raised h]; rfl

/-- Settles O46: the three ends of the negotiation are both transactions answered, with CR bit 5 as asked or not, and
the error caught. -/
theorem negotiationReflectsCrBitFive : Obligations.NegotiationReflectsCrBitFive := by
  intro mode s
  obtain ⟨hport, hasked, -⟩ := negotiate4B_spec mode s
  have htrace := negotiate4B_trace mode s
  rw [← mode4BOpcode_eq]
  refine ⟨hport, ?_⟩
  cases h : negotiateFrames mode s with
  | ok cr t =>
    obtain ⟨hdiag, hevents⟩ := negotiateFrames_ok h
    rw [h] at htrace
    refine ⟨_, portRan_of_trace hasked (htrace.trans hevents), .inr ⟨cr, rfl, ?_⟩⟩
    split
    · next hcr => rw [negotiate4B_of_reflected h hcr]; exact ⟨rfl, hdiag⟩
    · next hcr => rw [negotiate4B_of_not_reflected h hcr, addDiag_diag, hdiag]; exact ⟨rfl, rfl⟩
  | raised e t =>
    obtain ⟨rfl, hdiag, evs, hevents, hends⟩ := negotiateFrames_raised h
    rw [h] at htrace
    refine ⟨evs, portRan_of_trace hasked (htrace.trans hevents), .inl ⟨?_, hends⟩⟩
    rw [negotiate4B_of_raised h, addDiag_diag, hdiag]
    exact ⟨rfl, rfl⟩

end Sys2Proof.Machine

/-! The frame decoder as a table of rows, and the two directions between encoded forms and instructions
(30_encoding.md R60 to R65). -/

namespace Sys2Proof.Machine

/-! ### The opcode map as a table of decoders -/

/-- What decodes the bytes after an opcode, with the response count. -/
abbrev BodyDecoder := List Byte → Nat → Except DecodeError Instr

/-- The rows of the opcode map in the order of `opcodeMap`, each with the decoder of its format (30_encoding.md R63,
R65). -/
def frameDecoders (c : Config) (w : AddrWidth) (sel : RegSel) : List (Byte × BodyDecoder) :=
  [(c.opRdid, decodeBare .rdid 3), (c.opRdsr1, decodeBare .rdsr1 1), (c.opRdsr2, decodeBare .rdsr2 1),
   (c.opRdcr, decodeBare .rdcr 1), (c.opWren, decodeBare .wren 0), (c.opWrsr, decodeWrsr sel),
   (opEn4b, decodeBare .en4b 0), (opEx4b, decodeBare .ex4b 0), (c.opGbulk, decodeBare .gbulk 0),
   (c.opSe, decodeSe), (c.opPp, decodePp), (c.opRead, decodeSlow),
   (c.opFast, decodeRead c w .fast), (c.opFast4, decodeRead c w .fast4), (c.opDual, decodeRead c w .dual),
   (c.opDual4, decodeRead c w .dual4), (c.opQuad, decodeRead c w .quad), (c.opQuad4, decodeRead c w .quad4)]

/-- Decode by the first row with the opcode. -/
def decodeByRows (op : Byte) (body : List Byte) (rx : Nat) : List (Byte × BodyDecoder) → Except DecodeError Instr
  | [] => .error .unknownOpcode
  | row :: rows => if op = row.1 then row.2 body rx else decodeByRows op body rx rows

theorem decodeFrame_cons (c : Config) (w : AddrWidth) (op : Byte) (body : List Byte) (rx : Nat) (sel : RegSel) :
    decodeFrame c w ⟨op :: body, rx, sel⟩ = decodeByRows op body rx (frameDecoders c w sel) := rfl

theorem map_fst_frameDecoders (c : Config) (w : AddrWidth) (sel : RegSel) :
    (frameDecoders c w sel).map Prod.fst = opcodeMap c := rfl

/-- Among rows of distinct opcodes, a row decodes the frames of its opcode. -/
theorem decodeByRows_of_mem {rows : List (Byte × BodyDecoder)} (hnd : (rows.map Prod.fst).Nodup)
    {row : Byte × BodyDecoder} (hrow : row ∈ rows) (body : List Byte) (rx : Nat) :
    decodeByRows row.1 body rx rows = row.2 body rx := by
  induction rows with
  | nil => cases hrow
  | cons first rows ih =>
    rw [List.map_cons, List.nodup_cons] at hnd
    obtain ⟨hfirst, hnd⟩ := hnd
    rcases List.mem_cons.mp hrow with rfl | hrow
    · exact if_pos rfl
    · have hne : row.1 ≠ first.1 := fun he => hfirst (he ▸ List.mem_map_of_mem hrow)
      exact (if_neg hne).trans (ih hnd hrow)

/-- Whatever decodes was decoded by a row of its opcode. -/
theorem decodeByRows_ok {op : Byte} {body : List Byte} {rx : Nat} {i : Instr} {rows : List (Byte × BodyDecoder)}
    (h : decodeByRows op body rx rows = .ok i) : ∃ row ∈ rows, row.1 = op ∧ row.2 body rx = .ok i := by
  induction rows with
  | nil => cases h
  | cons first rows ih =>
    rcases ite_cases h with ⟨hop, h⟩ | h
    · exact ⟨first, List.mem_cons_self, hop.symm, h⟩
    · obtain ⟨row, hrow, hfst, hok⟩ := ih h
      exact ⟨row, List.mem_cons_of_mem _ hrow, hfst, hok⟩

/-- With distinct opcodes, row `k` of the table decodes the frames of its opcode. -/
theorem decode_frame_of_row {c : Config} {w : AddrWidth} {sel : RegSel} (hc : opcodesDistinct c) (k : Nat) {op : Byte}
    {f : BodyDecoder} (hrow : (frameDecoders c w sel)[k]? = some (op, f)) (body : List Byte) (rx : Nat) :
    decode c w (.frame ⟨op :: body, rx, sel⟩) = f body rx :=
  decodeByRows_of_mem (row := (op, f)) (map_fst_frameDecoders c w sel ▸ hc) (List.mem_of_getElem? hrow) body rx

/-! ### From the instruction to its encoding and back -/

theorem decodeSe_addr3 {a : Word} (ha : fitsThree a = true) : decodeSe (addr3 a) 0 = .ok (.se a) := by
  simp only [decodeSe, addr3, if_true, offsetOf3_addr3 ha]

theorem decodePp_addr3 {a : Word} {p : List Byte} (ha : fitsThree a = true) (hp : payloadOk p = true) :
    decodePp (addr3 a ++ p) 0 = .ok (.pp a p) := by
  simp only [decodePp, addr3, List.cons_append, List.nil_append, hp, if_true, offsetOf3_addr3 ha]

theorem decodeSlow_addr3 {o : Word} {n : Nat} (ho : fitsThree o = true) (hn : readCountOk n = true) :
    decodeSlow (addr3 o) n = .ok (.readSlow o n) := by
  simp only [decodeSlow, addr3, hn, if_true, offsetOf3_addr3 ho]

/-- Settles O9: a descriptor decodes by its command byte; a frame decodes by the row of its opcode, whose format reads
the operands back. -/
theorem decodeOfEncodeIsTheInstruction : Obligations.DecodeOfEncodeIsTheInstruction := by
  intro c w i hc hwf
  have read : ∀ (k : Nat) {op : Byte} {mk : Word → Nat → Instr} {o : Word} {n : Nat},
      (frameDecoders c w .sr1)[k]? = some (op, decodeRead c w mk) → (fitsWidth w o && readCountOk n) = true →
      decode c w (frameOf (op :: (addrBytes o w ++ [c.dummyByte])) n) = .ok (mk o n) := by
    intro k op mk o n hrow h
    obtain ⟨ho, hn⟩ := Bool.and_eq_true_iff.mp h
    exact (decode_frame_of_row hc k hrow _ n).trans (decodeRead_addrBytes c mk ho hn)
  cases i with
  | init | exit | unlock | read | erase | write => simp [decode, encode, descriptorOf, decodeDescriptor]
  | rdid => exact decode_frame_of_row hc 0 rfl [] 3
  | rdsr1 => exact decode_frame_of_row hc 1 rfl [] 1
  | rdsr2 => exact decode_frame_of_row hc 2 rfl [] 1
  | rdcr => exact decode_frame_of_row hc 3 rfl [] 1
  | wren => exact decode_frame_of_row hc 4 rfl [] 0
  | wrsrSr1 v => exact decode_frame_of_row hc 5 rfl [v] 0
  | wrsrSr2 v => exact decode_frame_of_row hc 5 rfl [0#8, v] 0
  | wrsrCr v => exact decode_frame_of_row hc 5 rfl [0#8, v] 0
  | en4b => exact decode_frame_of_row hc 6 rfl [] 0
  | ex4b => exact decode_frame_of_row hc 7 rfl [] 0
  | gbulk => exact decode_frame_of_row hc 8 rfl [] 0
  | se a => exact (decode_frame_of_row hc 9 rfl _ 0).trans (decodeSe_addr3 hwf)
  | pp a p =>
    obtain ⟨ha, hp⟩ := Bool.and_eq_true_iff.mp hwf
    exact (decode_frame_of_row hc 10 rfl _ 0).trans (decodePp_addr3 ha hp)
  | readSlow o n =>
    obtain ⟨ho, hn⟩ := Bool.and_eq_true_iff.mp hwf
    exact (decode_frame_of_row hc 11 rfl _ n).trans (decodeSlow_addr3 ho hn)
  | fast o n => exact read 12 rfl hwf
  | fast4 o n => exact read 13 rfl hwf
  | dual o n => exact read 14 rfl hwf
  | dual4 o n => exact read 15 rfl hwf
  | quad o n => exact read 16 rfl hwf
  | quad4 o n => exact read 17 rfl hwf

/-! ### From a frame to its instruction and back -/

/-- What a row of the table may answer: a well-formed instruction whose encoding is the frame it was read from, the
paired WRSR forms apart (log 15). -/
def SoundRow (c : Config) (w : AddrWidth) (row : Byte × BodyDecoder) : Prop :=
  ∀ (body : List Byte) (rx : Nat) (i : Instr), row.2 body rx = .ok i → wellFormed w i = true ∧
    ((∀ v, i ≠ .wrsrSr2 v) → (∀ v, i ≠ .wrsrCr v) → ∃ sel, encode c w i = .frame ⟨row.1 :: body, rx, sel⟩)

section
variable {c : Config} {w : AddrWidth}

theorem soundRow_bare {op : Byte} {i : Instr} {n : Nat} (hwf : wellFormed w i = true)
    (henc : encode c w i = frameOf [op] n) : SoundRow c w (op, decodeBare i n) := by
  intro body rx j h
  obtain ⟨rfl, rfl, rfl⟩ := decodeBare_ok h
  exact ⟨hwf, fun _ _ => ⟨.sr1, henc⟩⟩

theorem soundRow_wrsr (sel : RegSel) : SoundRow c w (c.opWrsr, decodeWrsr sel) := by
  intro body rx j h
  obtain ⟨rfl, ⟨v, rfl, rfl⟩ | ⟨v, rfl⟩ | ⟨v, rfl⟩⟩ := decodeWrsr_ok h
  · exact ⟨rfl, fun _ _ => ⟨.sr1, rfl⟩⟩
  · exact ⟨rfl, fun hne _ => absurd rfl (hne v)⟩
  · exact ⟨rfl, fun _ hne => absurd rfl (hne v)⟩

theorem soundRow_se : SoundRow c w (c.opSe, decodeSe) := by
  intro body rx j h
  obtain ⟨rfl, a2, a1, a0, rfl, rfl⟩ := decodeSe_ok h
  exact ⟨fitsThree_offsetOf3 _ _ _, fun _ _ => ⟨.sr1, by simp [encode, frameOf, addr3_offsetOf3]⟩⟩

theorem soundRow_pp : SoundRow c w (c.opPp, decodePp) := by
  intro body rx j h
  obtain ⟨rfl, a2, a1, a0, p, rfl, hp, rfl⟩ := decodePp_ok h
  exact ⟨Bool.and_eq_true_iff.mpr ⟨fitsThree_offsetOf3 _ _ _, hp⟩,
    fun _ _ => ⟨.sr1, by simp [encode, frameOf, addr3_offsetOf3]⟩⟩

theorem soundRow_slow : SoundRow c w (c.opRead, decodeSlow) := by
  intro body rx j h
  obtain ⟨hn, a2, a1, a0, rfl, rfl⟩ := decodeSlow_ok h
  exact ⟨Bool.and_eq_true_iff.mpr ⟨fitsThree_offsetOf3 _ _ _, hn⟩,
    fun _ _ => ⟨.sr1, by simp [encode, frameOf, addr3_offsetOf3]⟩⟩

theorem soundRow_read {op : Byte} {mk : Word → Nat → Instr}
    (hwf : ∀ o n, wellFormed w (mk o n) = (fitsWidth w o && readCountOk n))
    (henc : ∀ o n, encode c w (mk o n) = frameOf (op :: (addrBytes o w ++ [c.dummyByte])) n) :
    SoundRow c w (op, decodeRead c w mk) := by
  intro body rx j h
  obtain ⟨hn, o, ho, rfl, rfl⟩ := decodeRead_ok h
  exact ⟨(hwf o rx).trans (Bool.and_eq_true_iff.mpr ⟨ho, hn⟩), fun _ _ => ⟨.sr1, henc o rx⟩⟩

/-- Every row of the opcode map is sound. -/
theorem soundRow_frameDecoders (sel : RegSel) : ∀ row ∈ frameDecoders c w sel, SoundRow c w row := by
  have bare : ∀ {op : Byte} {i : Instr} {n : Nat}, wellFormed w i = true → encode c w i = frameOf [op] n →
      SoundRow c w (op, decodeBare i n) := soundRow_bare
  have read : ∀ {op : Byte} {mk : Word → Nat → Instr},
      (∀ o n, wellFormed w (mk o n) = (fitsWidth w o && readCountOk n)) →
      (∀ o n, encode c w (mk o n) = frameOf (op :: (addrBytes o w ++ [c.dummyByte])) n) →
      SoundRow c w (op, decodeRead c w mk) := soundRow_read
  simp only [frameDecoders, List.forall_mem_cons]
  exact ⟨bare rfl rfl, bare rfl rfl, bare rfl rfl, bare rfl rfl, bare rfl rfl, soundRow_wrsr sel, bare rfl rfl,
    bare rfl rfl, bare rfl rfl, soundRow_se, soundRow_pp, soundRow_slow,
    read (fun _ _ => rfl) fun _ _ => rfl, read (fun _ _ => rfl) fun _ _ => rfl, read (fun _ _ => rfl) fun _ _ => rfl,
    read (fun _ _ => rfl) fun _ _ => rfl, read (fun _ _ => rfl) fun _ _ => rfl, read (fun _ _ => rfl) fun _ _ => rfl,
    List.forall_mem_nil _⟩

/-- A frame that decodes was read by a sound row of its opcode. -/
theorem decode_frame_ok {r : PortRequest} {i : Instr} (h : decode c w (.frame r) = .ok i) : wellFormed w i = true ∧
    ((∀ v, i ≠ .wrsrSr2 v) → (∀ v, i ≠ .wrsrCr v) → ∃ sel, encode c w i = .frame ⟨r.tx, r.rx, sel⟩) := by
  obtain ⟨tx, rx, sel⟩ := r
  cases tx with
  | nil => cases h
  | cons op body =>
    obtain ⟨row, hrow, rfl, hok⟩ := decodeByRows_ok ((decodeFrame_cons c w op body rx sel).symm.trans h)
    exact soundRow_frameDecoders sel row hrow body rx i hok

/-- A descriptor decodes to a host command (30_encoding.md R61). -/
theorem decodeDescriptor_isHostCommand {d : Descriptor} {i : Instr} (h : decodeDescriptor d = .ok i) :
    isHostCommand i = true := by
  unfold decodeDescriptor at h
  split_ifs at h <;> cases h <;> rfl

/-- Every host command is well formed, whatever its operands. -/
theorem wellFormed_of_isHostCommand {i : Instr} (h : isHostCommand i = true) : wellFormed w i = true := by
  cases i with
  | init | exit | unlock | read | erase | write => rfl
  | _ => cases h

end

/-- Settles O10: a descriptor gives a host command, whose operands are free; a frame is read by a sound row. -/
theorem decodedInstructionIsWellFormed : Obligations.DecodedInstructionIsWellFormed := by
  intro c w x i h
  cases x with
  | desc d => exact wellFormed_of_isHostCommand (decodeDescriptor_isHostCommand h)
  | frame r => exact (decode_frame_ok h).1

/-- Settles O11: a frame is read by a sound row. -/
theorem encodeOfDecodedFrameIsTheFrame : Obligations.EncodeOfDecodedFrameIsTheFrame :=
  fun _ _ _ _ h => (decode_frame_ok h).2

/-! ### Fixed words -/

/-- Settles O12: five words, decoded. -/
theorem writtenOutWordsDecode : Obligations.WrittenOutWordsDecode := by
  refine ⟨?_, ?_, ?_, ?_, ?_⟩ <;> decide

/-- Settles O13: the eighteen bytes, compared. -/
theorem defaultOpcodesAreDistinct : Obligations.DefaultOpcodesAreDistinct := by
  constructor <;> decide

end Sys2Proof.Machine

/-! How a request is cut into chunks (43_data_path.md R129, R138), and the frames run on their own. -/

namespace Sys2Proof.Machine

/-! ### Chunks -/

/-- Every chunk but the last is whole. -/
theorem chunks_getElem?_whole {size len k : Nat} (h : k + 1 < (chunks size len).length) :
    (chunks size len)[k]? = some (k * size, size) := by
  rw [chunks_length] at h
  have hsize : 0 < size := Nat.pos_of_ne_zero fun h0 => by simp [h0] at h
  have hlen : (k + 2) * size ≤ len + size - 1 := (Nat.le_div_iff_mul_le hsize).mp h
  rw [chunks_getElem? (by omega), min_eq_left]
  have hsplit : (k + 2) * size = k * size + 2 * size := Nat.add_mul k 2 size
  omega

/-- The chunk lengths add up to the request. -/
theorem chunks_sum {size : Nat} (hsize : 0 < size) (len : Nat) : ((chunks size len).map Prod.snd).sum = len := by
  have hcover : len ≤ (len + size - 1) / size * size := by
    have hdiv := Nat.div_add_mod (len + size - 1) size
    have hmod := Nat.mod_lt (len + size - 1) hsize
    rw [Nat.mul_comm] at hdiv
    omega
  rw [chunks, List.map_map]
  exact (chunks_sum_range size len _).trans (min_eq_left hcover)

/-- Settles O19: count, positions, whole chunks and sum are those of any chunk size; the bound is that of the count. -/
theorem readChunksCoverTheRange : Obligations.ReadChunksCoverTheRange := by
  intro len
  have hcount : (chunks readChunk len).length = (len + 8388607) / 8388608 := by
    rw [chunks_length, readChunk, Nat.add_sub_assoc (by decide)]
  refine ⟨hcount, fun k hk => ?_, fun k hk => chunks_getElem?_whole hk, chunks_sum (by decide) len, fun hlen => ?_⟩
  · exact chunks_getElem? (hk.trans_eq (chunks_length readChunk len))
  · omega

/-- A request whose length is a multiple of the chunk size is cut into whole chunks. -/
theorem chunks_of_dvd {size len : Nat} (hsize : 0 < size) (hdvd : size ∣ len) :
    chunks size len = (List.range (len / size)).map fun k => (k * size, size) := by
  obtain ⟨m, rfl⟩ := hdvd
  have hcount : (size * m + size - 1) / size = m := by
    rw [Nat.add_sub_assoc hsize, Nat.mul_add_div hsize, Nat.div_eq_of_lt (by omega), Nat.add_zero]
  rw [chunks, hcount, Nat.mul_div_cancel_left m hsize]
  refine List.map_congr_left fun k hk => ?_
  have hle : (k + 1) * size ≤ size * m := by
    rw [Nat.mul_comm size m]
    exact Nat.mul_le_mul_right _ (List.mem_range.mp hk)
  rw [Nat.succ_mul] at hle
  rw [min_eq_left (by omega)]

/-- A host length is a multiple of a program chunk: 512 is four of them (20_memory.md R45). -/
theorem progChunk_dvd_byteLength (c : Word) : progChunk ∣ (byteLength c).toNat := by
  rw [byteLength_toNat, progChunk]
  omega

/-- Settles O20: the host's sector is four program chunks, so the chunks are whole, and nothing that wraps modulo 2^32
leaves the multiples of 128. -/
theorem writeChunksAreAligned : Obligations.WriteChunksAreAligned := by
  intro a c p hp
  rw [chunks_of_dvd (by decide) (progChunk_dvd_byteLength c)] at hp
  obtain ⟨k, -, rfl⟩ := List.mem_map.mp hp
  refine ⟨rfl, ?_⟩
  rw [BitVec.toNat_add, BitVec.toNat_ofNat, byteOffset_toNat, progChunk]
  omega

/-- Settles O16: one opcode byte, the address bytes of the width, and the dummy byte where the opcode has one. -/
theorem readFrameLengthByOpcodeAndWidth : Obligations.ReadFrameLengthByOpcodeAndWidth := by
  intro s o
  rw [readFrame, composeRead, List.length_cons, List.length_append, dummyBytes]
  cases s.session.addrWidth <;> split <;> rfl

/-! ### Frames run on their own -/

/-- Every frame instruction is a sequence of transactions and nothing else, ended as a frame. -/
theorem exec_frame {i : Instr} (hi : isHostCommand i = false) (s : State) :
    ∃ r, exec i s = .next (endFrame r) ∧ Contained (beginCommand s) r := by
  have write : ∀ {r : Res Unit}, Contained (beginCommand s) r →
      ∃ r', Host.Outcome.next (endWrite r) = (.next (endFrame r') : Host.Outcome State Fault Refusal) ∧
        Contained (beginCommand s) r' :=
    fun h => ⟨_, rfl, contained_bind h fun _ _ _ => contained_ok _ _⟩
  cases i with
  | init | exit | unlock | read | erase | write => cases hi
  | wren => exact write (contained_writeEnable _)
  | wrsrSr1 | wrsrSr2 | wrsrCr => exact write (contained_writeReg _ _ _)
  | gbulk => exact write (contained_globalUnlock _)
  | _ => exact ⟨_, rfl, contained_xfer _ _ _⟩

/-- Settles O21: a sequence of transactions ended as a frame touches only the port. -/
theorem frameTouchesOnlyThePort : Obligations.FrameTouchesOnlyThePort := by
  intro i s hi
  obtain ⟨r, hexec, hr⟩ := exec_frame hi s
  obtain ⟨hframe, hasked, hdiag⟩ := endFrame_spec hr
  exact ⟨_, hexec, hframe, asked_grows hasked, _, hdiag.symm⟩

/-- WREN has no response: forgetting its bytes and recording none are the same. -/
theorem exec_wren (s : State) : exec .wren s = .next (afterFrame s [s.cfg.opWren] 0) := by
  rw [← endFrame_xfer]
  change Host.Outcome.next (endWrite (xfer [s.cfg.opWren] 0 (beginCommand s)).done) = _
  cases h : xfer [s.cfg.opWren] 0 (beginCommand s) with
  | ok rx t => obtain rfl := answer_zero (xfer_ok h).1; rfl
  | raised e t => rfl

theorem exec_en4b (s : State) : exec .en4b s = .next (afterFrame s [opEn4b] 0) :=
  congrArg _ (endFrame_xfer [opEn4b] 0 s)

theorem exec_ex4b (s : State) : exec .ex4b s = .next (afterFrame s [opEx4b] 0) :=
  congrArg _ (endFrame_xfer [opEx4b] 0 s)

/-- Settles O23: each is one transaction run on its own. -/
theorem opcodeOnlyFrames : Obligations.OpcodeOnlyFrames :=
  fun s => ⟨exec_wren s, exec_en4b s, exec_ex4b s⟩

theorem exec_readSlow (o : Word) (n : Nat) (s : State) :
    exec (.readSlow o n) s = .next (afterFrame s (s.cfg.opRead :: addr3 o) n) :=
  congrArg _ (endFrame_xfer _ n s)

/-- The read instructions with a dummy byte, each with its opcode (42_frame_composer.md R121 to R126). -/
def dummyReads (c : Config) (o : Word) (n : Nat) : List (Instr × Byte) :=
  [(.fast o n, c.opFast), (.fast4 o n, c.opFast4), (.dual o n, c.opDual), (.dual4 o n, c.opDual4),
   (.quad o n, c.opQuad), (.quad4 o n, c.opQuad4)]

theorem map_snd_dummyReads (c : Config) (o : Word) (n : Nat) :
    (dummyReads c o n).map Prod.snd = recognisedReadOps c := rfl

/-- Each read instruction with a dummy byte is one composed read frame at the session's width. -/
theorem exec_dummyReads (o : Word) (n : Nat) (s : State) : ∀ p ∈ dummyReads s.cfg o n,
    exec p.1 s = .next (afterFrame s (composeRead s.cfg p.2 s.session.addrWidth o) n) := by
  have one : ∀ tx, Host.Outcome.next (endFrame (xfer tx n (beginCommand s))) =
      (.next (afterFrame s tx n) : Host.Outcome State Fault Refusal) := fun tx => congrArg _ (endFrame_xfer tx n s)
  simp only [dummyReads, List.forall_mem_cons]
  exact ⟨one _, one _, one _, one _, one _, one _, List.forall_mem_nil _⟩

theorem opRead_not_mem_recognisedReadOps {c : Config} (h : opcodesDistinct c) : c.opRead ∉ recognisedReadOps c :=
  (List.nodup_cons.mp (h.sublist (List.drop_sublist 11 (opcodeMap c)))).1

/-- The composed frame of a recognised opcode carries the dummy byte (42_frame_composer.md R113). -/
theorem composeRead_of_recognised {c : Config} {op : Byte} (hc : opcodesDistinct c) (hop : op ∈ recognisedReadOps c)
    (w : AddrWidth) (o : Word) : composeRead c op w o = op :: (addrBytes o w ++ [c.dummyByte]) := by
  have hne : op ≠ c.opRead := fun he => opRead_not_mem_recognisedReadOps hc (he ▸ hop)
  rw [composeRead, dummyBytes, if_neg hne]

/-- The composed frame of the slow read at THREE has no dummy byte (42_frame_composer.md R113, R120). -/
theorem composeRead_slow (c : Config) (o : Word) : composeRead c c.opRead .three o = c.opRead :: addr3 o := by
  rw [composeRead, dummyBytes, if_pos rfl, List.append_nil, addrBytes]

/-- Settles O25: a read instruction is one frame, and `ReadFrame` composes the same one from `S.readOp`. -/
theorem readOpcodeFrames : Obligations.ReadOpcodeFrames := by
  intro s o n hc
  refine ⟨⟨exec_readSlow o n s, fun hop hw => ?_⟩, fun p hp => ?_⟩
  · rw [readFrame, hop, hw, composeRead_slow]
  · have hop : p.2 ∈ recognisedReadOps s.cfg := map_snd_dummyReads s.cfg o n ▸ List.mem_map_of_mem hp
    have hframe := composeRead_of_recognised hc hop s.session.addrWidth o
    exact ⟨hframe ▸ exec_dummyReads o n s p hp, fun he => by rw [readFrame, he, hframe]⟩

/-- Settles O26: the unlock sequence, contained, with its three ends. -/
theorem globalUnlockFrames : Obligations.GlobalUnlockFrames := by
  intro s
  obtain ⟨o, evs, ⟨hframe, hran, hresult, hdiag⟩, hends⟩ :=
    writeRan_endWrite (contained_globalUnlock (beginCommand s)) (goes_globalUnlock (beginCommand s))
  rcases hends with ⟨rfl, hevs⟩ | ⟨rfl, hevs⟩
  · exact ⟨_, evs, rfl, hframe, hdiag.trans (List.append_nil _), hran, .inl ⟨hresult, hevs⟩⟩
  · exact ⟨_, evs, rfl, hframe, hdiag.trans (List.append_nil _), hran, .inr ⟨hresult, hevs⟩⟩

end Sys2Proof.Machine

/-! What an instruction can do at all, said once (`exec_ran`), and what follows for every step: the inputs kept, the
outputs grown, one status for each host command, the transport's answers, and the machine's invariant. -/

namespace Sys2Proof.Machine

/-! ### The outcome of each host command -/

theorem exec_exit (stage : Word) (s : State) : exec (.exit stage) s =
    .next (returnStatus statusOk { transportTeardown (beginCommand s) with session.initialized := false }) := rfl

theorem exec_init_in_session {s : State} (hs : s.session.initialized = true) (stage : Word) :
    exec (.init stage) s = .next (returnStatus statusOk (beginCommand s)) := by
  change execInit stage s = _
  rw [execInit, if_pos hs]

theorem exec_init_outside {s : State} (hs : s.session.initialized = false) (stage : Word) :
    exec (.init stage) s = .next (endMinusOne (initSequence (beginCommand s))) := by
  change execInit stage s = _
  rw [execInit, if_neg (by simp [hs])]

theorem exec_unlock_of_engine {s u : State} (hs : s.session.initialized = true)
    (hu : unlockEngine (beginCommand s) = some u) : exec .unlock s = .next (returnStatus statusOk u) := by
  change execUnlock s = _
  rw [execUnlock, if_pos hs, hu]

/-- READ in a session is its loop of chunks: where the loop has no step, the command has none. -/
theorem exec_read_of_some {s : State} {a c b : Word} {r : Res Unit} (hs : s.session.initialized = true)
    (hr : readChunks (byteOffset a) (hostAddr s.cfg b) (chunks readChunk (byteLength c).toNat) (beginCommand s) =
      some r) : exec (.read a c b) s = .next (endMinusOne r) := by
  change execRead a c b s = _
  rw [execRead, if_pos hs, hr]

theorem exec_read_of_none {s : State} {a c b : Word} (hs : s.session.initialized = true)
    (hr : readChunks (byteOffset a) (hostAddr s.cfg b) (chunks readChunk (byteLength c).toNat) (beginCommand s) =
      none) : exec (.read a c b) s = .fault .hostMemory := by
  change execRead a c b s = _
  rw [execRead, if_pos hs, hr]

theorem exec_erase_of_engine {s u : State} {a c : Word} (hs : s.session.initialized = true)
    (ha : eraseAligned (byteOffset a) (byteLength c) = true) (hu : unlockEngine (beginCommand s) = some u) :
    exec (.erase a c) s =
      .next (endFailCode (eraseSectors (eraseOffsets (byteOffset a) (byteLength c).toNat) u)) := by
  change execErase a c s = _
  rw [execErase, if_pos hs, if_pos ha, hu]

/-- WRITE in a session is the unlock engine and then its loop of chunks. -/
theorem exec_write_of_some {s u : State} {a c b : Word} {r : Res Unit} (hs : s.session.initialized = true)
    (hu : unlockEngine (beginCommand s) = some u)
    (hr : program (byteOffset a) (byteLength c).toNat (hostAddr s.cfg b) u = some r) :
    exec (.write a c b) s = .next (endFailCode r) := by
  change execWrite a c b s = _
  simp only [execWrite, if_pos hs, hu, hr]

theorem exec_write_of_none {s u : State} {a c b : Word} (hs : s.session.initialized = true)
    (hu : unlockEngine (beginCommand s) = some u)
    (hr : program (byteOffset a) (byteLength c).toNat (hostAddr s.cfg b) u = none) :
    exec (.write a c b) s = .fault .hostMemory := by
  change execWrite a c b s = _
  simp only [execWrite, if_pos hs, hu, hr]

/-- Settles O36: the session flag is the first thing each of the four commands looks at. -/
theorem commandsBeforeInitFault : Obligations.CommandsBeforeInitFault := by
  intro s a c b hs
  have hs : ¬ s.session.initialized = true := by simp [hs]
  exact ⟨if_neg hs, if_neg hs, if_neg hs, if_neg hs⟩

/-! ### How a host command that answers `next` went -/

section
variable {s t : State}

theorem exec_unlock_next (h : exec .unlock s = .next t) : s.session.initialized = true ∧
    ∃ u, unlockEngine (beginCommand s) = some u ∧ t = returnStatus statusOk u := by
  change execUnlock s = _ at h
  unfold execUnlock at h
  split at h
  · next hs =>
    split at h
    · next u hu => cases h; exact ⟨hs, u, hu, rfl⟩
    · cases h
  · cases h

theorem exec_read_next {a c b : Word} (h : exec (.read a c b) s = .next t) : s.session.initialized = true ∧
    ∃ r, readChunks (byteOffset a) (hostAddr s.cfg b) (chunks readChunk (byteLength c).toNat) (beginCommand s) =
        some r ∧ t = endMinusOne r := by
  change execRead a c b s = _ at h
  unfold execRead at h
  split at h
  · next hs =>
    split at h
    · next r hr => cases h; exact ⟨hs, r, hr, rfl⟩
    · cases h
  · cases h

/-- A misaligned request, or the unlock engine and then the erase loop. -/
theorem exec_erase_next {a c : Word} (h : exec (.erase a c) s = .next t) :
    t = endFailCode (raise (.alignment (byteOffset a) (byteLength c)) (beginCommand s)) ∨
      ∃ u, unlockEngine (beginCommand s) = some u ∧
        t = endFailCode (eraseSectors (eraseOffsets (byteOffset a) (byteLength c).toNat) u) := by
  change execErase a c s = _ at h
  unfold execErase at h
  split at h
  · split at h
    · split at h
      · next u hu => cases h; exact .inr ⟨u, hu, rfl⟩
      · cases h
    · cases h; exact .inl rfl
  · cases h

theorem exec_write_next {a c b : Word} (h : exec (.write a c b) s = .next t) :
    ∃ u r, unlockEngine (beginCommand s) = some u ∧
      program (byteOffset a) (byteLength c).toNat (hostAddr s.cfg b) u = some r ∧ t = endFailCode r := by
  change execWrite a c b s = _ at h
  unfold execWrite at h
  split at h
  · split at h
    · next u hu =>
      split at h
      · next r hr => cases h; exact ⟨u, r, hu, hr, rfl⟩
      · cases h
    · cases h
  · cases h

end

/-! ### What a command's sequence touches before the command returns -/

/-- `u` differs from `s` at most in the session record, host memory and what transactions touch; the outputs grew by
what the port did, with `own` further values drawn. -/
structure Worked (own : Nat) (s u : State) : Prop where
  frame : u = { s with
    session := u.session, useq := u.useq, diag := u.diag, trace := u.trace, script := u.script, draws := u.draws,
    mem := u.mem }
  port : ∃ evs, PortRan own s u evs
  diag : s.diag <+: u.diag

theorem worked_of_initOnly {s u : State} (h : InitOnly s u) : Worked 0 s u :=
  ⟨by rw [h.frame], h.asked, h.diag⟩

theorem worked_of_copyOnly {own : Nat} {s u : State} (h : CopyOnly s u) (hport : ∃ evs, PortRan own s u evs) :
    Worked own s u :=
  ⟨by rw [h], hport, by rw [h]⟩

theorem initOnly_refl (s : State) : InitOnly s s := ⟨rfl, asked_refl s, List.prefix_refl _⟩

theorem initOnly_mem {s u : State} (h : InitOnly s u) : u.mem = s.mem := by rw [h.frame]

theorem initOnly_of_contained {α : Type} {s : State} {r : Res α} (h : Contained s r) : InitOnly s r.state :=
  initOnly_of_portOnly (r := s.session) h.port h.asked ⟨_, h.logs.symm⟩

/-- The unlock engine touches the session record and the port alone. -/
theorem initOnly_unlockEngine {s u : State} (h : unlockEngine s = some u) : InitOnly s u := by
  obtain ⟨hport, hasked⟩ := unlockEngine_spec h
  refine initOnly_of_portOnly hport hasked ?_
  rcases unlockEngine_some h with ⟨-, rfl⟩ | ⟨-, id, -, rfl⟩
  · exact List.prefix_refl _
  · exact ⟨_, (contained_unlockBody id.manufacturer { s with session.unlocked := true }).logs.symm⟩

theorem unlockEngine_session {s u : State} (h : unlockEngine (beginCommand s) = some u) :
    u.session = { s.session with unlocked := true } :=
  portOnly_session (unlockEngine_spec h).1

/-- The teardown of EXIT: one event, without an answer. -/
theorem initOnly_teardown (s : State) :
    InitOnly s { transportTeardown s with session.initialized := false } :=
  ⟨rfl, ⟨[.transportTeardown], rfl, trivial, rfl, rfl⟩, List.prefix_refl _⟩

/-! ### What an instruction can do -/

/-- The session record after an instruction from `s` (10_state.md section 6). -/
def SessionAfter (s : State) (new : Session) : Instr → Prop
  | .init _ => (s.session.initialized = true ∧ new = s.session) ∨
      (s.session.initialized = false ∧
        ∃ u, new = u.session ∧ (Committed (beginCommand s) u ∨ Abandoned (beginCommand s) u))
  | .exit _ => new = { s.session with transportUp := false, initialized := false }
  | _ => new = s.session ∨ new = { s.session with unlocked := true }

/-- The statuses that an instruction may return (60_exceptions.md R168). -/
def StatusOf (v : Word) : Instr → Prop
  | .init _ => v = statusOk ∨ v = statusMinusOne
  | .read _ _ _ => v = statusOk ∨ v = statusMinusOne
  | .exit _ => v = statusOk
  | .unlock => v = statusOk
  | _ => True

/-- Everything that running `i` from `s` to `t` can do. -/
structure Ran (i : Instr) (s t : State) : Prop where
  cfg : t.cfg = s.cfg
  bootCfg : t.bootCfg = s.bootCfg
  program : t.program = s.program
  hostMap : t.hostMap = s.hostMap
  port : ∃ own evs, own ≤ 1 ∧ PortRan own s t evs
  diag : s.diag <+: t.diag
  session : SessionAfter s t.session i
  mem : (∀ a c b, i ≠ .read a c b) → t.mem = s.mem
  memWf : s.mem.wf → t.mem.wf
  frameEnd : isHostCommand i = false → t.hpc = s.hpc ∧ t.statuses = s.statuses
  commandEnd : isHostCommand i = true → t.hpc = s.hpc + 1 ∧ ∃ v, t.statuses = s.statuses ++ [v] ∧ StatusOf v i

/-- A host command that worked and then returned status `v`, with at most one further value drawn. -/
theorem ran_of_worked {i : Instr} {s u : State} {v : Word} {k own : Nat} (hi : isHostCommand i = true)
    (hu : Worked k (beginCommand s) u) (hown : k + own ≤ 1) (hsession : SessionAfter s u.session i)
    (hmem : (∀ a c b, i ≠ .read a c b) → u.mem = s.mem) (hwf : s.mem.wf → u.mem.wf) (hv : StatusOf v i) :
    Ran i s { returnStatus v u with draws := u.draws + own } := by
  obtain ⟨hframe, ⟨evs, hport⟩, hdiag⟩ := hu
  have hanswers : AnsweredFrom s evs := (answeredFrom_congr (s := beginCommand s) (t := s) rfl rfl evs).mp hport.answers
  have keeps : ∀ {β : Type} (f : State → β), f u = f { beginCommand s with
      session := u.session, useq := u.useq, diag := u.diag, trace := u.trace, script := u.script, draws := u.draws,
      mem := u.mem } := fun f => congrArg f hframe
  exact
    { cfg := keeps State.cfg
      bootCfg := keeps State.bootCfg
      program := keeps State.program
      hostMap := keeps State.hostMap
      port := ⟨k + own, evs, hown, hport.trace, hanswers, hport.script,
        by rw [← Nat.add_assoc]; exact congrArg (· + own) hport.draws⟩
      diag := hdiag
      session := hsession
      mem := hmem
      memWf := hwf
      frameEnd := fun hf => absurd (hi.symm.trans hf) (by decide)
      commandEnd := fun _ => ⟨congrArg (· + 1) (keeps State.hpc), v, congrArg (· ++ [v]) (keeps State.statuses), hv⟩ }

/-- As `ran_of_worked`, for the commands that leave host memory alone. -/
theorem ran_of_initOnly {i : Instr} {s u : State} {v : Word} {own : Nat} (hi : isHostCommand i = true)
    (hu : InitOnly (beginCommand s) u) (hown : own ≤ 1) (hsession : SessionAfter s u.session i) (hv : StatusOf v i) :
    Ran i s { returnStatus v u with draws := u.draws + own } := by
  have hmem : u.mem = s.mem := initOnly_mem (s := beginCommand s) hu
  exact ran_of_worked hi (worked_of_initOnly hu) (by omega) hsession (fun _ => hmem) (fun hwf => hmem ▸ hwf) hv

/-- A frame touches the port alone. -/
theorem ran_endFrame {i : Instr} {s : State} {r : Res (List Byte)} (hi : isHostCommand i = false)
    (hr : Contained (beginCommand s) r) : Ran i s (endFrame r) := by
  obtain ⟨hframe, ⟨evs, hport⟩, hdiag⟩ := endFrame_spec hr
  have keeps : ∀ {β : Type} (f : State → β), f (endFrame r) = f { s with
      useq := (endFrame r).useq, diag := (endFrame r).diag, trace := (endFrame r).trace,
      script := (endFrame r).script, draws := (endFrame r).draws, result := (endFrame r).result } :=
    fun f => congrArg f hframe
  have hsession : (endFrame r).session = s.session := keeps State.session
  have hmem : (endFrame r).mem = s.mem := keeps State.mem
  exact
    { cfg := keeps State.cfg
      bootCfg := keeps State.bootCfg
      program := keeps State.program
      hostMap := keeps State.hostMap
      port := ⟨0, evs, Nat.zero_le _, hport⟩
      diag := ⟨_, hdiag.symm⟩
      session := by
        cases i with
        | init | exit => cases hi
        | _ => exact .inl hsession
      mem := fun _ => hmem
      memWf := fun hwf => hmem ▸ hwf
      frameEnd := fun _ => ⟨keeps State.hpc, keeps State.statuses⟩
      commandEnd := fun hc => absurd (hi.symm.trans hc) (by decide) }

/-- A command that may fail returns after its sequence, with or without a draw of `FAIL_CODE`. -/
theorem ran_endFailCode {i : Instr} {s u : State} {r : Res Unit} (hi : isHostCommand i = true)
    (hu : InitOnly (beginCommand s) u) (hr : Contained u r) (hsession : SessionAfter s u.session i)
    (hv : ∀ v, StatusOf v i) : Ran i s (endFailCode r) := by
  have hall : InitOnly (beginCommand s) r.state := initOnly_trans hu (initOnly_of_contained hr)
  have hsession : SessionAfter s r.state.session i := (portOnly_session hr.port).symm ▸ hsession
  cases r with
  | ok x w => exact ran_of_initOnly (own := 0) hi hall (by omega) hsession (hv _)
  | raised e w => exact ran_of_initOnly (own := 1) hi hall (by omega) hsession (hv _)

theorem ran_init {stage : Word} {s t : State} (h : exec (.init stage) s = .next t) : Ran (.init stage) s t := by
  cases hs : s.session.initialized with
  | true =>
    cases (exec_init_in_session hs stage).symm.trans h
    exact ran_of_initOnly (own := 0) rfl (initOnly_refl _) (by omega) (.inl ⟨hs, rfl⟩) (.inl rfl)
  | false =>
    cases (exec_init_outside hs stage).symm.trans h
    rcases initSequence_spec (beginCommand s) with ⟨u, hseq, hu⟩ | ⟨e, u, hseq, hu⟩ <;> rw [hseq]
    · exact ran_of_initOnly (own := 0) rfl hu.only (by omega) (.inr ⟨hs, u, rfl, .inl hu⟩) (.inl rfl)
    · exact ran_of_initOnly (own := 0) rfl hu.only (by omega) (.inr ⟨hs, u, rfl, .inr hu⟩) (.inr rfl)

theorem ran_exit {stage : Word} {s t : State} (h : exec (.exit stage) s = .next t) : Ran (.exit stage) s t := by
  cases (exec_exit stage s).symm.trans h
  exact ran_of_initOnly (own := 0) rfl (initOnly_teardown _) (by omega) rfl rfl

theorem ran_unlock {s t : State} (h : exec .unlock s = .next t) : Ran .unlock s t := by
  obtain ⟨-, u, hu, rfl⟩ := exec_unlock_next h
  exact ran_of_initOnly (own := 0) rfl (initOnly_unlockEngine hu) (by omega) (.inr (unlockEngine_session hu)) rfl

theorem ran_read {a c b : Word} {s t : State} (h : exec (.read a c b) s = .next t) : Ran (.read a c b) s t := by
  obtain ⟨-, r, hr, rfl⟩ := exec_read_next h
  obtain ⟨hcopy, hport, hwf, -⟩ := readChunks_port _ _ _ hr
  have hmem : (∀ a' c' b', Instr.read a c b ≠ .read a' c' b') → r.state.mem = s.mem := fun hne => absurd rfl (hne a c b)
  have hsession := copyOnly_session hcopy
  cases r with
  | ok x u =>
    exact ran_of_worked (own := 0) rfl (worked_of_copyOnly hcopy hport) (by simp [endedBy]) (.inl hsession) hmem hwf
      (.inl rfl)
  | raised e u =>
    exact ran_of_worked (own := 0) rfl (worked_of_copyOnly hcopy hport) (by simp [endedBy]) (.inl hsession) hmem hwf
      (.inr rfl)

theorem ran_erase {a c : Word} {s t : State} (h : exec (.erase a c) s = .next t) : Ran (.erase a c) s t := by
  rcases exec_erase_next h with rfl | ⟨u, hu, rfl⟩
  · exact ran_endFailCode rfl (initOnly_refl _) (contained_raise _ _) (.inl rfl) fun _ => trivial
  · exact ran_endFailCode rfl (initOnly_unlockEngine hu) (contained_eraseSectors _ u) (.inr (unlockEngine_session hu))
      fun _ => trivial

theorem ran_write {a c b : Word} {s t : State} (h : exec (.write a c b) s = .next t) : Ran (.write a c b) s t := by
  obtain ⟨u, r, hu, hr, rfl⟩ := exec_write_next h
  exact ran_endFailCode rfl (initOnly_unlockEngine hu) (contained_programChunks _ _ _ hr)
    (.inr (unlockEngine_session hu)) fun _ => trivial

/-- Everything that an instruction can do. -/
theorem exec_ran {i : Instr} {s t : State} (h : exec i s = .next t) : Ran i s t := by
  cases hi : isHostCommand i with
  | false =>
    obtain ⟨r, hexec, hr⟩ := exec_frame hi s
    cases hexec.symm.trans h
    exact ran_endFrame hi hr
  | true =>
    cases i with
    | init => exact ran_init h
    | exit => exact ran_exit h
    | unlock => exact ran_unlock h
    | read => exact ran_read h
    | erase => exact ran_erase h
    | write => exact ran_write h
    | _ => cases hi

/-! ### What follows for an instruction -/

/-- Settles O60: the port's part of what an instruction can do. -/
theorem everyAnswerIsTheTransports : Obligations.EveryAnswerIsTheTransports :=
  fun _ _ _ h => (exec_ran h).port

/-- Settles O32: the memory part of what an instruction can do. -/
theorem onlyReadWritesHostMemory : Obligations.OnlyReadWritesHostMemory :=
  fun _ _ _ hi h => (exec_ran h).mem hi

/-- Settles O30: the positions and the status of a command's end. -/
theorem commandEndsWithOneStatus : Obligations.CommandEndsWithOneStatus := by
  intro i s t hi h
  obtain ⟨hhpc, v, hstatuses, hv⟩ := (exec_ran h).commandEnd hi
  refine ⟨hhpc, v, hstatuses, ?_⟩
  cases i <;> exact hv

/-- Settles O33: within a session INIT does nothing, EXIT is left out, and the others write the flag at most. -/
theorem sessionIsFixedUntilExit : Obligations.SessionIsFixedUntilExit := by
  intro i s t hs hi h
  have hafter := (exec_ran h).session
  have flag : t.session = s.session ∨ t.session = { s.session with unlocked := true } →
      t.session = { s.session with unlocked := t.session.unlocked } := by
    rintro (he | he) <;> rw [he]
  cases i with
  | init stage =>
    rcases hafter with ⟨-, he⟩ | ⟨hs', -⟩
    · exact flag (.inl he)
    · exact absurd (hs.symm.trans hs') (by decide)
  | exit stage => exact absurd rfl (hi stage)
  | _ => exact flag hafter

/-! ### Steps -/

theorem fetch_eq_port_iff {s : State} {r : PortRequest} : fetch s = .port r ↔ s.request = some r := by
  unfold fetch
  cases s.request with
  | none => cases s.program[s.hpc]? <;> simp
  | some r' => simp

/-- A step idles, runs a host command, or runs the frame of the port request with the request taken. -/
theorem step_cases {s t : State} (h : step s = .next t) :
    t = s ∨ (∃ i, isHostCommand i = true ∧ exec i s = .next t) ∨
      (s.request ≠ none ∧ ∃ i, exec i (clearRequest s) = .next t) := by
  unfold step at h
  cases hf : fetch s with
  | idle => rw [hf] at h; cases h; exact .inl rfl
  | command d =>
    rw [hf] at h
    cases hd : decode s.cfg s.session.addrWidth (.desc d) with
    | ok i => simp only [hd] at h; exact .inr (.inl ⟨i, decodeDescriptor_isHostCommand hd, h⟩)
    | error e => simp only [hd] at h; cases h
  | port r =>
    have hr : s.request ≠ none := by simp [fetch_eq_port_iff.mp hf]
    rw [hf] at h
    cases hd : decode s.cfg s.session.addrWidth (.frame r) with
    | ok i => simp only [hd] at h; exact .inr (.inr ⟨hr, i, h⟩)
    | error e => simp only [hd] at h; cases h

/-- Settles O4: the fetch gives the descriptor. -/
theorem stepRunsTheDecodedCommand : Obligations.StepRunsTheDecodedCommand :=
  fun _ _ _ hr hp hd => step_of_decodeDescriptor_ok hr hp hd

theorem step_of_decode_frame {s : State} {r : PortRequest} {i : Instr} (hr : s.request = some r)
    (hd : decode s.cfg s.session.addrWidth (.frame r) = .ok i) : step s = exec i (clearRequest s) := by
  simp only [step, fetch_eq_port_iff.mpr hr, hd]

/-- Settles O5: the fetch gives the request first. -/
theorem stepRunsTheRequestedFrame : Obligations.StepRunsTheRequestedFrame :=
  fun _ _ _ hr hd => step_of_decode_frame hr hd

/-- Settles O6: past the end of the command stream there is nothing to fetch. -/
theorem idleBlockStays : Obligations.IdleBlockStays := by
  intro s hr hp
  have hfetch : fetch s = .idle := by
    simp only [fetch, hr, List.getElem?_eq_none hp]
  simp only [step, hfetch]

theorem placeDescriptor_getElem? (d : Descriptor) (k : Nat) : ∀ ds, (placeDescriptor d k ds)[k]? = some d := by
  induction k with
  | zero => intro ds; rfl
  | succ k ih => intro ds; rw [placeDescriptor, List.getElem?_cons_succ]; exact ih _

/-- Settles O8: a word of 32 bits or more is placed at index `hpc` and fetched as the command, a shorter one as the port
request. -/
theorem placedWordIsRunNext : Obligations.PlacedWordIsRunNext := by
  intro s nbits w i h
  by_cases hn : 32 ≤ nbits
  · rw [tableCode, if_pos hn] at h
    rw [if_pos hn, State.withFetchWord, placeTableWord, tableCode, if_pos hn]
    exact step_of_decodeDescriptor_ok rfl (placeDescriptor_getElem? _ _ _) h
  · rw [tableCode, if_neg hn] at h
    rw [if_neg hn, State.withFetchWord, placeTableWord, tableCode, if_neg hn]
    exact step_of_decode_frame rfl h

/-- No instruction clears the unlock flag (10_state.md section 2). -/
theorem ran_unlocked {i : Instr} {s t : State} (h : Ran i s t) (hs : s.session.unlocked = true) :
    t.session.unlocked = true := by
  have hafter := h.session
  have flag : t.session = s.session ∨ t.session = { s.session with unlocked := true } →
      t.session.unlocked = true := by
    rintro (he | he) <;> rw [he]
    exact hs
  cases i with
  | init stage =>
    rcases hafter with ⟨-, he⟩ | ⟨-, u, he, hu | hu⟩ <;> rw [he]
    · exact hs
    · exact hu.unlocked.trans hs
    · exact hu.unlocked.trans hs
  | exit stage => rw [show t.session = _ from hafter]; exact hs
  | _ => exact flag hafter

theorem ran_statuses {i : Instr} {s t : State} (h : Ran i s t) : s.statuses <+: t.statuses := by
  cases hi : isHostCommand i with
  | false => rw [(h.frameEnd hi).2]
  | true => obtain ⟨-, v, hv, -⟩ := h.commandEnd hi; exact ⟨[v], hv.symm⟩

theorem ran_trace {i : Instr} {s t : State} (h : Ran i s t) : s.trace <+: t.trace := by
  obtain ⟨_, evs, -, hport⟩ := h.port
  exact ⟨evs, hport.trace.symm⟩

/-- The inputs kept and the outputs grown, over one instruction. -/
theorem ran_keeps_and_grows {i : Instr} {s t : State} (h : Ran i s t) :
    t.cfg = s.cfg ∧ t.bootCfg = s.bootCfg ∧ t.program = s.program ∧ t.hostMap = s.hostMap ∧
      s.trace <+: t.trace ∧ s.diag <+: t.diag ∧ s.statuses <+: t.statuses ∧
      (s.session.unlocked = true → t.session.unlocked = true) :=
  ⟨h.cfg, h.bootCfg, h.program, h.hostMap, ran_trace h, h.diag, ran_statuses h, ran_unlocked h⟩

/-- Settles O31: an idle step changes nothing, and an instruction keeps the inputs and grows the outputs. -/
theorem stepKeepsInputsAndGrowsOutputs : Obligations.StepKeepsInputsAndGrowsOutputs := by
  intro s t h
  rcases step_cases h with rfl | ⟨i, -, hi⟩ | ⟨-, i, hi⟩
  · exact ⟨rfl, rfl, rfl, rfl, List.prefix_refl _, List.prefix_refl _, List.prefix_refl _, id⟩
  · exact ran_keeps_and_grows (exec_ran hi)
  · exact ran_keeps_and_grows (s := clearRequest s) (exec_ran hi)

/-! ### The invariant -/

/-- What the invariant says of the read opcode and the width. -/
structure ReadModeLegal (c : Config) (op : Byte) (w : AddrWidth) : Prop where
  legal : op ∈ c.opRead :: recognisedReadOps c
  slowIsThree : opcodesDistinct c → op = c.opRead → w = .three
  fourByteIsFour : opcodesDistinct c → op ∈ fourByteOps c → w = .four

theorem mem_recognised_of_threeByte {c : Config} {op : Byte} (h : op ∈ threeByteOps c) : op ∈ recognisedReadOps c :=
  (recognisedReadOps_perm c).mem_iff.mpr (List.mem_append_left _ h)

theorem mem_recognised_of_fourByte {c : Config} {op : Byte} (h : op ∈ fourByteOps c) : op ∈ recognisedReadOps c :=
  (recognisedReadOps_perm c).mem_iff.mpr (List.mem_append_right _ h)

/-- A 3-byte opcode is legal at either width. -/
theorem readModeLegal_threeByte {c : Config} {op : Byte} (h : op ∈ threeByteOps c) (w : AddrWidth) :
    ReadModeLegal c op w where
  legal := List.mem_cons_of_mem _ (mem_recognised_of_threeByte h)
  slowIsThree hc he := absurd (he ▸ mem_recognised_of_threeByte h) (opRead_not_mem_recognisedReadOps hc)
  fourByteIsFour hc h4 := absurd h4 ((nodup_ops_by_width hc).2.2 h)

theorem readModeLegal_fourByte {c : Config} {op : Byte} (h : op ∈ fourByteOps c) : ReadModeLegal c op .four where
  legal := List.mem_cons_of_mem _ (mem_recognised_of_fourByte h)
  slowIsThree hc he := absurd (he ▸ mem_recognised_of_fourByte h) (opRead_not_mem_recognisedReadOps hc)
  fourByteIsFour _ _ := rfl

theorem readModeLegal_slow (c : Config) : ReadModeLegal c c.opRead .three where
  legal := List.mem_cons_self
  slowIsThree _ _ := rfl
  fourByteIsFour hc h4 := absurd (mem_recognised_of_fourByte h4) (opRead_not_mem_recognisedReadOps hc)

/-- The identity overrides are 3-byte opcodes (44_init_exit.md R150). -/
theorem readModeLegal_overrideOp {c : Config} {op : Byte} {w : AddrWidth} (h : ReadModeLegal c op w) (id : Ident) :
    ReadModeLegal c (overrideOp c id op) w := by
  unfold overrideOp
  split_ifs
  · exact readModeLegal_threeByte (by simp [threeByteOps]) w
  · exact readModeLegal_threeByte (by simp [threeByteOps]) w
  · exact h

/-- What INIT commits is legal. -/
theorem readModeLegal_of_committed {s t : State} (h : Committed s t) :
    ReadModeLegal s.cfg t.session.readOp t.session.addrWidth := by
  obtain ⟨id, op, -, -, hop, hchoice⟩ := h.choice
  rw [hop]
  apply readModeLegal_overrideOp
  rcases hchoice with ⟨-, rfl, hw⟩ | ⟨rq, hrq, ⟨rfl, hw⟩ | ⟨rfl, hw⟩⟩ <;> rw [hw]
  · exact readModeLegal_slow s.cfg
  · exact readModeLegal_threeByte (family_normalised (reqOp_family hrq)).2 _
  · exact readModeLegal_fourByte (family_normalised (reqOp_family hrq)).1

/-- What the invariant says of the session record, under the parameters `c`. -/
structure SessionInv (c : Config) (r : Session) : Prop where
  transportUp : r.initialized = true → r.transportUp = true
  idWritten : r.initialized = true → r.id.isSome = true
  idPresent : ∀ id, r.id = some id → id.manufacturer ≠ 0x00#8
  readMode : ReadModeLegal c r.readOp r.addrWidth

/-- The invariant, by what it says of memory, of the statuses and of the session record. -/
theorem machineInv_iff {s : State} :
    MachineInv s ↔ s.mem.wf ∧ s.statuses.length = s.hpc ∧ SessionInv s.cfg s.session :=
  ⟨fun h => ⟨h.memWf, h.statusPerCommand, h.transportUp, h.idWritten, h.idPresent, h.readOpLegal, h.slowReadIsThree,
      h.fourByteOpIsFour⟩,
    fun ⟨hmem, hstatus, h⟩ => ⟨hmem, hstatus, h.transportUp, h.idWritten, h.idPresent, h.readMode.legal,
      h.readMode.slowIsThree, h.readMode.fourByteIsFour⟩⟩

/-- Every instruction keeps what the invariant says of the session record. -/
theorem sessionInv_of_sessionAfter {i : Instr} {s : State} {new : Session} (hs : SessionInv s.cfg s.session)
    (h : SessionAfter s new i) : SessionInv s.cfg new := by
  have flag : new = s.session ∨ new = { s.session with unlocked := true } → SessionInv s.cfg new := by
    rintro (rfl | rfl)
    · exact hs
    · exact ⟨hs.transportUp, hs.idWritten, hs.idPresent, hs.readMode⟩
  cases i with
  | init stage =>
    rcases h with ⟨-, he⟩ | ⟨hout, u, rfl, hu | hu⟩
    · exact flag (.inl he)
    · obtain ⟨id, op, hid, hm, -, -⟩ := hu.choice
      have hmode := readModeLegal_of_committed hu
      refine ⟨fun _ => hu.transportUp, fun _ => by rw [hid]; rfl, fun id' he => ?_, hmode⟩
      cases hid.symm.trans he
      exact hm
    · have hnot : u.session.initialized = true → False := fun ht => by
        rw [hu.initialized, beginCommand_session, hout] at ht
        cases ht
      refine ⟨fun ht => (hnot ht).elim, fun ht => (hnot ht).elim, fun id he => ?_, ?_⟩
      · rcases hu.id with hid | ⟨id', hid, hm⟩
        · exact hs.idPresent id (hid.symm.trans he)
        · cases hid.symm.trans he
          exact hm
      · rw [hu.readOp, hu.addrWidth]
        exact hs.readMode
  | exit stage => subst h; exact ⟨fun ht => (nomatch ht), fun ht => (nomatch ht), hs.idPresent, hs.readMode⟩
  | _ => exact flag h

theorem machineInv_of_ran {i : Instr} {s t : State} (hs : MachineInv s) (h : Ran i s t) : MachineInv t := by
  obtain ⟨hmem, hstatus, hsession⟩ := machineInv_iff.mp hs
  refine machineInv_iff.mpr ⟨h.memWf hmem, ?_, h.cfg ▸ sessionInv_of_sessionAfter hsession h.session⟩
  cases hi : isHostCommand i with
  | false =>
    obtain ⟨hhpc, hstatuses⟩ := h.frameEnd hi
    rw [hhpc, hstatuses, hstatus]
  | true =>
    obtain ⟨hhpc, v, hstatuses, -⟩ := h.commandEnd hi
    rw [hhpc, hstatuses, List.length_append, hstatus, List.length_singleton]

/-- Settles O1: the fields of the reset state. -/
theorem resetLeavesSessionAtDefaults : Obligations.ResetLeavesSessionAtDefaults :=
  ⟨rfl, rfl, rfl, rfl, rfl, rfl, rfl, rfl, rfl⟩

/-- Settles O2: no session, no identity, the slow read at THREE. -/
theorem resetMeetsInvariant : Obligations.ResetMeetsInvariant :=
  machineInv_iff.mpr ⟨reset_mem_wf, rfl, fun h => (nomatch h), fun h => (nomatch h), fun _ h => (nomatch h),
    readModeLegal_slow _⟩

/-- Settles O3: an idle step changes nothing, and every instruction keeps the invariant. -/
theorem everyStepKeepsInvariant : Obligations.EveryStepKeepsInvariant := by
  intro s t hs h
  rcases step_cases h with rfl | ⟨i, -, hi⟩ | ⟨-, i, hi⟩
  · exact hs
  · exact machineInv_of_ran hs (exec_ran hi)
  · have hcleared : MachineInv (clearRequest s) := by
      obtain ⟨hmem, hstatus, hsession⟩ := machineInv_iff.mp hs
      exact machineInv_iff.mpr ⟨hmem, hstatus, hsession⟩
    exact machineInv_of_ran hcleared (exec_ran hi)

/-- Settles O29: a raise is an appended diagnostic. -/
theorem raiseLogsAndChangesNothingElse : Obligations.RaiseLogsAndChangesNothingElse :=
  ⟨fun e _ => by cases e <;> rfl, rfl⟩

end Sys2Proof.Machine

/-! The frame discipline and the emitted frames of the host commands (70_reset_and_hazards.md R185, 30_encoding.md R65,
R69): both hold piece by piece, so they are carried together through the sequences. -/

namespace Sys2Proof.Machine

/-! ### The opcodes a host command emits -/

/-- The opcode map without `OP_EX4B`. -/
def commandOps (c : Config) : List Byte :=
  [c.opRdid, c.opRdsr1, c.opRdsr2, c.opRdcr, c.opWren, c.opWrsr, opEn4b, c.opGbulk, c.opSe, c.opPp,
   c.opRead, c.opFast, c.opFast4, c.opDual, c.opDual4, c.opQuad, c.opQuad4]

theorem opcodeMap_erase_opEx4b {c : Config} (hc : opcodesDistinct c) : (opcodeMap c).erase opEx4b = commandOps c := by
  have hsplit : opcodeMap c = (opcodeMap c).take 7 ++ opEx4b :: (opcodeMap c).drop 8 := rfl
  have hnot : opEx4b ∉ (opcodeMap c).take 7 := by
    have hnd : ((opcodeMap c).take 7 ++ opEx4b :: (opcodeMap c).drop 8).Nodup := hsplit ▸ hc
    exact fun hmem => (List.nodup_append'.mp hnd).2.2 hmem List.mem_cons_self
  rw [hsplit, List.erase_append_right _ hnot, List.erase_cons_head]
  rfl

/-- A transaction of a host command's opcode within the size limits. -/
theorem emitted_xfer {c : Config} (hc : opcodesDistinct c) {op : Byte} {tl : List Byte} {n : Nat}
    {rx : Option (List Byte)} (hop : op ∈ commandOps c) (htl : tl.length ≤ 131) (hn : n ≤ readChunk)
    (hrx : ∀ bytes, rx = some bytes → bytes.length = n) : EmittedByCommand c (.xfer (op :: tl) n rx) :=
  ⟨⟨op, (opcodeMap_erase_opEx4b hc).symm ▸ hop, rfl⟩, Nat.succ_le_succ htl, hn, hrx⟩

theorem emitted_wren {c : Config} (hc : opcodesDistinct c) {rx : Option (List Byte)}
    (hrx : ∀ bytes, rx = some bytes → bytes.length = 0) : EmittedByCommand c (wrenEvent c rx) :=
  emitted_xfer hc (by simp [commandOps]) (Nat.zero_le _) (by decide) hrx

theorem emitted_statusRead {c : Config} (hc : opcodesDistinct c) {rx : Option (List Byte)}
    (hrx : ∀ bytes, rx = some bytes → bytes.length = 1) : EmittedByCommand c (.xfer [c.opRdsr1] 1 rx) :=
  emitted_xfer hc (by simp [commandOps]) (Nat.zero_le _) (by decide) hrx

/-- An answer without bytes and an answer of one byte have the counts of their requests; FAILURE has none. -/
theorem length_of_some_nil : ∀ bytes : List Byte, some [] = some bytes → bytes.length = 0 := by
  rintro _ ⟨⟩; rfl

theorem length_of_none {n : Nat} : ∀ bytes : List Byte, none = some bytes → bytes.length = n := nofun

theorem emitted_statusReads {c : Config} (hc : opcodesDistinct c) (busy : List Byte) :
    ∀ e ∈ busy.map (statusRead c), EmittedByCommand c e := by
  simp only [List.forall_mem_map]
  exact fun b _ => emitted_statusRead hc (by rintro _ ⟨⟩; rfl)

/-! ### Orderly events -/

/-- Events that obey the discipline, leave nothing under way, and are frames a host command emits. -/
def Orderly (c : Config) (evs : List Event) : Prop := Disciplined c evs ∧ ∀ e ∈ evs, EmittedByCommand c e

theorem orderly_nil (c : Config) : Orderly c [] := ⟨disciplined_nil c, List.forall_mem_nil _⟩

theorem orderly_append {c : Config} {evs evs' : List Event} (h : Orderly c evs) (k : Orderly c evs') :
    Orderly c (evs ++ evs') :=
  ⟨disciplined_append h.1 k.1, List.forall_mem_append.mpr ⟨h.2, k.2⟩⟩

/-- The opcodes whose transactions stand alone: neither a WREN nor a frame that needs one. -/
def plainOps (c : Config) : List Byte :=
  [c.opRdid, c.opRdsr1, c.opRdsr2, c.opRdcr, opEn4b] ++ c.opRead :: recognisedReadOps c

theorem plainOps_subset_commandOps (c : Config) : plainOps c ⊆ commandOps c := by
  intro op hop
  simp only [plainOps, recognisedReadOps, commandOps, List.cons_append, List.nil_append, List.mem_cons,
    List.not_mem_nil, or_false] at hop ⊢
  tauto

theorem plainOps_apart {c : Config} (hc : opcodesDistinct c) :
    ∀ op ∈ plainOps c, op ∉ c.opWren :: c.opGbulk :: pollOps c := by
  obtain ⟨-, -, hsr1, hsr2, hcr, hid, hen, hread⟩ := opcodes_apart hc
  simp only [plainOps, List.forall_mem_append, List.forall_mem_cons]
  exact ⟨⟨hid, hsr1, hsr2, hcr, hen, List.forall_mem_nil _⟩, List.forall_mem_cons.mp hread⟩

theorem orderly_plain {c : Config} (hc : opcodesDistinct c) {op : Byte} {tl : List Byte} {n : Nat}
    {rx : Option (List Byte)} (hop : op ∈ plainOps c) (htl : tl.length ≤ 131) (hn : n ≤ readChunk)
    (hrx : ∀ bytes, rx = some bytes → bytes.length = n) : Orderly c [.xfer (op :: tl) n rx] := by
  have hapart := plainOps_apart hc op hop
  rw [List.mem_cons, not_or] at hapart
  exact ⟨disciplined_plain hapart.2 hapart.1,
    List.forall_mem_singleton.mpr (emitted_xfer hc (plainOps_subset_commandOps c hop) htl hn hrx)⟩

/-- The frames of a write sequence that must be followed by a ready-poll. -/
theorem mem_commandOps_of_pollOps {c : Config} {op : Byte} (h : op ∈ pollOps c) : op ∈ commandOps c := by
  simp only [pollOps, commandOps, List.mem_cons, List.not_mem_nil, or_false] at h ⊢
  tauto

theorem emitted_of_pollCompletes {c : Config} (hc : opcodesDistinct c) {evs : List Event} (h : PollCompletes c evs) :
    ∀ e ∈ evs, EmittedByCommand c e := by
  obtain ⟨busy, v, -, -, -, rfl⟩ := h
  exact List.forall_mem_append.mpr ⟨emitted_statusReads hc busy, emitted_statusReads hc [v]⟩

theorem emitted_of_pollFails {c : Config} (hc : opcodesDistinct c) {e : BlockError} {evs : List Event}
    (h : PollFails c e evs) : ∀ ev ∈ evs, EmittedByCommand c ev := by
  obtain ⟨busy, -, ⟨-, -, rfl⟩ | ⟨-, -, rfl⟩⟩ := h
  · exact List.forall_mem_append.mpr ⟨emitted_statusReads hc busy,
      List.forall_mem_singleton.mpr (emitted_statusRead hc length_of_none)⟩
  · exact emitted_statusReads hc busy

/-- A write sequence, however it ended. -/
theorem orderly_writeEnds {c : Config} (hc : opcodesDistinct c) {op : Byte} {tl : List Byte} (hop : op ∈ pollOps c)
    (htl : tl.length ≤ 131) {o : Option BlockError} {evs : List Event} (h : WriteEnds c (op :: tl) o evs) :
    Orderly c evs := by
  have hwren := emitted_wren hc length_of_some_nil
  have hframe : ∀ {rx : Option (List Byte)}, (∀ bytes, rx = some bytes → bytes.length = 0) →
      EmittedByCommand c (.xfer (op :: tl) 0 rx) :=
    emitted_xfer hc (mem_commandOps_of_pollOps hop) htl (Nat.zero_le _)
  cases o with
  | none =>
    refine ⟨disciplined_writeCompletes hc hop h, ?_⟩
    obtain ⟨p, hp, rfl⟩ := h
    exact List.forall_mem_cons.mpr ⟨hwren, List.forall_mem_cons.mpr ⟨hframe length_of_some_nil,
      emitted_of_pollCompletes hc hp⟩⟩
  | some e =>
    refine ⟨disciplined_writeFails hc hop h, ?_⟩
    rcases h with ⟨-, rfl⟩ | ⟨-, rfl⟩ | ⟨p, hp, rfl⟩
    · exact List.forall_mem_singleton.mpr (emitted_wren hc length_of_none)
    · exact List.forall_mem_cons.mpr ⟨hwren, List.forall_mem_singleton.mpr (hframe length_of_none)⟩
    · exact List.forall_mem_cons.mpr ⟨hwren, List.forall_mem_cons.mpr ⟨hframe length_of_some_nil,
        emitted_of_pollFails hc hp⟩⟩

theorem orderly_globalUnlock {c : Config} (hc : opcodesDistinct c) {o : Option BlockError} {evs : List Event}
    (h : GlobalUnlockEnds c o evs) : Orderly c evs := by
  obtain ⟨hwren, hgbulk, -⟩ := opcodes_apart hc
  have hne : c.opGbulk ≠ c.opWren := fun he => hwren (he ▸ List.mem_cons_self)
  have hframe : ∀ {rx : Option (List Byte)}, (∀ bytes, rx = some bytes → bytes.length = 0) →
      EmittedByCommand c (.xfer [c.opGbulk] 0 rx) :=
    emitted_xfer hc (by simp [commandOps]) (Nat.zero_le _) (Nat.zero_le _)
  have hboth : ∀ {rx : Option (List Byte)}, (∀ bytes, rx = some bytes → bytes.length = 0) →
      Orderly c [wrenEvent c (some []), .xfer [c.opGbulk] 0 rx] := fun hrx =>
    ⟨by simp [Disciplined, wrenEvent, runPhases, phaseStep, hwren],
      List.forall_mem_cons.mpr ⟨emitted_wren hc length_of_some_nil, List.forall_mem_singleton.mpr (hframe hrx)⟩⟩
  rcases h with ⟨-, rfl⟩ | ⟨-, rfl | rfl⟩
  · exact hboth length_of_some_nil
  · exact ⟨by simp [Disciplined, wrenEvent, runPhases, phaseStep, hwren],
      List.forall_mem_singleton.mpr (emitted_wren hc length_of_none)⟩
  · exact hboth length_of_none

/-! ### Orderly sequences -/

/-- From `s` to `u` the parameters stay and, under distinct opcodes, the trace grew by orderly events. -/
structure OrderlyRun (s u : State) : Prop where
  cfg : u.cfg = s.cfg
  trace : opcodesDistinct s.cfg → ∃ evs, u.trace = s.trace ++ evs ∧ Orderly s.cfg evs

theorem orderlyRun_of_trace {s u : State} (hcfg : u.cfg = s.cfg) (htrace : u.trace = s.trace) : OrderlyRun s u :=
  ⟨hcfg, fun _ => ⟨[], by simp [htrace], orderly_nil _⟩⟩

theorem orderlyRun_refl (s : State) : OrderlyRun s s := orderlyRun_of_trace rfl rfl

theorem orderlyRun_trans {s u v : State} (h : OrderlyRun s u) (k : OrderlyRun u v) : OrderlyRun s v := by
  refine ⟨k.cfg.trans h.cfg, fun hc => ?_⟩
  obtain ⟨evs, htrace, hevs⟩ := h.trace hc
  obtain ⟨evs', htrace', hevs'⟩ := k.trace (h.cfg ▸ hc)
  exact ⟨evs ++ evs', by rw [htrace', htrace, List.append_assoc], orderly_append hevs (h.cfg ▸ hevs')⟩

theorem orderlyRun_bind {α β : Type} {s : State} {r : Res α} {f : α → State → Res β} (h : OrderlyRun s r.state)
    (k : ∀ a u, r = .ok a u → OrderlyRun u (f a u).state) : OrderlyRun s (r.bind f).state := by
  cases r with
  | ok a u => exact orderlyRun_trans h (k a u rfl)
  | raised e u => exact h

/-- A sequence whose events are known is orderly when they are. -/
theorem orderlyRun_of_goes {α : Type} {s : State} {r : Res α} {P : Option BlockError → List Event → Prop}
    (hr : Contained s r) (hg : Goes s r P) (hP : opcodesDistinct s.cfg → ∀ o evs, P o evs → Orderly s.cfg evs) :
    OrderlyRun s r.state := by
  obtain ⟨evs, htrace, hevs⟩ := hg
  exact ⟨portOnly_cfg hr.port, fun hc => ⟨evs, htrace, hP hc _ _ hevs⟩⟩

theorem orderlyRun_afterXfer {s : State} {op : Byte} {tl : List Byte} {n : Nat} (hop : op ∈ plainOps s.cfg)
    (htl : tl.length ≤ 131) (hn : n ≤ readChunk) : OrderlyRun s (afterXfer (op :: tl) n s) :=
  ⟨rfl, fun hc => ⟨_, rfl, orderly_plain hc hop htl hn fun _ h => answer_length h⟩⟩

theorem orderlyRun_xfer {s : State} {op : Byte} {tl : List Byte} {n : Nat} (hop : op ∈ plainOps s.cfg)
    (htl : tl.length ≤ 131) (hn : n ≤ readChunk) : OrderlyRun s (xfer (op :: tl) n s).state := by
  cases h : xfer (op :: tl) n s with
  | ok rx u => obtain ⟨-, -, rfl⟩ := xfer_ok h; exact orderlyRun_afterXfer hop htl hn
  | raised e u => obtain ⟨-, -, rfl⟩ := xfer_raised h; exact orderlyRun_afterXfer hop htl hn

theorem readRegOp_mem_plainOps (c : Config) (sel : RegSel) : readRegOp c sel ∈ plainOps c := by
  cases sel <;> simp [readRegOp, plainOps]

theorem readReg_eq (sel : RegSel) (s : State) :
    readReg sel s = (xfer [readRegOp s.cfg sel] 1 s).bind fun rx s => .ok (firstByte rx) s := by
  cases sel <;> rfl

theorem orderlyRun_readReg (sel : RegSel) (s : State) : OrderlyRun s (readReg sel s).state := by
  rw [readReg_eq]
  exact orderlyRun_bind (orderlyRun_xfer (readRegOp_mem_plainOps _ sel) (Nat.zero_le _) (by decide))
    fun _ u _ => orderlyRun_refl u

theorem orderlyRun_writeFrame {s : State} {op : Byte} {tl : List Byte} (hop : op ∈ pollOps s.cfg)
    (htl : tl.length ≤ 131) : OrderlyRun s (writeFrame (op :: tl) s).state :=
  orderlyRun_of_goes (contained_writeFrame _ s) (goes_writeFrame _ s) fun hc _ _ h => orderly_writeEnds hc hop htl h

theorem orderlyRun_writeReg (sel : RegSel) (v : Byte) (s : State) : OrderlyRun s (writeReg sel v s).state := by
  have paired : OrderlyRun s (writePaired v s).state :=
    orderlyRun_bind (orderlyRun_readReg .sr1 s) fun _ _ _ => orderlyRun_writeFrame (by simp [pollOps]) (by simp)
  cases sel with
  | sr1 => exact orderlyRun_writeFrame (by simp [pollOps]) (by simp)
  | sr2 => exact paired
  | cr => exact paired

theorem orderlyRun_setQe (sel : RegSel) (k : Fin 8) (s : State) : OrderlyRun s (setQe sel k s).state := by
  refine orderlyRun_bind (orderlyRun_readReg sel s) fun v u _ => ?_
  split
  · exact orderlyRun_refl u
  · refine orderlyRun_bind (orderlyRun_writeReg sel _ u) fun _ w _ =>
      orderlyRun_bind (orderlyRun_readReg sel w) fun _ x _ => ?_
    split
    · exact orderlyRun_refl x
    · exact orderlyRun_of_trace rfl rfl

theorem orderlyRun_enableQuad (id : Ident) (op : Byte) (s : State) : OrderlyRun s (enableQuad id op s).state := by
  unfold enableQuad
  split
  · unfold quadEnable
    split
    · unfold quirkMacronix
      split
      · exact orderlyRun_refl s
      · exact orderlyRun_setQe _ _ s
    · exact orderlyRun_setQe _ _ s
    · exact orderlyRun_setQe _ _ s
    · exact orderlyRun_of_trace rfl rfl
  · exact orderlyRun_refl s

theorem orderlyRun_clearCmp (s : State) : OrderlyRun s (clearCmp s).state := by
  refine orderlyRun_bind (orderlyRun_readReg .sr2 s) fun _ u _ => ?_
  split
  · exact orderlyRun_writeReg .sr2 _ u
  · exact orderlyRun_refl u

theorem orderlyRun_clearSr1 (m : Byte) (s : State) : OrderlyRun s (clearSr1 m s).state := by
  unfold clearSr1
  split
  · exact orderlyRun_bind (orderlyRun_readReg .sr1 s) fun _ u _ => orderlyRun_writeReg .sr1 _ u
  · exact orderlyRun_writeReg .sr1 _ s

/-- One run of the unlock engine's body. -/
theorem orderlyRun_unlockBody (m : Byte) (s : State) : OrderlyRun s (unlockBody m s).state := by
  refine orderlyRun_bind ?_ fun _ u _ => ?_
  · unfold statusPath
    split
    · refine orderlyRun_bind ?_ fun _ u _ => orderlyRun_clearSr1 m u
      split
      · exact orderlyRun_clearCmp s
      · exact orderlyRun_refl s
    · exact orderlyRun_refl s
  · unfold extendedPath
    split
    · split
      · exact orderlyRun_of_goes (contained_globalUnlock u) (goes_globalUnlock u) fun hc _ _ h =>
          orderly_globalUnlock hc h
      · exact orderlyRun_refl u
    · exact orderlyRun_refl u

theorem orderlyRun_unlockEngine {s u : State} (h : unlockEngine s = some u) : OrderlyRun s u := by
  rcases unlockEngine_some h with ⟨-, rfl⟩ | ⟨-, id, -, rfl⟩
  · exact orderlyRun_refl u
  · have hbody := orderlyRun_unlockBody id.manufacturer { s with session.unlocked := true }
    exact ⟨hbody.cfg, hbody.trace⟩

/-! ### INIT -/

theorem orderlyRun_negotiate4B (s : State) : OrderlyRun s (negotiate4B .enter s).2 := by
  have hframes : OrderlyRun s (negotiateFrames .enter s).state :=
    orderlyRun_bind (orderlyRun_xfer (by simp [mode4BOpcode, plainOps]) (Nat.zero_le _) (Nat.zero_le _))
      fun _ u _ => orderlyRun_readReg .cr u
  exact orderlyRun_trans hframes (orderlyRun_of_trace
    ((portOnly_cfg (negotiate4B_spec .enter s).1).trans hframes.cfg.symm) (negotiate4B_trace .enter s))

theorem orderlyRun_chooseWidth (s : State) : OrderlyRun s (chooseWidth s).2 := by
  unfold chooseWidth
  split
  · exact orderlyRun_refl s
  · split
    · exact orderlyRun_refl s
    · split
      · have hn := orderlyRun_negotiate4B s
        split <;> rename_i h <;> rw [h] at hn <;> exact hn
      · exact orderlyRun_refl s

theorem orderlyRun_probe (s : State) : OrderlyRun s (probe s).state := by
  have hid : OrderlyRun s (readId s).state :=
    orderlyRun_bind (orderlyRun_xfer (by simp [plainOps]) (Nat.zero_le _) (by decide)) fun _ u _ => orderlyRun_refl u
  refine orderlyRun_bind hid fun _ u _ => ?_
  split <;> exact orderlyRun_of_trace rfl rfl

/-- The adapter's init is one event that the discipline allows while nothing is under way. -/
theorem orderly_transportInit (c : Config) (ok : Bool) : Orderly c [.transportInit ok] :=
  ⟨rfl, List.forall_mem_singleton.mpr trivial⟩

theorem orderlyRun_transportInit (s : State) : OrderlyRun s (transportInit s).state := by
  cases h : transportInit s with
  | ok x u =>
    obtain ⟨-, hport, -, hran⟩ := transportInit_ok h
    have hcfg : u.cfg = s.cfg := by rw [hport]
    exact ⟨hcfg, fun _ => ⟨_, hran.trace, orderly_transportInit _ _⟩⟩
  | raised e u =>
    obtain ⟨-, -, hport, -, hran⟩ := transportInit_raised h
    exact ⟨portOnly_cfg hport, fun _ => ⟨_, hran.trace, orderly_transportInit _ _⟩⟩

theorem orderlyRun_initSequence (s : State) : OrderlyRun s (initSequence s).state := by
  refine orderlyRun_bind (orderlyRun_transportInit s) fun _ u _ =>
    orderlyRun_bind (orderlyRun_probe u) fun id w _ => ?_
  exact orderlyRun_bind (orderlyRun_trans (orderlyRun_chooseWidth w) (orderlyRun_enableQuad id _ _))
    fun _ x _ => orderlyRun_of_trace rfl rfl

/-! ### The data path -/

theorem orderlyRun_eraseSectors (as : List Word) : ∀ s, OrderlyRun s (eraseSectors as s).state := by
  induction as with
  | nil => exact orderlyRun_refl
  | cons a as ih =>
    exact fun s => orderlyRun_bind (orderlyRun_writeFrame (by simp [pollOps]) (by simp [addr3])) fun _ u _ => ih u

theorem readBlock_length (m : Memory) (a n : Nat) : (m.readBlock a n).length = n := by
  rw [Memory.readBlock, List.length_map, List.length_range']

/-- The loop of `Program` over chunks of legal size: a chunk whose host bytes are not provided has no step after its
WREN was answered, so the loop stops at that WREN or goes on as a write sequence. -/
theorem orderlyRun_programChunks (off : Word) (buf : Nat) (cs : List (Nat × Nat)) : ∀ {s : State} {r : Res Unit},
    (∀ p ∈ cs, p.2 ≤ progChunk) → programChunks off buf cs s = some r → OrderlyRun s r.state := by
  induction cs with
  | nil => intro s r _ h; cases h; exact orderlyRun_refl s
  | cons p cs ih =>
    intro s r hsize h
    obtain ⟨pos, n⟩ := p
    have hn : n ≤ progChunk := hsize (pos, n) List.mem_cons_self
    have hrest : ∀ p ∈ cs, p.2 ≤ progChunk := fun p hp => hsize p (List.mem_cons_of_mem _ hp)
    by_cases hr : RangeReadable s (buf + pos) n
    · have hone : OrderlyRun s
          (writeFrame (programFrame s.cfg (off + BitVec.ofNat 32 pos) (s.mem.readBlock (buf + pos) n)) s).state :=
        orderlyRun_writeFrame (by simp [pollOps])
          (by rw [List.length_append, readBlock_length]; simp only [addr3, progChunk] at hn ⊢; simp; omega)
      rw [programChunks_cons hr] at h
      cases hw : writeFrame (programFrame s.cfg (off + BitVec.ofNat 32 pos) (s.mem.readBlock (buf + pos) n)) s with
      | raised e u => rw [hw] at h hone; cases h; exact hone
      | ok x u => rw [hw] at h hone; exact orderlyRun_trans hone (ih hrest h)
    · rw [programChunks] at h
      cases hw : writeEnable s with
      | raised e u =>
        rw [hw] at h
        cases h
        obtain ⟨-, hport, -, htrace⟩ := writeEnable_raised hw
        refine ⟨portOnly_cfg hport, fun hc => ⟨_, htrace, ?_⟩⟩
        exact orderly_globalUnlock hc (.inr ⟨rfl, .inl rfl⟩)
      | ok x u =>
        have hport := (writeEnable_ok hw).1
        have hnone : memRead u (buf + pos) n = none := memRead_none.mpr fun hu =>
          hr fun x hx hn => (hostReadable_portOnly hport x).symm.trans (hu x hx hn)
        simp only [hw, hnone, Option.bind_none] at h
        cases h

/-- The read frame of a legal read opcode is plain and short. -/
theorem orderlyRun_readFrame {s : State} (hop : s.session.readOp ∈ s.cfg.opRead :: recognisedReadOps s.cfg) (o : Word)
    {n : Nat} (hn : n ≤ readChunk) : OrderlyRun s (afterXfer (readFrame s o) n s) := by
  refine orderlyRun_afterXfer (List.mem_append_right _ hop) ?_ hn
  have haddr : (addrBytes o s.session.addrWidth).length ≤ 4 := by
    cases s.session.addrWidth <;> simp [addrBytes, addr3, addr4]
  have hdummy : (dummyBytes s.cfg s.session.readOp).length ≤ 1 := by unfold dummyBytes; split <;> simp
  rw [List.length_append]
  omega

theorem orderlyRun_readChunks (off : Word) (buf : Nat) (cs : List (Nat × Nat)) : ∀ {s : State} {r : Res Unit},
    s.session.readOp ∈ s.cfg.opRead :: recognisedReadOps s.cfg → (∀ p ∈ cs, p.2 ≤ readChunk) →
    readChunks off buf cs s = some r → OrderlyRun s r.state := by
  induction cs with
  | nil => intro s r _ _ h; cases h; exact orderlyRun_refl s
  | cons p cs ih =>
    intro s r hop hsize h
    obtain ⟨pos, n⟩ := p
    have hone := orderlyRun_readFrame hop (off + BitVec.ofNat 32 pos) (hsize (pos, n) List.mem_cons_self)
    have hrest : ∀ p ∈ cs, p.2 ≤ readChunk := fun p hp => hsize p (List.mem_cons_of_mem _ hp)
    rw [readChunks] at h
    cases hx : xfer (readFrame s (off + BitVec.ofNat 32 pos)) n s with
    | raised e u =>
      rw [hx] at h
      cases h
      obtain ⟨-, -, rfl⟩ := xfer_raised hx
      exact orderlyRun_trans hone (orderlyRun_of_trace rfl rfl)
    | ok rx u =>
      rw [hx] at h
      obtain ⟨-, -, rfl⟩ := xfer_ok hx
      obtain ⟨v, hv, hloop⟩ := Option.bind_eq_some_iff.mp h
      obtain ⟨-, rfl⟩ := memWrite_some hv
      have htail := ih (s := { afterXfer (readFrame s (off + BitVec.ofNat 32 pos)) n s with mem := _ }) hop hrest hloop
      exact orderlyRun_trans hone ⟨htail.cfg, htail.trace⟩

/-- No chunk is larger than the chunk size. -/
theorem chunks_size_le (size len : Nat) : ∀ p ∈ chunks size len, p.2 ≤ size := by
  intro p hp
  obtain ⟨k, -, rfl⟩ := chunks_mem hp
  exact min_le_left _ _

/-! ### The host commands -/

theorem orderlyRun_endMinusOne {s : State} {r : Res Unit} (h : OrderlyRun (beginCommand s) r.state) :
    OrderlyRun s (endMinusOne r) := by
  cases r <;> exact ⟨h.cfg, h.trace⟩

theorem orderlyRun_endFailCode {s u : State} {r : Res Unit} (hu : OrderlyRun (beginCommand s) u)
    (h : OrderlyRun u r.state) : OrderlyRun s (endFailCode r) := by
  have hall := orderlyRun_trans hu h
  cases r <;> exact ⟨hall.cfg, hall.trace⟩

/-- Every host command issues orderly events. -/
theorem orderlyRun_exec {i : Instr} {s t : State} (hi : isHostCommand i = true)
    (hop : s.session.readOp ∈ s.cfg.opRead :: recognisedReadOps s.cfg) (h : exec i s = .next t) : OrderlyRun s t := by
  cases i with
  | init stage =>
    cases hs : s.session.initialized with
    | true => cases (exec_init_in_session hs stage).symm.trans h; exact orderlyRun_of_trace rfl rfl
    | false =>
      cases (exec_init_outside hs stage).symm.trans h
      exact orderlyRun_endMinusOne (orderlyRun_initSequence _)
  | exit stage =>
    cases (exec_exit stage s).symm.trans h
    exact ⟨rfl, fun _ => ⟨[.transportTeardown], rfl, rfl, List.forall_mem_singleton.mpr trivial⟩⟩
  | unlock =>
    obtain ⟨-, u, hu, rfl⟩ := exec_unlock_next h
    have hrun := orderlyRun_unlockEngine hu
    exact ⟨hrun.cfg, hrun.trace⟩
  | read a c b =>
    obtain ⟨-, r, hr, rfl⟩ := exec_read_next h
    exact orderlyRun_endMinusOne (orderlyRun_readChunks _ _ _ hop (chunks_size_le _ _) hr)
  | erase a c =>
    rcases exec_erase_next h with rfl | ⟨u, hu, rfl⟩
    · exact orderlyRun_of_trace rfl rfl
    · exact orderlyRun_endFailCode (orderlyRun_unlockEngine hu) (orderlyRun_eraseSectors _ u)
  | write a c b =>
    obtain ⟨u, r, hu, hr, rfl⟩ := exec_write_next h
    exact orderlyRun_endFailCode (orderlyRun_unlockEngine hu)
      (orderlyRun_programChunks _ _ _ (chunks_size_le _ _) hr)
  | _ => cases hi

/-- A step without a port request issues orderly events. -/
theorem orderlyRun_step {s t : State} (hs : MachineInv s) (hr : s.request = none) (h : step s = .next t) :
    OrderlyRun s t := by
  rcases step_cases h with rfl | ⟨i, hi, hexec⟩ | ⟨hreq, -⟩
  · exact orderlyRun_refl t
  · exact orderlyRun_exec hi hs.readOpLegal hexec
  · exact absurd hr hreq

/-- Settles O34: orderly events obey the discipline. -/
theorem commandsKeepTheFrameDiscipline : Obligations.CommandsKeepTheFrameDiscipline := by
  intro s t hs hc hr h
  obtain ⟨evs, htrace, hevs⟩ := (orderlyRun_step hs hr h).trace hc
  exact ⟨evs, htrace, hevs.1⟩

/-- Settles O35: orderly events are frames that host commands emit. -/
theorem commandsEmitOnlyMappedFrames : Obligations.CommandsEmitOnlyMappedFrames := by
  intro s t hs hc hr h
  obtain ⟨evs, htrace, hevs⟩ := (orderlyRun_step hs hr h).trace hc
  exact ⟨evs, htrace, hevs.2⟩

end Sys2Proof.Machine

/-! INIT (44_init_exit.md section 1): its ends on scripted paths, what it commits, and what a committed read mode
rests on. -/

namespace Sys2Proof.Machine

/-! ### The ends of INIT on scripted paths -/

/-- Settles O38: in a session INIT only returns. -/
theorem initInASessionDoesNothing : Obligations.InitInASessionDoesNothing :=
  fun _ stage hs => exec_init_in_session hs stage

theorem transportInit_of_failure {s : State} (h : initAnswer s = false) :
    transportInit s =
      raise (.transport .init) { afterAnswer s with trace := s.trace ++ [.transportInit false] } := by
  simp only [transportInit, h, Bool.false_eq_true, if_false]

theorem transportInit_of_success {s : State} (h : initAnswer s = true) :
    transportInit s = .ok ()
      { afterAnswer s with trace := s.trace ++ [.transportInit true], session.transportUp := true } := by
  simp only [transportInit, h, if_true]

/-- Settles O39: the first step raises, and TransportError logs nothing. -/
theorem initFailsWithTheTransport : Obligations.InitFailsWithTheTransport := by
  intro s stage hs ha
  rw [exec_init_outside hs, initSequence, transportInit_of_failure (s := beginCommand s) ha]
  simp [raise, endMinusOne, BlockError.events, returnStatus, afterAnswer, beginCommand, statusMinusOne]

/-- The state after the adapter's init and RDID, both answered as scripted. -/
def identified (s : State) (id : Ident) (rest : List Answer) : State :=
  { s with
    session.transportUp := true
    useq := s.useq + 1
    script := rest
    draws := s.draws + 2
    trace := s.trace ++
      [.transportInit true, .xfer [s.cfg.opRdid] 3 (some [id.manufacturer, id.memoryType, id.capacity])] }

/-- A scripted identity of three bytes is the identity that RDID reads. -/
theorem readId_of_script {s : State} {id : Ident} {rest : List Answer}
    (h : s.script = .ok [id.manufacturer, id.memoryType, id.capacity] :: rest) :
    readId s = .ok id (afterXfer [s.cfg.opRdid] 3 s) ∧
      answer s 3 = some [id.manufacturer, id.memoryType, id.capacity] := by
  have ha : answer s 3 = some [id.manufacturer, id.memoryType, id.capacity] := by
    rw [answer, h]
    exact congrArg some (fitBytes_exact rfl)
  refine ⟨?_, ha⟩
  rw [readId, xfer, ha]
  rfl

/-- Steps 3 and 4 of INIT with both answers scripted (44_init_exit.md R146, R147). -/
theorem initSequence_of_script {s : State} {id : Ident} {ack : List Byte} {rest : List Answer}
    (h : s.script = .ok ack :: .ok [id.manufacturer, id.memoryType, id.capacity] :: rest) :
    initSequence s =
      if id.manufacturer = 0x00#8 then raise (.identity id) (identified s id rest)
      else configure id { identified s id rest with session.id := some id } := by
  have hok : initAnswer s = true := by rw [initAnswer, h]
  rw [initSequence, transportInit_of_success hok, res_bind_ok, probe]
  generalize hu : ({ afterAnswer s with trace := s.trace ++ [.transportInit true], session.transportUp := true } :
    State) = u
  have hscript : u.script = .ok [id.manufacturer, id.memoryType, id.capacity] :: rest := by
    rw [← hu]
    exact congrArg List.tail h
  obtain ⟨hread, hanswer⟩ := readId_of_script hscript
  have hstate : afterXfer [u.cfg.opRdid] 3 u = identified s id rest := by
    rw [afterXfer, hanswer, afterAnswer, hscript, ← hu]
    simp [identified, afterAnswer]
  rw [hread, res_bind_ok, hstate]
  split <;> rfl

/-- Settles O40: a zero manufacturer byte raises at step 4. -/
theorem initFailsWithoutAChip : Obligations.InitFailsWithoutAChip := by
  intro s stage rest ack ty cap hs hscript
  have hseq := initSequence_of_script (s := beginCommand s) (id := ⟨0x00#8, ty, cap⟩) hscript
  rw [exec_init_outside hs, hseq, if_pos rfl]
  rfl

/-! ### The candidates of step 5 -/

theorem chooseWidth_of_unrecognised {s : State} (h : reqOp s.cfg s.bootCfg = none) :
    chooseWidth s = ((s.cfg.opRead, .three), s) := by
  rw [chooseWidth, h]

theorem chooseWidth_of_small {s : State} {rq : Byte} (h : reqOp s.cfg s.bootCfg = some rq)
    (hb : ∀ b, s.bootCfg = some b → b.flashSize ≤ sizeThreshold) :
    chooseWidth s = ((down s.cfg rq, .three), s) := by
  rw [chooseWidth, h]
  cases hcfg : s.bootCfg with
  | none => rfl
  | some b => exact if_neg (Nat.not_lt.mpr (hb b hcfg))

theorem chooseWidth_of_large {s : State} {rq : Byte} {b : BootCfg} (h : reqOp s.cfg s.bootCfg = some rq)
    (hb : s.bootCfg = some b) (hsize : sizeThreshold < b.flashSize) :
    chooseWidth s = (if (negotiate4B .enter s).1 then (up s.cfg rq, .four) else (down s.cfg rq, .three),
      (negotiate4B .enter s).2) := by
  rw [chooseWidth, h]
  simp only [hb, gt_iff_lt, hsize, if_true]
  cases hn : negotiate4B .enter s with
  | mk ok t => cases ok <;> rfl

/-- An opcode is requested exactly when the mode is recognised (42_frame_composer.md R118). -/
theorem reqOp_eq_none_iff {c : Config} {b : BootCfg} : reqOp c (some b) = none ↔ b.readMode = .other := by
  unfold reqOp
  cases hmode : b.readMode <;> simp [hmode]

/-! ### Distinct opcodes -/

theorem down_opFast {c : Config} (hc : opcodesDistinct c) : down c c.opFast = c.opFast :=
  down_of_not_mem fun h4 => (nodup_ops_by_width hc).2.2 (by simp [threeByteOps]) h4

theorem down_opQuad {c : Config} (hc : opcodesDistinct c) : down c c.opQuad = c.opQuad :=
  down_of_not_mem fun h4 => (nodup_ops_by_width hc).2.2 (by simp [threeByteOps]) h4

theorem quadCapable_iff {c : Config} {op : Byte} : quadCapable c op = true ↔ op = c.opQuad ∨ op = c.opQuad4 := by
  simp [quadCapable]

theorem not_quadCapable_opFast {c : Config} (hc : opcodesDistinct c) : quadCapable c c.opFast = false := by
  have hnd := nodup_recognisedReadOps hc
  simp only [recognisedReadOps, List.nodup_cons, List.mem_cons, not_or] at hnd
  obtain ⟨⟨-, -, -, hquad, hquad4, -⟩, -⟩ := hnd
  rw [Bool.eq_false_iff]
  exact fun h => (quadCapable_iff.mp h).elim hquad hquad4

theorem overrideOp_of_plain {c : Config} {id : Ident} {op : Byte} (hfast : id ≠ quirkFastId)
    (hquad : id ≠ quirkQuadId) : overrideOp c id op = op := by
  rw [overrideOp, if_neg hfast, if_neg hquad]

/-- Settles O41: no boot configuration asks for the fast read at THREE, which needs no quad enable. -/
theorem initDefaultsToFastReadAtThree : Obligations.InitDefaultsToFastReadAtThree := by
  intro s stage rest ack id hc hs hb hscript hm hfast hquad
  have hseq := initSequence_of_script (s := beginCommand s) hscript
  rw [exec_init_outside hs, hseq, if_neg hm, configure]
  generalize hu : ({ identified (beginCommand s) id rest with session.id := some id } : State) = u
  have hcfg : u.cfg = s.cfg := by rw [← hu]; rfl
  have hboot : u.bootCfg = none := by rw [← hu]; exact hb
  have hreq : reqOp u.cfg u.bootCfg = some u.cfg.opFast := by rw [hboot]; rfl
  have hchoice : chooseWidth u = ((u.cfg.opFast, .three), u) := by
    rw [chooseWidth_of_small hreq (by simp [hboot]), down_opFast (hcfg ▸ hc)]
  simp only [hchoice, overrideOp_of_plain hfast hquad, enableQuad, not_quadCapable_opFast (hcfg ▸ hc),
    Bool.false_eq_true, if_false, res_bind_ok, endMinusOne]
  rw [← hu]
  rfl

theorem strategyOf_unsupported {c : Config} {m : Byte} (h : m ∉ c.setQmx ++ c.setQgd ++ c.setQsp) :
    strategyOf c m = .unsupported := by
  simp only [List.mem_append, not_or] at h
  obtain ⟨⟨hmx, hgd⟩, hsp⟩ := h
  rw [strategyOf, if_neg hmx, if_neg hgd, if_neg hsp]

/-- Settles O42: the quad opcode is the candidate, and its enable raises before the commit. -/
theorem initFailsWithoutAQuadStrategy : Obligations.InitFailsWithoutAQuadStrategy := by
  intro s stage rest ack id size hc hs hb hsize hscript hm hfast hset
  have hseq := initSequence_of_script (s := beginCommand s) hscript
  rw [exec_init_outside hs, hseq, if_neg hm, configure]
  generalize hu : ({ identified (beginCommand s) id rest with session.id := some id } : State) = u
  have hcfg : u.cfg = s.cfg := by rw [← hu]; rfl
  have hboot : u.bootCfg = some ⟨.quad, size⟩ := by rw [← hu]; exact hb
  have hreq : reqOp u.cfg u.bootCfg = some u.cfg.opQuad := by rw [hboot]; rfl
  have hsmall : ∀ b, u.bootCfg = some b → b.flashSize ≤ sizeThreshold := by
    intro b hb'
    cases hboot.symm.trans hb'
    exact hsize
  have hchoice : chooseWidth u = ((u.cfg.opQuad, .three), u) := by
    rw [chooseWidth_of_small hreq hsmall, down_opQuad (hcfg ▸ hc)]
  have hop : overrideOp u.cfg id u.cfg.opQuad = u.cfg.opQuad := (if_neg hfast).trans (ite_self _)
  have hquad : quadEnable id u = raise (.quirk .noQuirk) u := by
    rw [quadEnable, strategyOf_unsupported (hcfg ▸ hset)]
  simp only [hchoice, hop, enableQuad, quadCapable_iff.mpr (.inl rfl), if_true, hquad]
  rw [← hu]
  rfl

/-! ### The two ends of INIT -/

/-- Outside a session INIT returns 0 after a commit and -1 otherwise. -/
theorem exec_init_ends {s : State} (hs : s.session.initialized = false) (stage : Word) :
    ∃ u, (exec (.init stage) s = .next (returnStatus statusOk u) ∧ Committed (beginCommand s) u) ∨
      (exec (.init stage) s = .next (returnStatus statusMinusOne u) ∧ Abandoned (beginCommand s) u) := by
  rw [exec_init_outside hs]
  rcases initSequence_spec (beginCommand s) with ⟨u, hseq, hu⟩ | ⟨e, u, hseq, hu⟩ <;> rw [hseq]
  · exact ⟨u, .inl ⟨rfl, hu⟩⟩
  · exact ⟨u, .inr ⟨rfl, hu⟩⟩

/-- The choice of a committed session, with the width as a flag. -/
theorem committed_choice_by_width {s t : State} (h : Committed s t) :
    ∃ (id : Ident) (four : Bool) (op : Byte), t.session.id = some id ∧ id.manufacturer ≠ 0x00#8 ∧
      t.session.addrWidth = (if four then .four else .three) ∧ t.session.readOp = overrideOp s.cfg id op ∧
      ((reqOp s.cfg s.bootCfg = none ∧ four = false ∧ op = s.cfg.opRead) ∨
       ∃ rq, reqOp s.cfg s.bootCfg = some rq ∧ op = if four then up s.cfg rq else down s.cfg rq) := by
  obtain ⟨id, op, hid, hm, hop, ⟨hreq, hslow, hw⟩ | ⟨rq, hreq, ⟨hdown, hw⟩ | ⟨hup, hw⟩⟩⟩ := h.choice
  · exact ⟨id, false, op, hid, hm, hw, hop, .inl ⟨hreq, rfl, hslow⟩⟩
  · exact ⟨id, false, op, hid, hm, hw, hop, .inr ⟨rq, hreq, hdown⟩⟩
  · exact ⟨id, true, op, hid, hm, hw, hop, .inr ⟨rq, hreq, hup⟩⟩

theorem returnStatus_of_initOnly {s u : State} (v : Word) (h : InitOnly (beginCommand s) u) :
    returnStatus v u = { s with
      session := u.session, useq := u.useq, diag := u.diag, trace := u.trace, script := u.script, draws := u.draws
      hpc := s.hpc + 1, statuses := s.statuses ++ [v] } := by
  conv_lhs => rw [h.frame]
  rfl

/-- Settles O43: the two ends of INIT, with the three fields of step 8 in each. -/
theorem initCommitsTogetherOrNotAtAll : Obligations.InitCommitsTogetherOrNotAtAll := by
  intro s stage hs
  obtain ⟨u, ⟨hexec, hu⟩ | ⟨hexec, hu⟩⟩ := exec_init_ends hs stage
  all_goals
    have hframe := fun v => returnStatus_of_initOnly v hu.only
    rw [hframe] at hexec
    refine ⟨_, hexec, rfl, hu.unlocked, ?_⟩
  · have hchoice := committed_choice_by_width hu
    exact .inl ⟨rfl, hu.initialized, hu.transportUp, hchoice⟩
  · exact .inr ⟨rfl, hu.initialized.trans hs, hu.readOp, hu.addrWidth⟩

/-- An INIT that ends in a session ran its sequence to the normal end. -/
theorem initSequence_of_exec_init {s t : State} {stage : Word} (hs : s.session.initialized = false)
    (h : exec (.init stage) s = .next t) (ht : t.session.initialized = true) :
    ∃ u, initSequence (beginCommand s) = .ok () u ∧ t = returnStatus statusOk u := by
  cases (exec_init_outside hs stage).symm.trans h
  rcases initSequence_spec (beginCommand s) with ⟨u, hseq, -⟩ | ⟨e, u, hseq, hu⟩ <;> rw [hseq] at ht ⊢
  · exact ⟨u, rfl, rfl⟩
  · have hinit : u.session.initialized = false := hu.initialized.trans hs
    cases hinit.symm.trans ht

/-! ### What the committed width rests on -/

/-- The candidate opcode of step 5 at the width that `four` says: the slow read when no mode was recognised, else the
requested opcode normalised (44_init_exit.md R148). -/
def candidateOp (c : Config) (requested : Option Byte) (four : Bool) : Byte :=
  match requested with
  | none => c.opRead
  | some rq => if four then up c rq else down c rq

/-- Step 5 with the width as a flag: FOUR is asked for and confirmed by the last two transactions; where it was asked
for in vain the failure is the last thing logged (44_init_exit.md R148, R149). -/
structure WidthChosen (s : State) (four : Bool) : Prop where
  width : (chooseWidth s).1.2 = if four then .four else .three
  op : (chooseWidth s).1.1 = candidateOp s.cfg (reqOp s.cfg s.bootCfg) four
  confirmed : four = true → ∃ b cr, s.bootCfg = some b ∧ 16 < b.flashSize ∧ b.readMode ≠ .other ∧ cr.getLsbD 5 = true ∧
    (chooseWidth s).2.trace =
      s.trace ++ [Event.xfer [0xB7#8] 0 (some []), Event.xfer [s.cfg.opRdcr] 1 (some [cr])]
  logged : four = false → ∀ b, s.bootCfg = some b → 16 < b.flashSize → b.readMode ≠ .other →
    ∃ info, (chooseWidth s).2.diag = s.diag ++ [⟨.addressingNegotiation, info⟩]

/-- The negotiation succeeds after CR showed the bit, and fails with a diagnostic. -/
theorem negotiate4B_enter (s : State) :
    ((negotiate4B .enter s).1 = true ∧ ∃ cr, cr.getLsbD 5 = true ∧ (negotiate4B .enter s).2.trace =
      s.trace ++ [Event.xfer [0xB7#8] 0 (some []), Event.xfer [s.cfg.opRdcr] 1 (some [cr])]) ∨
    ((negotiate4B .enter s).1 = false ∧
      ∃ info, (negotiate4B .enter s).2.diag = s.diag ++ [⟨.addressingNegotiation, info⟩]) := by
  obtain ⟨-, evs, hran, ⟨⟨hfail, hdiag⟩, -⟩ | ⟨cr, rfl, hend⟩⟩ := negotiationReflectsCrBitFive .enter s
  · exact .inr ⟨hfail, _, hdiag⟩
  · split at hend
    · next hbit => exact .inl ⟨hend.1, cr, by simpa using hbit, hran.trace⟩
    · exact .inr ⟨hend.1, _, hend.2⟩

theorem chooseWidth_chosen (s : State) : ∃ four, WidthChosen s four := by
  cases hreq : reqOp s.cfg s.bootCfg with
  | none =>
    have heq := chooseWidth_of_unrecognised hreq
    refine ⟨false, by rw [heq]; rfl, by rw [heq, hreq]; rfl, fun h => (nomatch h), fun _ b hb _ hmode => ?_⟩
    rw [hb] at hreq
    exact absurd (reqOp_eq_none_iff.mp hreq) hmode
  | some rq =>
    by_cases hlarge : ∃ b, s.bootCfg = some b ∧ sizeThreshold < b.flashSize
    · obtain ⟨b, hb, hsize⟩ := hlarge
      have heq := chooseWidth_of_large hreq hb hsize
      have hmode : b.readMode ≠ .other := fun hother => by
        rw [hb, reqOp_eq_none_iff.mpr hother] at hreq
        cases hreq
      rcases negotiate4B_enter s with ⟨hok, cr, hbit, htrace⟩ | ⟨hfail, info, hdiag⟩
      · rw [if_pos hok] at heq
        exact ⟨true, by rw [heq]; rfl, by rw [heq, hreq]; rfl,
          fun _ => ⟨b, cr, hb, hsize, hmode, hbit, by rw [heq, htrace]⟩, fun h => (nomatch h)⟩
      · rw [if_neg (by simp [hfail])] at heq
        exact ⟨false, by rw [heq]; rfl, by rw [heq, hreq]; rfl, fun h => (nomatch h), fun _ _ _ _ _ =>
          ⟨info, by rw [heq, hdiag]⟩⟩
    · have heq := chooseWidth_of_small hreq fun b hb => Nat.not_lt.mp fun hsize => hlarge ⟨b, hb, hsize⟩
      exact ⟨false, by rw [heq]; rfl, by rw [heq, hreq]; rfl, fun h => (nomatch h), fun _ b hb hsize _ =>
        absurd ⟨b, hb, hsize⟩ hlarge⟩

/-- Settles O44: the steps of a normal end, with step 5 by its width. -/
theorem initCommitsTheNegotiatedReadMode : Obligations.InitCommitsTheNegotiatedReadMode := by
  intro s t stage hs h ht
  obtain ⟨u, hseq, rfl⟩ := initSequence_of_exec_init hs h ht
  obtain ⟨id, p, v, hm, hprobe, hsession, -, hport, ⟨evs, hran⟩, hdiag, rfl⟩ := initSequence_path hseq
  have hcfg : p.cfg = s.cfg := by rw [hprobe.frame]; rfl
  have hboot : p.bootCfg = s.bootCfg := by rw [hprobe.frame]; rfl
  obtain ⟨evsP, hranP⟩ := hprobe.asked
  obtain ⟨diagP, hdiagP⟩ := hprobe.diag
  have htrace : p.trace = s.trace ++ evsP := hranP.trace
  have hdiagP : p.diag = s.diag ++ diagP := hdiagP.symm
  obtain ⟨four, hwidth, hop, hconfirmed, hlogged⟩ := chooseWidth_chosen p
  rw [hcfg, hboot] at hop
  rw [hcfg, hboot] at hconfirmed
  rw [hboot] at hlogged
  have hid : v.session.id = some id := by
    rw [portOnly_session hport, portOnly_session (chooseWidth_spec p).1, hsession]
  refine ⟨id, four, hid, hm, hwidth, ?_, fun h4 => ?_, fun h3 b hb hsize hmode => ?_⟩
  · exact congrArg (overrideOp s.cfg id) hop
  · obtain ⟨b, cr, hb, hsize, hmode, hbit, hevents⟩ := hconfirmed h4
    refine ⟨b, cr, hb, hsize, hmode, hbit, evsP, evs, ?_⟩
    have hall : v.trace = s.trace ++ (evsP ++
        [Event.xfer [0xB7#8] 0 (some []), Event.xfer [s.cfg.opRdcr] 1 (some [cr])] ++ evs) := by
      rw [hran.trace, hevents, htrace]
      simp only [List.append_assoc]
    change _ = v.trace.drop s.trace.length
    rw [hall, List.drop_left]
  · obtain ⟨info, hinfo⟩ := hlogged h3 b hb hsize hmode
    refine ⟨info, ?_⟩
    have hall : v.diag = s.diag ++ (diagP ++ [⟨.addressingNegotiation, info⟩]) := by
      rw [hdiag, hinfo, hdiagP, List.append_assoc]
    change _ ∈ v.diag.drop s.diag.length
    rw [hall, List.drop_left]
    simp

/-! ### What a committed quad opcode rests on -/

theorem strategyOf_cases (c : Config) (m : Byte) :
    (strategyOf c m = .macronix ∧ m ∈ c.setQmx) ∨ (strategyOf c m = .gigaDevice ∧ m ∉ c.setQmx ∧ m ∈ c.setQgd) ∨
      (strategyOf c m = .spansion ∧ m ∉ c.setQmx ∧ m ∉ c.setQgd ∧ m ∈ c.setQsp) ∨ strategyOf c m = .unsupported := by
  unfold strategyOf
  split_ifs <;> simp [*]

/-- The last event of `SetQe`'s normal end is a read of the register with the bit set. -/
theorem setQe_ok_getLast {sel : RegSel} {k : Fin 8} {s t : State} (h : setQe sel k s = .ok () t) :
    ∃ v, bitIsSet v k = true ∧ t.trace.getLast? = some (registerRead s.cfg sel v) := by
  obtain ⟨evs, v, hbit, htrace⟩ := setQe_ok h
  exact ⟨v, hbit, by rw [htrace, List.getLast?_concat]; rfl⟩

/-- Quad enable ends normally by its strategy's verified write, or for a volatile-QE variant of Macronix
(41_quirk_unlock.md R90 to R94). -/
theorem quadEnable_ok {id : Ident} {s t : State} (h : quadEnable id s = .ok () t) :
    (id.manufacturer ∈ s.cfg.setQmx ∧
        (id ∈ s.cfg.mxVolatileQe ∨
          ∃ v, bitIsSet v s.cfg.sr1QeBit = true ∧ t.trace.getLast? = some (registerRead s.cfg .sr1 v))) ∨
     (id.manufacturer ∉ s.cfg.setQmx ∧ id.manufacturer ∈ s.cfg.setQgd ∧
        ∃ v, bitIsSet v s.cfg.sr2QeBit = true ∧ t.trace.getLast? = some (registerRead s.cfg .sr2 v)) ∨
     (id.manufacturer ∉ s.cfg.setQmx ∧ id.manufacturer ∉ s.cfg.setQgd ∧ id.manufacturer ∈ s.cfg.setQsp ∧
        ∃ v, bitIsSet v s.cfg.crQeBit = true ∧ t.trace.getLast? = some (registerRead s.cfg .cr v)) := by
  unfold quadEnable at h
  rcases strategyOf_cases s.cfg id.manufacturer with ⟨hst, hmx⟩ | ⟨hst, hmx, hgd⟩ | ⟨hst, hmx, hgd, hsp⟩ | hst <;>
    rw [hst] at h
  · refine .inl ⟨hmx, ?_⟩
    rcases ite_cases h with ⟨hvolatile, -⟩ | h
    · exact .inl hvolatile
    · exact .inr (setQe_ok_getLast h)
  · exact .inr (.inl ⟨hmx, hgd, setQe_ok_getLast h⟩)
  · exact .inr (.inr ⟨hmx, hgd, hsp, setQe_ok_getLast h⟩)
  · cases h

/-- Settles O45: the committed opcode is the one that step 7 looked at, and the commit issues nothing after it. -/
theorem quadOpcodeOnlyAfterVerifiedEnable : Obligations.QuadOpcodeOnlyAfterVerifiedEnable := by
  intro s t stage hs h ht hquad
  obtain ⟨u, hseq, rfl⟩ := initSequence_of_exec_init hs h ht
  obtain ⟨id, p, v, -, hprobe, hsession, henable, hport, -, -, rfl⟩ := initSequence_path hseq
  have hportC := (chooseWidth_spec p).1
  have hcfg : (chooseWidth p).2.cfg = s.cfg := by rw [portOnly_cfg hportC, hprobe.frame]; rfl
  have hid : v.session.id = some id := by
    rw [portOnly_session hport, portOnly_session hportC, hsession]
  have hcapable : quadCapable (chooseWidth p).2.cfg
      (overrideOp (beginCommand s).cfg id (chooseWidth p).1.1) = true := hcfg ▸ hquad
  rw [enableQuad, if_pos hcapable] at henable
  have hends := quadEnable_ok henable
  rw [hcfg] at hends
  exact ⟨id, hid, hends⟩

end Sys2Proof.Machine

/-! Quad enable and the unlock engine (41_quirk_unlock.md): `SetQe`, and UNLOCK for each class of manufacturer. -/

namespace Sys2Proof.Machine

/-! ### SetQe -/

theorem res_eq_of_endedBy (r : Res Unit) :
    r = (match endedBy r with | none => .ok () r.state | some e => .raised e r.state) := by
  cases r <;> rfl

/-- Settles O47: `SetQe` is contained, and goes as its relation says. -/
theorem quadEnableVerifiesItsWrite : Obligations.QuadEnableVerifiesItsWrite := by
  intro sel k s
  obtain ⟨hport, hasked, hlogs⟩ := contained_setQe sel k s
  obtain ⟨evs, htrace, hends⟩ := goes_setQe sel k s
  exact ⟨_, _, evs, res_eq_of_endedBy _, hport, hlogs, portRan_of_trace hasked htrace, hends⟩

/-! ### How the pieces of the unlock engine combine -/

/-- A piece that does nothing and ends normally. -/
def Skips (o : Option BlockError) (evs : List Event) : Prop := o = none ∧ evs = []

theorem inTurn_mono {A A' B : Option BlockError → List Event → Prop} (hA : ∀ o evs, A o evs → A' o evs)
    {o : Option BlockError} {evs : List Event} (h : InTurn A B o evs) : InTurn A' B o evs := by
  rcases h with ⟨ho, h⟩ | ⟨evs1, evs2, h1, h2, rfl⟩
  · exact .inl ⟨ho, hA _ _ h⟩
  · exact .inr ⟨evs1, evs2, hA _ _ h1, h2, rfl⟩

/-- A skipped piece leaves the next. -/
theorem inTurn_skips {B : Option BlockError → List Event → Prop} {o : Option BlockError} {evs : List Event}
    (h : InTurn Skips B o evs) : B o evs := by
  rcases h with ⟨ho, rfl, -⟩ | ⟨evs1, evs2, ⟨-, rfl⟩, h2, rfl⟩
  · exact absurd rfl ho
  · exact h2

/-- A piece logs nothing, or it is a TimeoutError at the end of a ready-poll that spent its budget. -/
def LogsAtMostTimeout (c : Config) (o : Option BlockError) (evs : List Event) : Prop :=
  endEvents o = [] ∨ o = some .timeout ∧ ∃ before busy, busy.length = pollBudget ∧ BusyBytes c busy ∧
    evs = before ++ busy.map (statusRead c)

/-- Events before a piece do not change how it ends. -/
theorem logsAtMostTimeout_append {c : Config} {o : Option BlockError} {evs : List Event}
    (h : LogsAtMostTimeout c o evs) (first : List Event) : LogsAtMostTimeout c o (first ++ evs) := by
  rcases h with h | ⟨ho, before, busy, hlen, hbusy, rfl⟩
  · exact .inl h
  · exact .inr ⟨ho, first ++ before, busy, hlen, hbusy, (List.append_assoc _ _ _).symm⟩

theorem logsAtMostTimeout_inTurn {c : Config} {A B : Option BlockError → List Event → Prop}
    (hA : ∀ o evs, A o evs → LogsAtMostTimeout c o evs) (hB : ∀ o evs, B o evs → LogsAtMostTimeout c o evs) :
    ∀ o evs, InTurn A B o evs → LogsAtMostTimeout c o evs := by
  rintro o evs (⟨-, h⟩ | ⟨evs1, evs2, -, h2, rfl⟩)
  · exact hA _ _ h
  · exact logsAtMostTimeout_append (hB _ _ h2) evs1

theorem logsAtMostTimeout_readThen {c : Config} {sel : RegSel} {next : Byte → Option BlockError → List Event → Prop}
    (h : ∀ v o evs, next v o evs → LogsAtMostTimeout c o evs) :
    ∀ o evs, ReadThen c sel next o evs → LogsAtMostTimeout c o evs := by
  rintro o evs (⟨rfl, -⟩ | ⟨v, rest, rfl, hnext⟩)
  · exact .inl rfl
  · exact logsAtMostTimeout_append (h v o rest hnext) [_]

theorem logsAtMostTimeout_writeEnds {c : Config} {tx : List Byte} :
    ∀ o evs, WriteEnds c tx o evs → LogsAtMostTimeout c o evs := by
  intro o evs h
  cases o with
  | none => exact .inl rfl
  | some e =>
    rcases h with ⟨rfl, -⟩ | ⟨rfl, -⟩ | ⟨p, ⟨busy, hbusy, ⟨rfl, -, -⟩ | ⟨rfl, hlen, rfl⟩⟩, rfl⟩
    · exact .inl rfl
    · exact .inl rfl
    · exact .inl rfl
    · exact .inr ⟨rfl, [_, _], busy, hlen, hbusy, rfl⟩

theorem logsAtMostTimeout_cmpClear {c : Config} : ∀ o evs, CmpClearEnds c o evs → LogsAtMostTimeout c o evs := by
  refine logsAtMostTimeout_readThen fun s2 o evs h => ?_
  rcases ite_prop_iff_or.mp h with ⟨-, h⟩ | ⟨-, rfl, -⟩
  · exact logsAtMostTimeout_readThen (fun _ => logsAtMostTimeout_writeEnds) _ _ h
  · exact .inl rfl

theorem logsAtMostTimeout_sr1Clear {c : Config} {m : Byte} :
    ∀ o evs, Sr1ClearEnds c m o evs → LogsAtMostTimeout c o evs := by
  intro o evs h
  rcases ite_prop_iff_or.mp h with ⟨-, h⟩ | ⟨-, h⟩
  · exact logsAtMostTimeout_readThen (fun _ => logsAtMostTimeout_writeEnds) _ _ h
  · exact logsAtMostTimeout_writeEnds _ _ h

/-- The extended path polls nothing, so it logs nothing. -/
theorem endEvents_of_extended {c : Config} {m : Byte} {o : Option BlockError} {evs : List Event}
    (h : ExtendedEnds c m o evs) : endEvents o = [] := by
  rcases ite_prop_iff_or.mp h with ⟨-, ⟨rfl, -⟩ | ⟨rfl, -⟩⟩ | ⟨-, rfl, -⟩ <;> rfl

/-- How the body of the unlock engine goes (41_quirk_unlock.md R102 to R104). -/
def UnlockBodyEnds (c : Config) (m : Byte) : Option BlockError → List Event → Prop :=
  InTurn (fun o evs =>
    if m ∈ c.setLocked then
      InTurn (fun o evs => if m ∈ c.setGd then CmpClearEnds c o evs else Skips o evs) (Sr1ClearEnds c m) o evs
    else Skips o evs) (ExtendedEnds c m)

theorem logsAtMostTimeout_unlockBody {c : Config} {m : Byte} :
    ∀ o evs, UnlockBodyEnds c m o evs → LogsAtMostTimeout c o evs := by
  have skips : ∀ o evs, Skips o evs → LogsAtMostTimeout c o evs := fun _ _ h => .inl (congrArg endEvents h.1)
  refine logsAtMostTimeout_inTurn (fun o evs h => ?_) fun _ _ h => .inl (endEvents_of_extended h)
  rcases ite_prop_iff_or.mp h with ⟨-, h⟩ | ⟨-, h⟩
  · refine logsAtMostTimeout_inTurn (fun o evs h => ?_) logsAtMostTimeout_sr1Clear o evs h
    rcases ite_prop_iff_or.mp h with ⟨-, h⟩ | ⟨-, h⟩
    · exact logsAtMostTimeout_cmpClear o evs h
    · exact skips o evs h
  · exact skips o evs h

/-! ### UNLOCK -/

theorem unlockEngine_of_unlocked {s : State} (hs : s.session.unlocked = true) :
    unlockEngine (beginCommand s) = some (beginCommand s) :=
  if_pos hs

theorem unlockEngine_of_locked {s : State} {id : Ident} (hs : s.session.unlocked = false)
    (hid : s.session.id = some id) :
    unlockEngine (beginCommand s) = some (unlockRun id.manufacturer (beginCommand s)) := by
  rw [unlockEngine, if_neg (by simp [hs]), beginCommand_session, hid]
  rfl

/-- The engine can run in an unlocked session and over an identity. -/
theorem unlockEngine_exists {s : State} (h : s.session.unlocked = true ∨ s.session.id ≠ none) :
    ∃ u, unlockEngine (beginCommand s) = some u := by
  cases hlock : s.session.unlocked with
  | true => exact ⟨_, unlockEngine_of_unlocked hlock⟩
  | false =>
    obtain ⟨id, hid⟩ := Option.ne_none_iff_exists'.mp (h.resolve_left (by simp [hlock]))
    exact ⟨_, unlockEngine_of_locked hlock hid⟩

/-- One run of the engine over an identity: its transactions, its end and its log. -/
theorem unlockRun_ran (m : Byte) (s : State) :
    ∃ o evs, PortRan 0 s (unlockRun m s) evs ∧ (unlockRun m s).diag = s.diag ++ endEvents o ∧
      UnlockBodyEnds s.cfg m o evs := by
  obtain ⟨evs, htrace, hends⟩ := goes_unlockBody m { s with session.unlocked := true }
  exact ⟨_, evs, portRan_of_trace (unlockRun_spec m s).2 htrace, (contained_unlockBody m _).logs, hends⟩

/-- The port's part of a command does not see its start and its end. -/
theorem portRan_command {k : Nat} {s u : State} {v : Word} {evs : List Event} (h : PortRan k (beginCommand s) u evs) :
    PortRan k s (returnStatus v u) evs :=
  portRan_congr h rfl rfl rfl rfl rfl rfl

/-- After the engine: the flag set, and what transactions touch. -/
theorem unlockEngine_frame {s u : State} (h : unlockEngine (beginCommand s) = some u) : u = { s with
    session := { s.session with unlocked := true }
    useq := u.useq, diag := u.diag, trace := u.trace, script := u.script, draws := u.draws } := by
  have hport := (unlockEngine_spec h).1
  exact hport

/-- The engine logs nothing, or one TimeoutError at the end of a ready-poll that spent its budget. -/
theorem unlockEngine_logs {s u : State} (h : unlockEngine (beginCommand s) = some u) :
    ∃ o evs, PortRan 0 (beginCommand s) u evs ∧ u.diag = s.diag ++ endEvents o ∧ LogsAtMostTimeout s.cfg o evs := by
  rcases unlockEngine_some h with ⟨-, rfl⟩ | ⟨-, id, -, rfl⟩
  · exact ⟨none, [], portRan_refl _, (List.append_nil _).symm, .inl rfl⟩
  · obtain ⟨o, evs, hran, hdiag, hends⟩ := unlockRun_ran id.manufacturer (beginCommand s)
    exact ⟨o, evs, hran, hdiag, logsAtMostTimeout_unlockBody o evs hends⟩

/-- Settles O48: UNLOCK is the engine and status 0, and the engine's log is that of its last ready-poll. -/
theorem unlockAlwaysReturnsZero : Obligations.UnlockAlwaysReturnsZero := by
  intro s hs hrun
  obtain ⟨u, hu⟩ := unlockEngine_exists hrun
  obtain ⟨o, evs, hran, hdiag, hlogs⟩ := unlockEngine_logs hu
  have hframe := unlockEngine_frame hu
  have hreturn : returnStatus statusOk u = { u with hpc := s.hpc + 1, statuses := s.statuses ++ [0#32] } := by
    rw [hframe]
    rfl
  refine ⟨u, returnStatus statusOk u, evs, hu, hreturn, exec_unlock_of_engine hs hu, ?_, portRan_command hran, ?_⟩
  · conv_lhs => rw [hframe]
    rfl
  · rcases hlogs with hnone | ⟨rfl, hpoll⟩
    · exact .inl (hdiag.trans (by rw [hnone, List.append_nil]))
    · exact .inr ⟨hdiag, hpoll⟩

/-- Settles O49: the engine sets the flag it looks at. -/
theorem unlockRunsItsBodyOnce : Obligations.UnlockRunsItsBodyOnce := by
  have again : ∀ s : State, s.session.initialized = true → s.session.unlocked = true →
      exec .unlock s = .next (returned 0#32 s) :=
    fun s hs hun => exec_unlock_of_engine hs (unlockEngine_of_unlocked hun)
  refine ⟨again, fun s t h => ?_⟩
  obtain ⟨hs, u, hu, rfl⟩ := exec_unlock_next h
  have hsession := unlockEngine_session hu
  exact again _ (by rw [returnStatus_session, hsession]; exact hs) (by rw [returnStatus_session, hsession])

/-- The first UNLOCK of a session over an identity runs the engine's body once. -/
theorem exec_unlock_first {s : State} {id : Ident} (hs : s.session.initialized = true)
    (hlock : s.session.unlocked = false) (hid : s.session.id = some id) :
    ∃ t o evs, exec .unlock s = .next t ∧ PortRan 0 s t evs ∧ t.diag = s.diag ++ endEvents o ∧
      UnlockBodyEnds s.cfg id.manufacturer o evs := by
  obtain ⟨o, evs, hran, hdiag, hends⟩ := unlockRun_ran id.manufacturer (beginCommand s)
  exact ⟨_, o, evs, exec_unlock_of_engine hs (unlockEngine_of_locked hlock hid), portRan_command hran, hdiag, hends⟩

section
variable {c : Config} {m : Byte} {o : Option BlockError} {evs : List Event}

/-- Of a ships-locked GigaDevice byte: the CMP step, the SR1 write, the extended path. -/
theorem unlockBodyEnds_gigaDevice (hlocked : m ∈ c.setLocked) (hgd : m ∈ c.setGd) (h : UnlockBodyEnds c m o evs) :
    InTurn (InTurn (CmpClearEnds c) (Sr1ClearEnds c m)) (ExtendedEnds c m) o evs := by
  simpa only [UnlockBodyEnds, if_pos hlocked, if_pos hgd] using h

/-- Of a ships-locked byte that is not GigaDevice's: the SR1 write, the extended path. -/
theorem unlockBodyEnds_other (hlocked : m ∈ c.setLocked) (hgd : m ∉ c.setGd) (h : UnlockBodyEnds c m o evs) :
    InTurn (Sr1ClearEnds c m) (ExtendedEnds c m) o evs := by
  simp only [UnlockBodyEnds, if_pos hlocked, if_neg hgd] at h
  exact inTurn_mono (fun _ _ => inTurn_skips) h

/-- Outside the ships-locked set: the extended path. -/
theorem unlockBodyEnds_outside (hlocked : m ∉ c.setLocked) (h : UnlockBodyEnds c m o evs) : ExtendedEnds c m o evs := by
  simp only [UnlockBodyEnds, if_neg hlocked] at h
  exact inTurn_skips h

end

/-- Settles O50: the SR1 write of a byte that is not Macronix's is 0x00. -/
theorem unlockClearsStatusRegister : Obligations.UnlockClearsStatusRegister := by
  intro s id hs hlock hid hlocked hgd hmx
  obtain ⟨t, o, evs, hexec, hran, hdiag, hends⟩ := exec_unlock_first hs hlock hid
  refine ⟨t, o, evs, hexec, hran, hdiag, inTurn_mono (fun o evs h => ?_) (unlockBodyEnds_other hlocked hgd hends)⟩
  rwa [Sr1ClearEnds, if_neg hmx] at h

/-- Settles O51: the SR1 write of a Macronix byte reads SR1 and keeps its QE bit. -/
theorem unlockKeepsMacronixQuadEnable : Obligations.UnlockKeepsMacronixQuadEnable := by
  intro s id hs hlock hid hlocked hgd hmx
  obtain ⟨t, o, evs, hexec, hran, hdiag, hends⟩ := exec_unlock_first hs hlock hid
  refine ⟨t, o, evs, hexec, hran, hdiag, inTurn_mono (fun o evs h => ?_) (unlockBodyEnds_other hlocked hgd hends)⟩
  rwa [Sr1ClearEnds, if_pos hmx] at h

/-- Settles O52: the three pieces of a GigaDevice byte. -/
theorem unlockClearsGigaDeviceCmp : Obligations.UnlockClearsGigaDeviceCmp := by
  intro s id hs hlock hid hlocked hgd
  obtain ⟨t, o, evs, hexec, hran, hdiag, hends⟩ := exec_unlock_first hs hlock hid
  exact ⟨t, o, evs, hexec, hran, hdiag, unlockBodyEnds_gigaDevice hlocked hgd hends⟩

/-- Settles O53: the extended path alone, none of whose ends logs anything. -/
theorem unlockOutsideTheLockedSet : Obligations.UnlockOutsideTheLockedSet := by
  intro s id hs hlock hid hlocked
  obtain ⟨t, o, evs, hexec, hran, hdiag, hends⟩ := exec_unlock_first hs hlock hid
  have hext := unlockBodyEnds_outside hlocked hends
  refine ⟨t, evs, hexec, hran, by rw [hdiag, endEvents_of_extended hext, List.append_nil], ?_⟩
  unfold ExtendedEnds at hext
  split at hext
  · next hgate =>
    rw [if_pos hgate]
    rcases hext with ⟨-, hevs⟩ | ⟨-, hevs | hevs⟩
    · exact .inr (.inr hevs)
    · exact .inl hevs
    · exact .inr (.inl hevs)
  · next hgate =>
    rw [if_neg hgate]
    exact hext.2

end Sys2Proof.Machine

/-! READ, ERASE and WRITE in a session (43_data_path.md): empty requests, the ends of each, and where the block is
stuck. -/

namespace Sys2Proof.Machine

/-! ### Empty requests -/

theorem chunks_zero {size : Nat} (hsize : 0 < size) : chunks size 0 = [] := by
  rw [chunks_of_dvd hsize (Nat.dvd_zero size), Nat.zero_div]
  rfl

/-- Settles O55: with the flag set the engine does nothing, and an empty request has no chunk and no sector. -/
theorem emptyRequestsReturnZero : Obligations.EmptyRequestsReturnZero := by
  intro s a c b hs hun hc
  have hu := unlockEngine_of_unlocked hun
  have hlen : (byteLength c).toNat = 0 := congrArg BitVec.toNat hc
  refine ⟨?_, fun ha => ?_, ?_⟩
  · exact exec_read_of_some hs (by rw [hlen, chunks_zero (by decide)]; rfl)
  · have haligned : eraseAligned (byteOffset a) (byteLength c) = true := by
      rw [eraseAligned, byteOffset_toNat, hlen, eraseUnit, Bool.and_eq_true, decide_eq_true_eq, decide_eq_true_eq]
      omega
    rw [exec_erase_of_engine hs haligned hu, hlen]
    rfl
  · exact exec_write_of_some hs hu (by rw [hlen, program, chunks_zero (by decide)]; rfl)

/-! ### ERASE and WRITE: the unlock engine and then a run of write sequences -/

/-- A run of write sequences over `txs`, all completed or ended by the first error. -/
def WritesEnd (c : Config) (txs : List (List Byte)) (o : Option BlockError) (evs : List Event) : Prop :=
  match o with
  | none => WritesComplete c txs evs
  | some e => WritesFail c txs e evs

theorem goes_eraseSectors (as : List Word) (s : State) :
    Goes s (eraseSectors as s) (WritesEnd s.cfg (as.map fun a => s.cfg.opSe :: addr3 a)) := by
  cases h : eraseSectors as s with
  | ok x t => obtain ⟨-, -, evs, hw, ht⟩ := eraseSectors_ok as h; exact ⟨evs, ht, hw⟩
  | raised e t => obtain ⟨-, -, evs, hw, ht⟩ := eraseSectors_raised as h; exact ⟨evs, ht, hw⟩

theorem goes_programChunks (off : Word) (buf : Nat) {cs : List (Nat × Nat)} {s : State}
    (hr : ∀ p ∈ cs, RangeReadable s (buf + p.1) p.2) :
    ∃ r, programChunks off buf cs s = some r ∧ Goes s r (WritesEnd s.cfg (programFrames s off buf cs)) := by
  rcases programChunks_spec off buf cs hr with ⟨t, evs, hexec, -, -, ht, hw⟩ | ⟨e, t, evs, hexec, -, -, ht, hw⟩
  · exact ⟨_, hexec, evs, ht, hw⟩
  · exact ⟨_, hexec, evs, ht, hw⟩

/-- A draw of `FAIL_CODE` at the end of a command is one further value. -/
theorem portRan_returnFailCode {s u : State} {evs : List Event} (h : PortRan 0 s u evs) :
    PortRan 1 s (returnFailCode u) evs :=
  ⟨h.trace, h.answers, h.script, congrArg (· + 1) h.draws⟩

theorem portRan_returnStatus {k : Nat} {s u : State} {v : Word} {evs : List Event} (h : PortRan k s u evs) :
    PortRan k s (returnStatus v u) evs :=
  portRan_congr h rfl rfl rfl rfl rfl rfl

/-- How a command that ran the unlock engine to `u` and then write sequences over `txs` ended, from `s` in `t`
(43_data_path.md R132, R140, 60_exceptions.md R168). -/
def WriteCommandEnded (s u t : State) (txs : List (List Byte)) (evs : List Event) : Prop :=
  (t.statuses = s.statuses ++ [0#32] ∧ t.diag = u.diag ∧ PortRan 0 u t evs ∧ WritesComplete s.cfg txs evs) ∨
  (∃ e v, v ≠ 0#32 ∧ t.statuses = s.statuses ++ [v] ∧ t.diag = u.diag ++ e.events ∧ PortRan 1 u t evs ∧
    WritesFail s.cfg txs e evs)

section
variable {s u : State} {r : Res Unit} (hu : unlockEngine (beginCommand s) = some u) (hr : Contained u r)
include hu

/-- The engine keeps the parameters and everything else that a piece of the data path reads. -/
theorem unlockEngine_cfg : u.cfg = s.cfg := by rw [unlockEngine_frame hu]

theorem unlockEngine_mem : u.mem = s.mem := by rw [unlockEngine_frame hu]

theorem unlockEngine_statuses : u.statuses = s.statuses := by rw [unlockEngine_frame hu]

theorem unlockEngine_rangeReadable (a n : Nat) : RangeReadable u a n ↔ RangeReadable s a n := by
  have hbyte : ∀ x, hostReadable u x = hostReadable s x := fun x => hostReadable_portOnly (unlockEngine_spec hu).1 x
  simp only [RangeReadable, hbyte]

include hr

/-- After the engine and a contained sequence only the flag, the positions and what transactions touch changed. -/
theorem endFailCode_frame : endFailCode r = { s with
    session := { s.session with unlocked := true }
    useq := (endFailCode r).useq, diag := (endFailCode r).diag, trace := (endFailCode r).trace,
    script := (endFailCode r).script, draws := (endFailCode r).draws
    hpc := s.hpc + 1
    statuses := (endFailCode r).statuses } := by
  have hframe : r.state = { s with
      session := { s.session with unlocked := true }
      useq := r.state.useq, diag := r.state.diag, trace := r.state.trace, script := r.state.script,
      draws := r.state.draws } := by
    conv_lhs => rw [hr.port, unlockEngine_frame hu]
  cases r with
  | ok x t => rw [show t = _ from hframe]; rfl
  | raised e t => rw [show t = _ from hframe]; rfl

/-- The end of the command by the end of its write sequences. -/
theorem endFailCode_ended {txs : List (List Byte)} (hg : Goes u r (WritesEnd s.cfg txs)) :
    ∃ evs, WriteCommandEnded s u (endFailCode r) txs evs := by
  obtain ⟨evs, htrace, hends⟩ := hg
  have hran : PortRan 0 u r.state evs := portRan_of_trace hr.asked htrace
  have hstatuses : r.state.statuses = s.statuses :=
    (portOnly_statuses hr.port).trans (unlockEngine_statuses hu)
  have hlogs := hr.logs
  cases r with
  | ok x t =>
    exact ⟨evs, .inl ⟨congrArg (· ++ [statusOk]) hstatuses, hlogs.trans (List.append_nil _), portRan_returnStatus hran,
      hends⟩⟩
  | raised e t =>
    exact ⟨evs, .inr ⟨e, failCode t.draws, failCode_ne_zero _, congrArg (· ++ [failCode t.draws]) hstatuses, hlogs,
      portRan_returnFailCode hran, hends⟩⟩

end

/-- The engine's own part of the command. -/
theorem unlockEngine_ran {s u : State} (hu : unlockEngine (beginCommand s) = some u) :
    ∃ before, PortRan 0 s u before := by
  obtain ⟨before, hran⟩ := (unlockEngine_spec hu).2
  exact ⟨before, portRan_congr hran rfl rfl rfl rfl rfl rfl⟩

/-- Settles O56: the engine, and then the loop of sectors. -/
theorem eraseRunsSectorBySector : Obligations.EraseRunsSectorBySector := by
  intro s a c hs hrun ha hc
  obtain ⟨u, hu⟩ := unlockEngine_exists hrun
  have haligned : eraseAligned (byteOffset a) (byteLength c) = true := by
    rw [eraseAligned, Bool.and_eq_true, decide_eq_true_eq, decide_eq_true_eq]
    exact ⟨ha, hc⟩
  have hcontained := contained_eraseSectors (eraseOffsets (byteOffset a) (byteLength c).toNat) u
  have hgoes := goes_eraseSectors (eraseOffsets (byteOffset a) (byteLength c).toNat) u
  rw [unlockEngine_cfg hu, eraseOffsets, List.map_map] at hgoes
  obtain ⟨evs, hended⟩ := endFailCode_ended hu hcontained hgoes
  exact ⟨u, _, evs, hu, exec_erase_of_engine hs haligned hu, unlockEngine_ran hu, endFailCode_frame hu hcontained,
    hended⟩

/-- A chunk ends inside the request. -/
theorem chunks_end_le {size len : Nat} {p : Nat × Nat} (h : p ∈ chunks size len) : p.1 + p.2 ≤ len := by
  obtain ⟨k, hk, rfl⟩ := chunks_mem h
  have hsize : 0 < size := Nat.pos_of_ne_zero fun h0 => by simp [h0] at hk
  have hle : (k + 1) * size ≤ len + size - 1 := (Nat.le_div_iff_mul_le hsize).mp hk
  rw [Nat.succ_mul] at hle
  dsimp only
  omega

theorem rangeReadable_chunk {s : State} {buf len : Nat} (h : RangeReadable s buf len) {p : Nat × Nat}
    (hp : p.1 + p.2 ≤ len) : RangeReadable s (buf + p.1) p.2 :=
  fun x hx hn => h x (by omega) (by omega)

/-- The page program frames of a request of whole chunks. -/
theorem programFrames_chunks {len : Nat} (hlen : progChunk ∣ len) (s : State) (off : Word) (buf : Nat) :
    programFrames s off buf (chunks progChunk len) = (List.range (len / 128)).map fun k =>
      s.cfg.opPp :: (addr3 (off + BitVec.ofNat 32 (k * 128)) ++ s.mem.readBlock (buf + k * 128) 128) := by
  rw [chunks_of_dvd (by decide) hlen, programFrames, List.map_map]
  rfl

/-- Settles O57: the engine, and then the loop of pieces over memory the host provides. -/
theorem writeRunsPieceByPiece : Obligations.WriteRunsPieceByPiece := by
  intro s a c b hs hrun hreadable
  obtain ⟨u, hu⟩ := unlockEngine_exists hrun
  have hpieces : ∀ p ∈ chunks progChunk (byteLength c).toNat, RangeReadable u (hostAddr s.cfg b + p.1) p.2 :=
    fun p hp => (unlockEngine_rangeReadable hu _ _).mpr (rangeReadable_chunk hreadable (chunks_end_le hp))
  obtain ⟨r, hprogram, hgoes⟩ := goes_programChunks (byteOffset a) (hostAddr s.cfg b) hpieces
  have hcontained : Contained u r := contained_programChunks _ _ _ hprogram
  rw [programFrames_chunks (progChunk_dvd_byteLength c), unlockEngine_cfg hu, unlockEngine_mem hu] at hgoes
  obtain ⟨evs, hended⟩ := endFailCode_ended hu hcontained hgoes
  exact ⟨u, _, evs, hu, exec_write_of_some hs hu hprogram, unlockEngine_ran hu, endFailCode_frame hu hcontained,
    hended⟩

/-! ### READ -/

/-- Chunk `k` of a request exists exactly when its position lies inside. -/
theorem lt_chunk_count_iff {size len k : Nat} (hsize : 0 < size) : k < (len + size - 1) / size ↔ k * size < len := by
  rw [← Nat.succ_le_iff, Nat.le_div_iff_mul_le hsize, Nat.succ_mul]
  omega

theorem chunks_eq_range' (size len : Nat) : chunks size len =
    (List.range' 0 ((len + size - 1) / size)).map fun k => (k * size, min size (len - k * size)) := by
  rw [chunks, List.range_eq_range']

/-- The chunks reach the end of the request. -/
theorem le_chunk_count_mul {size : Nat} (hsize : 0 < size) (len : Nat) : len ≤ (len + size - 1) / size * size :=
  Nat.not_lt.mp fun h => Nat.lt_irrefl _ ((lt_chunk_count_iff hsize).mpr h)

/-- After the loop of READ only memory, the positions and what transactions touch changed. -/
theorem endMinusOne_frame {s : State} {r : Res Unit} (h : CopyOnly (beginCommand s) r.state) :
    endMinusOne r = { s with
      useq := r.state.useq, trace := r.state.trace, script := (endMinusOne r).script, draws := (endMinusOne r).draws
      mem := (endMinusOne r).mem, hpc := s.hpc + 1, statuses := (endMinusOne r).statuses } := by
  cases r with
  | ok x t => rw [show t = _ from h]; rfl
  | raised e t => rw [show t = _ from h]; rfl

theorem copyOnly_statuses {s t : State} (h : CopyOnly s t) : t.statuses = s.statuses := by rw [h]

theorem endMinusOne_mem (r : Res Unit) : (endMinusOne r).mem = r.state.mem := by cases r <;> rfl

/-- Settles O58: the loop of chunks over memory the host provides, and the status of its end. -/
theorem readCopiesChunkByChunk : Obligations.ReadCopiesChunkByChunk := by
  intro s a c b hs hwf hwritable
  have hsize : 0 < readChunk := by decide
  obtain ⟨r, evs, rxs, hloop, hcopy, htrace, huseq, hchunk, hbelow, hend⟩ :=
    readChunks_spec (byteOffset a) (hostAddr s.cfg b) (byteLength c).toNat readChunk
      (((byteLength c).toNat + readChunk - 1) / readChunk) 0 (beginCommand s) hwf
      (fun j hj => by rw [Nat.zero_add]; exact (lt_chunk_count_iff hsize).mp hj)
      (by rw [Nat.zero_add]; exact le_chunk_count_mul hsize _)
      (by rw [Nat.zero_mul, Nat.add_zero, Nat.sub_zero]; exact hwritable)
  rw [← chunks_eq_range'] at hloop
  obtain ⟨-, ⟨evs', hport⟩, -, -⟩ := readChunks_port _ _ _ hloop
  obtain rfl : evs' = evs := List.append_cancel_left (hport.trace.symm.trans htrace)
  simp only [Nat.zero_add, Nat.zero_mul, Nat.add_zero, beginCommand_useq] at hchunk hbelow hend huseq
  have hframe := endMinusOne_frame hcopy
  rw [huseq, htrace] at hframe
  refine ⟨endMinusOne r, evs', rxs, exec_read_of_some hs hloop, hframe, ?_, ?_⟩
  · rw [endMinusOne_mem]
    exact hchunk
  · rw [endMinusOne_mem]
    rcases hend with ⟨⟨t, rfl⟩, hrxs, hevs, habove⟩ | ⟨⟨e, t, rfl⟩, hrxs, hevs, hfail, habove⟩
    · refine .inl ⟨?_, portRan_command hport, hrxs, hevs.trans hrxs.symm, fun x hx => hx.elim (hbelow x) (habove x)⟩
      exact congrArg (· ++ [statusOk]) (copyOnly_statuses hcopy)
    · refine .inr ⟨?_, portRan_command hport, hrxs, hevs, hfail, fun x hx => hx.elim (hbelow x) (habove x)⟩
      exact congrArg (· ++ [statusMinusOne]) (copyOnly_statuses hcopy)

/-! ### Where the block is stuck -/

theorem chunks_getElem?_eq_some_iff {size len k : Nat} {p : Nat × Nat} (hsize : 0 < size) :
    (chunks size len)[k]? = some p ↔ k * size < len ∧ p = (k * size, min size (len - k * size)) := by
  rw [← lt_chunk_count_iff hsize]
  constructor
  · intro h
    have hk : k < (len + size - 1) / size := chunks_length size len ▸ (List.getElem?_eq_some_iff.mp h).1
    exact ⟨hk, Option.some.inj (h.symm.trans (chunks_getElem? hk))⟩
  · rintro ⟨hk, rfl⟩
    exact chunks_getElem? hk

/-- The host provides the chunks before chunk `k` exactly when it provides the range before it. -/
theorem rangeWritable_chunks_iff {s : State} {buf size len k : Nat} (hk : k * size < len) :
    (∀ j < k, RangeWritable s (buf + j * size) (min size (len - j * size))) ↔ RangeWritable s buf (k * size) := by
  have hwhole : ∀ j < k, j * size + size ≤ k * size := fun j hj => by
    rw [← Nat.succ_mul]
    exact Nat.mul_le_mul_right _ hj
  constructor
  · intro h x hx hxk
    have hsize : 0 < size := Nat.pos_of_ne_zero fun h0 => by subst h0; omega
    have hdiv := Nat.div_add_mod (x - buf) size
    have hmod := Nat.mod_lt (x - buf) hsize
    have hj : (x - buf) / size < k := (Nat.div_lt_iff_lt_mul hsize).mpr (by omega)
    have := hwhole _ hj
    rw [Nat.mul_comm] at hdiv
    exact h _ hj x (by omega) (by omega)
  · intro h j hj x hx hxn
    have := hwhole j hj
    exact h x (by omega) (by omega)

/-- READ has no step exactly when its loop has none. -/
theorem exec_read_fault_iff {s : State} (hs : s.session.initialized = true) (a c b : Word) :
    exec (.read a c b) s = .fault .hostMemory ↔
      readChunks (byteOffset a) (hostAddr s.cfg b) (chunks readChunk (byteLength c).toNat) (beginCommand s) = none := by
  refine ⟨fun h => ?_, exec_read_of_none hs⟩
  cases hr : readChunks (byteOffset a) (hostAddr s.cfg b) (chunks readChunk (byteLength c).toNat) (beginCommand s) with
  | none => rfl
  | some r => cases (exec_read_of_some hs hr).symm.trans h

/-- WRITE has no step exactly when the loop after the unlock engine has none. -/
theorem exec_write_fault_iff {s : State} (hs : s.session.initialized = true) (a c b : Word) :
    exec (.write a c b) s = .fault .hostMemory ↔ ∃ u, unlockEngine (beginCommand s) = some u ∧
      program (byteOffset a) (byteLength c).toNat (hostAddr s.cfg b) u = none := by
  refine ⟨fun h => ?_, fun ⟨u, hu, hr⟩ => exec_write_of_none hs hu hr⟩
  cases hu : unlockEngine (beginCommand s) with
  | none =>
    have hidentity : exec (.write a c b) s = .fault .identityUnwritten := by
      change execWrite a c b s = _
      rw [execWrite, if_pos hs, hu]
    cases hidentity.symm.trans h
  | some u =>
    cases hr : program (byteOffset a) (byteLength c).toNat (hostAddr s.cfg b) u with
    | none => exact ⟨u, rfl, hr⟩
    | some r => cases (exec_write_of_some hs hu hr).symm.trans h

/-- The chunks before chunk `k` of a request of whole chunks are those of the request cut at `k`. -/
theorem take_chunks_of_dvd {size len k : Nat} (hsize : 0 < size) (hdvd : size ∣ len) (hk : k * size < len) :
    (chunks size len).take k = chunks size (k * size) := by
  have hle : k ≤ len / size := (Nat.le_div_iff_mul_le hsize).mpr hk.le
  rw [chunks_of_dvd hsize hdvd, chunks_of_dvd hsize (Nat.dvd_mul_left size k), Nat.mul_div_cancel k hsize,
    ← List.map_take, List.take_range, min_eq_left hle]

theorem program_none_iff {off : Word} {len buf : Nat} {s u : State} (hu : unlockEngine (beginCommand s) = some u)
    (hlen : progChunk ∣ len) : program off len buf u = none ↔ ∃ k v, k * 128 < len ∧
      program off (k * 128) buf u = some (.ok () v) ∧ (answer v 0).isSome = true ∧
      ¬ RangeReadable s (buf + k * 128) 128 := by
  have hsize : 0 < progChunk := by decide
  have hwhole : ∀ k, k * 128 < len → min progChunk (len - k * progChunk) = 128 := by
    intro k hk
    obtain ⟨m, rfl⟩ := hlen
    simp only [progChunk] at hk ⊢
    omega
  rw [program, programChunks_none]
  constructor
  · rintro ⟨k, p, v, hp, hbefore, hanswer, hnot⟩
    obtain ⟨hk, rfl⟩ := (chunks_getElem?_eq_some_iff hsize).mp hp
    rw [take_chunks_of_dvd hsize hlen hk] at hbefore
    rw [unlockEngine_rangeReadable hu, hwhole k hk] at hnot
    exact ⟨k, v, hk, hbefore, hanswer, hnot⟩
  · rintro ⟨k, v, hk, hbefore, hanswer, hnot⟩
    refine ⟨k, _, v, (chunks_getElem?_eq_some_iff hsize).mpr ⟨hk, rfl⟩, ?_, hanswer, ?_⟩
    · rw [take_chunks_of_dvd hsize hlen hk]
      exact hbefore
    · rw [unlockEngine_rangeReadable hu, hwhole k hk]
      exact hnot

/-- The loop of READ has no step exactly at a chunk that is answered and not provided, after chunks that are both. -/
theorem readChunks_none_iff (off : Word) (len buf : Nat) (s : State) :
    readChunks off buf (chunks readChunk len) (beginCommand s) = none ↔ ∃ k, k * readChunk < len ∧
      (∀ j, j ≤ k → (answer { s with script := s.script.drop j, draws := s.draws + j }
        (min readChunk (len - j * readChunk))).isSome = true) ∧
      RangeWritable s buf (k * readChunk) ∧
      ¬ RangeWritable s (buf + k * readChunk) (min readChunk (len - k * readChunk)) := by
  have hsize : 0 < readChunk := by decide
  have hinside : ∀ {j k}, j ≤ k → k * readChunk < len → j * readChunk < len :=
    fun hj hk => (Nat.mul_le_mul_right _ hj).trans_lt hk
  have hwritable : ∀ x n, RangeWritable (beginCommand s) x n ↔ RangeWritable s x n := fun _ _ => Iff.rfl
  have hanswer : ∀ j n, answer { beginCommand s with script := s.script.drop j, draws := s.draws + j } n =
      answer { s with script := s.script.drop j, draws := s.draws + j } n := fun _ _ => answer_congr rfl rfl _
  rw [readChunks_none]
  simp only [chunks_getElem?_eq_some_iff hsize]
  constructor
  · rintro ⟨k, p, ⟨hk, rfl⟩, hanswered, hbefore, hnot⟩
    refine ⟨k, hk, fun j hj => ?_, (rangeWritable_chunks_iff hk).mp fun j hj => ?_, hnot⟩
    · rw [← hanswer]
      exact hanswered j _ hj ⟨hinside hj hk, rfl⟩
    · exact hbefore j _ hj ⟨hinside hj.le hk, rfl⟩
  · rintro ⟨k, hk, hanswered, hbefore, hnot⟩
    refine ⟨k, _, ⟨hk, rfl⟩, ?_, ?_, hnot⟩
    · rintro j q hj ⟨-, rfl⟩
      exact (congrArg Option.isSome (hanswer j _)).trans (hanswered j hj)
    · rintro j q hj ⟨-, rfl⟩
      exact (rangeWritable_chunks_iff hk).mpr hbefore j hj

/-- Settles O59: each command has no step where its loop has none. -/
theorem unprovidedHostMemoryIsStuck : Obligations.UnprovidedHostMemoryIsStuck := by
  intro s a c b hs
  refine ⟨(exec_read_fault_iff hs a c b).trans (readChunks_none_iff _ _ _ s),
    (exec_write_fault_iff hs a c b).trans ?_⟩
  constructor
  · rintro ⟨u, hu, hnone⟩
    obtain ⟨k, v, hk, hbefore, hanswer, hnot⟩ := (program_none_iff hu (progChunk_dvd_byteLength c)).mp hnone
    exact ⟨k, u, v, hk, hu, hbefore, hanswer, hnot⟩
  · rintro ⟨k, u, v, hk, hu, hbefore, hanswer, hnot⟩
    exact ⟨u, hu, (program_none_iff hu (progChunk_dvd_byteLength c)).mpr ⟨k, v, hk, hbefore, hanswer, hnot⟩⟩

end Sys2Proof.Machine
